-- ==== Sys2Proof/Word.lean ====
section
/-! DEFINITION. The words of CLKCTL: every register and bus datum is 32 bits (00_scope.md R8), an
operand field of the command word is a byte (30_encoding.md R81). -/

namespace Sys2Proof

/-- A register value, a command word or a data word: `XLEN = 32` (R8, R10). -/
abbrev Word := BitVec 32

/-- An operand field of the command word, or a fault code (R81, R191). -/
abbrev Byte := BitVec 8

end Sys2Proof
end

