-- ==== Sys2Proof/Config.lean ====
section
/-! DEFINITION. What a launch fixes: the names the parameters speak of, and the parameters of
00_scope.md R9 as one plain record. The default values stand in Machine/Defaults.lean, what is
computed from a layout in Machine/Layout.lean, and the check of a record in WellFormed.lean. -/

namespace Sys2Proof

/-- The three bus domains (10_state.md R32): two peripheral buses and the high-speed bus. -/
inductive Domain where
  | apb1
  | apb2
  | ahb
  deriving DecidableEq, Repr

/-- The seven registers in scope (10_state.md R21). -/
inductive Reg where
  | cr
  | cfgr
  | apb2rstr
  | apb1rstr
  | ahbenr
  | apb2enr
  | apb1enr
  deriving DecidableEq, Repr

/-- The three registers of the window that exist in the default layout and are not modelled (10_state.md
R21, 20_memory.md R62). -/
inductive UnmodelledReg where
  | cir
  | bdcr
  | csr
  deriving DecidableEq, Repr

/-- A register that has a place in the window (10_state.md R21, 20_memory.md R61). -/
inductive WindowReg where
  | modelled (r : Reg)
  | unmodelled (u : UnmodelledReg)
  deriving DecidableEq, Repr

/-- The five prescaler selectors, in the source's order (10_state.md R37). -/
inductive PrescSel where
  | ahb
  | apb1
  | apb2
  | usb
  | adc
  deriving DecidableEq, Repr

/-- The three step kinds of the clock hardware (41_clock_tree_init.md R130 to R132). -/
inductive EnvKind where
  | hseStart
  | pllLock
  | clockSwitch
  deriving DecidableEq, Repr, Inhabited

/-- One turn of one agent (00_scope.md R5): HOST issues a command, CTRL or one kind of ENV step
moves, or HOST asserts block reset, with the `HSICAL0` that this reset draws (70_reset_and_hazards.md
R220). DESIGN CHOICE (log 1), safe: a run is the sequence of the turns taken. -/
inductive Turn where
  | host (cw dw : Word)
  | ctrl
  | env (kind : EnvKind)
  | blockReset (hsical0 : Byte)
  deriving DecidableEq, Repr, Inhabited

/-- One entry of the Device Registry: the peripheral's name and its `(domain, line)` (10_state.md
R33). The identifier is the entry's position in the table. -/
structure PeriphDesc where
  name : String
  domain : Domain
  line : Nat
  deriving DecidableEq, Repr

/-- Bit positions of the modelled fields of CR and CFGR (10_state.md R27, R28), the lowest bit of
each. The widths are fixed by the rules: HSICAL 8, SW and SWS 2, PLLMUL 4, every other field 1. -/
structure Layout where
  crHsirdy : Nat
  crHsical : Nat
  crHseon : Nat
  crHserdy : Nat
  crPllon : Nat
  crPllrdy : Nat
  cfgrSw : Nat
  cfgrSws : Nat
  cfgrPllsrc : Nat
  cfgrPllmul : Nat
  deriving DecidableEq, Repr

/-- `PRESC_MASK`: the CFGR field mask of each prescaler selector (10_state.md R37). -/
structure PrescMasks where
  ahb : Word
  apb1 : Word
  apb2 : Word
  usb : Word
  adc : Word
  deriving DecidableEq, Repr

/-- The register index of each register (10_state.md R21). -/
structure RegIndices where
  cr : Nat
  cfgr : Nat
  apb2rstr : Nat
  apb1rstr : Nat
  ahbenr : Nat
  apb2enr : Nat
  apb1enr : Nat
  deriving DecidableEq, Repr

/-- `OFF(r)`: the byte offset of each register of the window (00_scope.md R9, 10_state.md R21,
20_memory.md R61). -/
structure RegOffsets where
  cr : Nat
  cfgr : Nat
  cir : Nat
  apb2rstr : Nat
  apb1rstr : Nat
  ahbenr : Nat
  apb2enr : Nat
  apb1enr : Nat
  bdcr : Nat
  csr : Nat
  deriving DecidableEq, Repr

/-- The system-clock source codes `SRC_*` and the PLL input codes `PLLSRC_*` (00_scope.md R9,
10_state.md R29). -/
structure ClockCodes where
  srcHsi : BitVec 2
  srcHse : BitVec 2
  srcPll : BitVec 2
  pllsrcHsiDiv2 : BitVec 1
  pllsrcHse : BitVec 1
  deriving DecidableEq, Repr

/-- The parameters of 00_scope.md R9. `NPERIPH` is the length of `registry`, and `LINES` is computed
from `registry`. `resetCr` is CR's reset value without `HSICAL0`. `mulCodes` lists `MULCODE` as pairs
(multiplier, code), the code that the assembler writes before any other code of its multiplier.
`hseWorks` and `pllLocks` are the two Boolean launch parameters of 10_state.md R43. -/
structure Config where
  rccBase : Word
  nRegIdx : Nat
  indices : RegIndices
  offsets : RegOffsets
  layout : Layout
  prescMasks : PrescMasks
  codes : ClockCodes
  mulCodes : List (Nat × BitVec 4)
  registry : List PeriphDesc
  resetCr : Word
  resetAhbenr : Word
  hseWorks : Bool
  pllLocks : Bool
  deriving DecidableEq, Repr

/-- The free choice of who moves next, for the draw of the given number, when the agenda of the
state names nobody. It has no value here: any agent with an enabled step may take it (00_scope.md
R5). DESIGN CHOICE (log 2), safe: it allows every turn, so nothing can be proved from its value. -/
opaque Config.freeTurn : Nat → Turn

end Sys2Proof
end

