-- ==== Sys2Proof/Syntax.lean ====
section
/-! DEFINITION. The commands of CLKCTL, one constructor for each row of spec/opcode_table.json, and
the assembler's lines of 30_encoding.md R87 to R89. -/

namespace Sys2Proof

/-- A decoded command (30_encoding.md R82, R84). An operand that the command word holds in 8 (or 4)
bits is that many bits here, so no command is out of its encoding's range; an operand outside the
range of its OPERATION (an index of 10, an unknown identifier) is a command that decodes and then
faults (R85). DW is held by the four commands that take it (R81). DEDUCED (log 14), safe. -/
inductive Instr where
  /-- RD, format R, OP 0x1 (40_register_access.md R106). -/
  | rd (idx : Byte)
  /-- WR, format R, OP 0x2 (R107). -/
  | wr (idx : Byte) (value : Word)
  /-- SET, format R, OP 0x3 (R108). -/
  | set (idx : Byte) (mask : Word)
  /-- CLR, format R, OP 0x4 (R109). -/
  | clr (idx : Byte) (mask : Word)
  /-- CLK_INIT, format I, OP 0x8 (41_clock_tree_init.md R121). -/
  | clkInit (src pllSrc : Byte) (mul : BitVec 4)
  /-- PERIPH_ENABLE, format P, OP 0x9 (42_peripheral_gating.md R160). -/
  | periphEnable (id : Byte)
  /-- PERIPH_RESET, format P, OP 0xA (R161). -/
  | periphReset (id : Byte)
  /-- PRESCALER_SET, format S, OP 0xB (43_prescaler.md R180). -/
  | prescalerSet (sel : Byte) (divider : Word)
  deriving DecidableEq, Repr

/-- `<reg>`: a register name or `#n` (30_encoding.md R87). -/
inductive AsmReg where
  | name (r : Reg)
  | code (n : Nat)
  deriving DecidableEq, Repr

/-- `<src>`: HSI, HSE, PLL or `#n` (R87). -/
inductive AsmSrc where
  | hsi
  | hse
  | pll
  | code (n : Nat)
  deriving DecidableEq, Repr

/-- `<pllsrc>`: HSI_DIV2, HSE or `#n` (R87). -/
inductive AsmPllSrc where
  | hsiDiv2
  | hse
  | code (n : Nat)
  deriving DecidableEq, Repr

/-- `MUL<m>` or `#k` (R87). -/
inductive AsmMul where
  | times (m : Nat)
  | code (k : Nat)
  deriving DecidableEq, Repr

/-- `<periph>`: a name of the registry or `#n` (R87). -/
inductive AsmPeriph where
  | name (p : String)
  | code (n : Nat)
  deriving DecidableEq, Repr

/-- `<sel>`: AHB, APB1, APB2, USB, ADC or `#n` (R87). -/
inductive AsmSel where
  | name (s : PrescSel)
  | code (n : Nat)
  deriving DecidableEq, Repr

/-- `<div>`: a divider symbol of R88 or a 32-bit number (R87). -/
inductive AsmDiv where
  | symbol (d : String)
  | imm (v : Nat)
  deriving DecidableEq, Repr

/-- One assembly line: a command, or the one pseudo-instruction PERIPH_DISABLE (R87, R89). -/
inductive AsmLine where
  | rd (r : AsmReg)
  | wr (r : AsmReg) (imm : Nat)
  | set (r : AsmReg) (imm : Nat)
  | clr (r : AsmReg) (imm : Nat)
  | clkInit (src : AsmSrc) (pllSrc : AsmPllSrc) (mul : AsmMul)
  | periphEnable (p : AsmPeriph)
  | periphReset (p : AsmPeriph)
  | prescalerSet (s : AsmSel) (d : AsmDiv)
  | periphDisable (p : AsmPeriph)
  deriving DecidableEq, Repr

end Sys2Proof
end

