-- ==== Sys2Proof/Machine/Layout.lean ====
section
/-! DEFINITION. Bit fields, and everything computed from a configuration's layout and registry:
register indices and addresses, the line masks, the selector tables, and the three bit classes
`WM`, `RO` and `U` of each register (10_state.md R21, R25, R27, R28, R30, R31, R33, R36, R37). -/

namespace Sys2Proof

/-- `1 << n` (00_scope.md R10). -/
def bit (n : Nat) : Word := 1#32 <<< n

/-- `v[n]` for a one-bit field or flag (R10). -/
def flag (n : Nat) (v : Word) : Bool := v.getLsbD n

/-- The mask of the field of the given width whose lowest bit is `lo`. -/
def fieldMask (lo width : Nat) : Word := BitVec.ofNat 32 (2 ^ width - 1) <<< lo

/-- `v[lo+width-1 : lo]` (R10). -/
def getField (lo width : Nat) (v : Word) : BitVec width := v.extractLsb' lo width

/-- The word whose field at `lo` is `x` and whose other bits are 0. -/
def placeField (lo : Nat) {width : Nat} (x : BitVec width) : Word := x.setWidth 32 <<< lo

/-- `v` with the field at `lo` replaced by `x`. -/
def putField (lo : Nat) {width : Nat} (x : BitVec width) (v : Word) : Word :=
  (v &&& ~~~ fieldMask lo width) ||| placeField lo x

/-- The code of a bus domain (10_state.md R32). -/
def Domain.code : Domain → Nat
  | .apb1 => 0
  | .apb2 => 1
  | .ahb => 2

/-- The code of a prescaler selector (10_state.md R37). -/
def PrescSel.code : PrescSel → Nat
  | .ahb => 0
  | .apb1 => 1
  | .apb2 => 2
  | .usb => 3
  | .adc => 4

/-- The seven registers, in the order of their default indices. -/
def Reg.all : List Reg := [.cr, .cfgr, .apb2rstr, .apb1rstr, .ahbenr, .apb2enr, .apb1enr]

/-- `ENABLE_REG`, the first table of the Bus Domain Register Selector (10_state.md R36). -/
def Domain.enableReg : Domain → Reg
  | .apb1 => .apb1enr
  | .apb2 => .apb2enr
  | .ahb => .ahbenr

/-- `RESET_REG`, the second table: the high-speed bus has no reset register (R36). -/
def Domain.resetReg : Domain → Option Reg
  | .apb1 => some .apb1rstr
  | .apb2 => some .apb2rstr
  | .ahb => none

/-- The register index of `r` (10_state.md R21). -/
def Config.index (c : Config) : Reg → Nat
  | .cr => c.indices.cr
  | .cfgr => c.indices.cfgr
  | .apb2rstr => c.indices.apb2rstr
  | .apb1rstr => c.indices.apb1rstr
  | .ahbenr => c.indices.ahbenr
  | .apb2enr => c.indices.apb2enr
  | .apb1enr => c.indices.apb1enr

/-- The registers that have a place in the window, in the order of their default offsets (10_state.md
R21). -/
def WindowReg.all : List WindowReg :=
  [.modelled .cr, .modelled .cfgr, .unmodelled .cir, .modelled .apb2rstr, .modelled .apb1rstr,
    .modelled .ahbenr, .modelled .apb2enr, .modelled .apb1enr, .unmodelled .bdcr, .unmodelled .csr]

/-- `OFF(r)`, the byte offset of a register in the window (00_scope.md R9, 20_memory.md R61). -/
def Config.off (c : Config) : WindowReg → Nat
  | .modelled .cr => c.offsets.cr
  | .modelled .cfgr => c.offsets.cfgr
  | .modelled .apb2rstr => c.offsets.apb2rstr
  | .modelled .apb1rstr => c.offsets.apb1rstr
  | .modelled .ahbenr => c.offsets.ahbenr
  | .modelled .apb2enr => c.offsets.apb2enr
  | .modelled .apb1enr => c.offsets.apb1enr
  | .unmodelled .cir => c.offsets.cir
  | .unmodelled .bdcr => c.offsets.bdcr
  | .unmodelled .csr => c.offsets.csr

/-- The byte address of a register: `RCC_BASE + OFF(r)` (20_memory.md R61). -/
def Config.address (c : Config) (w : WindowReg) : Nat := c.rccBase.toNat + c.off w

/-- `MULCODE(m)`: the code that the assembler writes for the multiplier `m` (00_scope.md R9,
30_encoding.md R87). -/
def Config.mulCode (c : Config) (m : Nat) : Option (BitVec 4) :=
  (c.mulCodes.find? fun p => p.1 == m).map Prod.snd

/-- The multiplier that a PLLMUL code stands for (00_scope.md R9, 10_state.md R29). CLKCTL models no
frequency, so no rule reads it. -/
def Config.multiplier (c : Config) (code : BitVec 4) : Option Nat :=
  (c.mulCodes.find? fun p => p.2 == code).map Prod.fst

/-- `NPERIPH`: peripheral identifiers are 0 up to this (10_state.md R33). -/
def Config.nPeriph (c : Config) : Nat := c.registry.length

/-- The OR of `1 << line` over the entries of domain `d` (10_state.md R33). -/
def linesOf (d : Domain) : List PeriphDesc → Word
  | [] => 0#32
  | p :: ps => if p.domain = d then bit p.line ||| linesOf d ps else linesOf d ps

/-- `LINES(d)` (10_state.md R33). -/
def Config.lines (c : Config) (d : Domain) : Word := linesOf d c.registry

/-- `PRESC_MASK(s)` (10_state.md R37). -/
def Config.prescMask (c : Config) : PrescSel → Word
  | .ahb => c.prescMasks.ahb
  | .apb1 => c.prescMasks.apb1
  | .apb2 => c.prescMasks.apb2
  | .usb => c.prescMasks.usb
  | .adc => c.prescMasks.adc

/-- The HSEON bit of CR (10_state.md R27, 41_clock_tree_init.md R120). -/
def Config.hseonMask (c : Config) : Word := bit c.layout.crHseon

/-- The HSERDY bit of CR (R27, R120). -/
def Config.hserdyMask (c : Config) : Word := bit c.layout.crHserdy

/-- The PLLON bit of CR (R27, R120). -/
def Config.pllonMask (c : Config) : Word := bit c.layout.crPllon

/-- The PLLRDY bit of CR (R27, R120). -/
def Config.pllrdyMask (c : Config) : Word := bit c.layout.crPllrdy

/-- The SW field of CFGR (10_state.md R28, R120). -/
def Config.swMask (c : Config) : Word := fieldMask c.layout.cfgrSw 2

/-- The SWS field of CFGR (R28, R120). -/
def Config.swsMask (c : Config) : Word := fieldMask c.layout.cfgrSws 2

/-- The masks of the modelled fields of CR, by class (10_state.md R27). -/
def Config.crWritable (c : Config) : List Word := [c.hseonMask, c.pllonMask]

/-- The read-only, hardware-owned fields of CR (R27). -/
def Config.crReadOnly (c : Config) : List Word :=
  [bit c.layout.crHsirdy, fieldMask c.layout.crHsical 8, c.hserdyMask, c.pllrdyMask]

/-- The writable fields of CFGR (10_state.md R28). -/
def Config.cfgrWritable (c : Config) : List Word :=
  [c.swMask, c.prescMasks.ahb, c.prescMasks.apb1, c.prescMasks.apb2, c.prescMasks.adc,
    bit c.layout.cfgrPllsrc, fieldMask c.layout.cfgrPllmul 4, c.prescMasks.usb]

/-- The read-only field of CFGR (R28). -/
def Config.cfgrReadOnly (c : Config) : List Word := [c.swsMask]

/-- The OR of a list of masks. -/
def orAll : List Word → Word
  | [] => 0#32
  | m :: ms => m ||| orAll ms

/-- `WM(r)`: the bits that a bus write stores (10_state.md R25, R27, R28, R30, R31). -/
def Config.wm (c : Config) : Reg → Word
  | .cr => orAll c.crWritable
  | .cfgr => orAll c.cfgrWritable
  | .apb2rstr => c.lines .apb2
  | .apb1rstr => c.lines .apb1
  | .ahbenr => c.lines .ahb
  | .apb2enr => c.lines .apb2
  | .apb1enr => c.lines .apb1

/-- `RO(r)`: the bits that only ENV and reset change (R25, R27, R28, R30, R31). -/
def Config.ro (c : Config) : Reg → Word
  | .cr => orAll c.crReadOnly
  | .cfgr => orAll c.cfgrReadOnly
  | .apb2rstr => 0#32
  | .apb1rstr => 0#32
  | .ahbenr => 0#32
  | .apb2enr => 0#32
  | .apb1enr => 0#32

/-- `U(r)`: the unmodelled or reserved bits, all those of neither other class (R25). -/
def Config.un (c : Config) (r : Reg) : Word := ~~~ (c.wm r ||| c.ro r)

/-- The register file: the seven registers in scope, each a 32-bit stored word (10_state.md R20,
R21, R25). -/
structure RegFile where
  cr : Word
  cfgr : Word
  apb2rstr : Word
  apb1rstr : Word
  ahbenr : Word
  apb2enr : Word
  apb1enr : Word
  deriving DecidableEq, Repr

/-- `reg[r]` (00_scope.md R11). -/
def RegFile.get (f : RegFile) : Reg → Word
  | .cr => f.cr
  | .cfgr => f.cfgr
  | .apb2rstr => f.apb2rstr
  | .apb1rstr => f.apb1rstr
  | .ahbenr => f.ahbenr
  | .apb2enr => f.apb2enr
  | .apb1enr => f.apb1enr

/-- `reg[r] <- v` (00_scope.md R11). -/
def RegFile.set (f : RegFile) (r : Reg) (v : Word) : RegFile :=
  match r with
  | .cr => { f with cr := v }
  | .cfgr => { f with cfgr := v }
  | .apb2rstr => { f with apb2rstr := v }
  | .apb1rstr => { f with apb1rstr := v }
  | .ahbenr => { f with ahbenr := v }
  | .apb2enr => { f with apb2enr := v }
  | .apb1enr => { f with apb1enr := v }

/-- The register values of block reset, with the calibration byte that the reset draws (10_state.md
R45, R27, R30). -/
def RegFile.reset (c : Config) (hsical0 : Byte) : RegFile :=
  { cr := c.resetCr ||| placeField c.layout.crHsical hsical0
    cfgr := 0#32
    apb2rstr := 0#32
    apb1rstr := 0#32
    ahbenr := c.resetAhbenr
    apb2enr := 0#32
    apb1enr := 0#32 }

end Sys2Proof
end

