-- ==== Sys2Proof/WellFormed.lean ====
section
/-! DEFINITION. What a well-formed configuration is (10_state.md R34 and the layout conditions that
R25 to R29 and R37 take for granted), and what an assembly line must meet to be assembled
(30_encoding.md R87). A command has no check of its own: its operand widths are in its type, and an
operand outside its operation's range is a legal encoding that faults when it runs (R85). -/

namespace Sys2Proof

/-- No two entries of the list are equal. -/
def allDistinct {α : Type} [DecidableEq α] : List α → Bool
  | [] => true
  | x :: xs => !(xs.contains x) && allDistinct xs

/-- No two masks of the list share a bit. -/
def masksDisjoint : List Word → Bool
  | [] => true
  | m :: ms => ms.all (fun m' => m &&& m' == 0#32) && masksDisjoint ms

/-- Every line of the registry is in 0..31 (10_state.md R34). -/
def Config.linesInRange (c : Config) : Bool := c.registry.all fun p => decide (p.line < 32)

/-- No two peripherals share a control bit (10_state.md R34). -/
def Config.linesUnique (c : Config) : Bool := allDistinct (c.registry.map fun p => (p.domain, p.line))

/-- Each register has its own index slot, which the 8-bit operand can name (10_state.md R21, 20_memory.md
R60, 30_encoding.md R82). -/
def Config.indicesOk (c : Config) : Bool :=
  allDistinct (Reg.all.map c.index) &&
    Reg.all.all fun r => decide (c.index r < c.nRegIdx) && decide (c.index r < 256)

/-- No two of the offsets lie within the four bytes of one register. -/
def offsetsApart : List Nat → Bool
  | [] => true
  | o :: os => os.all (fun p => decide (o + 4 ≤ p) || decide (p + 4 ≤ o)) && offsetsApart os

/-- No two registers share a byte of the window (20_memory.md R61). -/
def Config.offsetsOk (c : Config) : Bool := offsetsApart (WindowReg.all.map c.off)

/-- Every field position lies in the 32 bits of its register (10_state.md R27, R28). -/
def Layout.inRange (l : Layout) : Bool :=
  decide (l.crHsirdy < 32) && decide (l.crHsical + 8 ≤ 32) && decide (l.crHseon < 32) &&
    decide (l.crHserdy < 32) && decide (l.crPllon < 32) && decide (l.crPllrdy < 32) &&
    decide (l.cfgrSw + 2 ≤ 32) && decide (l.cfgrSws + 2 ≤ 32) && decide (l.cfgrPllsrc < 32) &&
    decide (l.cfgrPllmul + 4 ≤ 32)

/-- No two fields of CR share a bit, and no two fields of CFGR (10_state.md R25 to R28, R37). -/
def Config.fieldsDisjoint (c : Config) : Bool :=
  masksDisjoint (c.crWritable ++ c.crReadOnly) && masksDisjoint (c.cfgrWritable ++ c.cfgrReadOnly)

/-- The three system-clock codes differ, none is the code 11 that no write can store, HSI's is the 00
that reset leaves in SW and SWS, and the two PLL input codes differ (10_state.md R29, 70_reset R221). -/
def Config.codesOk (c : Config) : Bool :=
  allDistinct [c.codes.srcHsi, c.codes.srcHse, c.codes.srcPll, 3#2] &&
    c.codes.pllsrcHsiDiv2 != c.codes.pllsrcHse && c.codes.srcHsi == 0#2

/-- CR's reset value has HSIRDY set and the clock enables, the other ready bits and HSICAL clear
(10_state.md R27, R42). -/
def Config.resetCrOk (c : Config) : Bool :=
  flag c.layout.crHsirdy c.resetCr &&
    (c.resetCr &&& orAll [c.hseonMask, c.pllonMask, c.hserdyMask, c.pllrdyMask,
      fieldMask c.layout.crHsical 8]) == 0#32

/-- A configuration that a run may have. The registry conditions are the spec's (10_state.md R34:
"a model refuses it"); the conditions on the layout are the model's. DESIGN CHOICE (log 7), safe: a
configuration that breaks one has no run. -/
def Config.wf (c : Config) : Bool :=
  c.linesInRange && c.linesUnique && c.indicesOk && c.layout.inRange && c.fieldsDisjoint &&
    c.codesOk && c.resetCrOk && c.offsetsOk

/-- `#n` in an 8-bit field is 0..255 (30_encoding.md R87). -/
def byteOk (n : Nat) : Bool := decide (n < 256)

/-- `<imm32>` is a 32-bit number (R87). -/
def immOk (v : Nat) : Bool := decide (v < 2 ^ 32)

/-- A register operand's number is in range (R87). -/
def AsmReg.wf : AsmReg → Bool
  | .name _ => true
  | .code n => byteOk n

/-- A clock source operand's number is in range (R87). -/
def AsmSrc.wf : AsmSrc → Bool
  | .hsi => true
  | .hse => true
  | .pll => true
  | .code n => byteOk n

/-- A PLL input operand's number is in range (R87). -/
def AsmPllSrc.wf : AsmPllSrc → Bool
  | .hsiDiv2 => true
  | .hse => true
  | .code n => byteOk n

/-- A multiplier is 2..16, a multiplier code 0..15 (R87). -/
def AsmMul.wf : AsmMul → Bool
  | .times m => decide (2 ≤ m) && decide (m ≤ 16)
  | .code k => decide (k < 16)

/-- A peripheral operand's number is in range (R87); whether a name is known is the registry's
matter (R89). -/
def AsmPeriph.wf : AsmPeriph → Bool
  | .name _ => true
  | .code n => byteOk n

/-- A selector operand's number is in range (R87). -/
def AsmSel.wf : AsmSel → Bool
  | .name _ => true
  | .code n => byteOk n

/-- A divider's number is in range (R87). -/
def AsmDiv.wf : AsmDiv → Bool
  | .symbol _ => true
  | .imm v => immOk v

/-- Every number of the line fits its field (R87). -/
def AsmLine.wf : AsmLine → Bool
  | .rd r => r.wf
  | .wr r v => r.wf && immOk v
  | .set r v => r.wf && immOk v
  | .clr r v => r.wf && immOk v
  | .clkInit s p m => s.wf && p.wf && m.wf
  | .periphEnable p => p.wf
  | .periphReset p => p.wf
  | .prescalerSet s d => s.wf && d.wf
  | .periphDisable p => p.wf

end Sys2Proof
end

