-- ==== Sys2Proof/Decode.lean ====
section
/-! DEFINITION. From a command (CW, DW) to an instruction or a rejection by name, and back
(30_encoding.md R80 to R85). Decoding is a function of CW alone but for the DW that four commands
carry (R81). The two words arrive on the command port as values, so there are no bytes to lay out
(R80, 20_memory.md R73). -/

namespace Sys2Proof

/-- CW[3:0], the opcode (30_encoding.md R81). -/
def fieldOp (cw : Word) : BitVec 4 := cw.extractLsb' 0 4

/-- CW[7:4], reserved, must be 0 (R81). -/
def fieldRsv (cw : Word) : BitVec 4 := cw.extractLsb' 4 4

/-- CW[15:8], the first operand (R81). -/
def fieldA (cw : Word) : Byte := cw.extractLsb' 8 8

/-- CW[23:16], the second operand (R81). -/
def fieldB (cw : Word) : Byte := cw.extractLsb' 16 8

/-- CW[31:24], the third operand (R81). -/
def fieldC (cw : Word) : Byte := cw.extractLsb' 24 8

/-- CW[27:24], the PLL multiplier code of CLK_INIT (R82). -/
def fieldMul (cw : Word) : BitVec 4 := cw.extractLsb' 24 4

/-- The eight mnemonics of the opcode map (30_encoding.md R84). -/
inductive Mnemonic where
  | rd
  | wr
  | set
  | clr
  | clkInit
  | periphEnable
  | periphReset
  | prescalerSet
  deriving DecidableEq, Repr

/-- One row of the opcode map. -/
structure OpcodeRow where
  mnemonic : Mnemonic
  mask : Word
  pattern : Word
  deriving DecidableEq, Repr

/-- The opcode map of 30_encoding.md R84, with the masks and matches of spec/opcode_table.json. -/
def opcodeRows : List OpcodeRow :=
  [ ⟨.rd, 0xFFFF00FF#32, 0x00000001#32⟩,
    ⟨.wr, 0xFFFF00FF#32, 0x00000002#32⟩,
    ⟨.set, 0xFFFF00FF#32, 0x00000003#32⟩,
    ⟨.clr, 0xFFFF00FF#32, 0x00000004#32⟩,
    ⟨.clkInit, 0xF00000FF#32, 0x00000008#32⟩,
    ⟨.periphEnable, 0xFFFF00FF#32, 0x00000009#32⟩,
    ⟨.periphReset, 0xFFFF00FF#32, 0x0000000A#32⟩,
    ⟨.prescalerSet, 0xFFFF00FF#32, 0x0000000B#32⟩ ]

/-- A CW selects a row when `(CW & mask) = match` (R84). -/
def OpcodeRow.selects (row : OpcodeRow) (cw : Word) : Bool := (cw &&& row.mask) == row.pattern

/-- Why a command word is illegal: the three cases of 30_encoding.md R85. -/
inductive DecodeReject where
  /-- OP is one of the eight values that no row has. -/
  | unassignedOpcode
  /-- RSV is nonzero. -/
  | reservedNonzero
  /-- A field that the format requires to be zero is nonzero. -/
  | mustBeZeroNonzero
  deriving DecidableEq, Repr

/-- OP is the opcode of a row (R84). -/
def opcodeAssigned (cw : Word) : Bool := opcodeRows.any fun row => fieldOp row.pattern == fieldOp cw

/-- The first case of R85 that holds of a CW no row matches. -/
def rejectReason (cw : Word) : DecodeReject :=
  if !opcodeAssigned cw then .unassignedOpcode
  else if fieldRsv cw ≠ 0#4 then .reservedNonzero
  else .mustBeZeroNonzero

/-- The instruction of a mnemonic with the operands of (CW, DW) (30_encoding.md R82). -/
def operandsOf (m : Mnemonic) (cw dw : Word) : Instr :=
  match m with
  | .rd => .rd (fieldA cw)
  | .wr => .wr (fieldA cw) dw
  | .set => .set (fieldA cw) dw
  | .clr => .clr (fieldA cw) dw
  | .clkInit => .clkInit (fieldA cw) (fieldB cw) (fieldMul cw)
  | .periphEnable => .periphEnable (fieldA cw)
  | .periphReset => .periphReset (fieldA cw)
  | .prescalerSet => .prescalerSet (fieldA cw) dw

/-- The decoder: the instruction of the row that CW selects, or why there is none (R84, R85). -/
def decode (cw dw : Word) : Except DecodeReject Instr :=
  match opcodeRows.find? fun row => row.selects cw with
  | some row => .ok (operandsOf row.mnemonic cw dw)
  | none => .error (rejectReason cw)

/-- Formats R, P and S: `00000000 00000000 aaaaaaaa 0000 oooo` (30_encoding.md R83). -/
def wordRPS (op : BitVec 4) (a : Byte) : Word := 0#16 ++ a ++ 0#4 ++ op

/-- Format I: `0000mmmm bbbbbbbb aaaaaaaa 0000 oooo` (R83). -/
def wordI (op : BitVec 4) (a b : Byte) (m : BitVec 4) : Word := 0#4 ++ m ++ b ++ a ++ 0#4 ++ op

/-- The command word of an instruction (R83, R84). -/
def encodeCw : Instr → Word
  | .rd idx => wordRPS 0x1#4 idx
  | .wr idx _ => wordRPS 0x2#4 idx
  | .set idx _ => wordRPS 0x3#4 idx
  | .clr idx _ => wordRPS 0x4#4 idx
  | .clkInit src pllSrc mul => wordI 0x8#4 src pllSrc mul
  | .periphEnable id => wordRPS 0x9#4 id
  | .periphReset id => wordRPS 0xA#4 id
  | .prescalerSet sel _ => wordRPS 0xB#4 sel

/-- The data word of an instruction, 0 where its format ignores it (30_encoding.md R81, R87). -/
def encodeDw : Instr → Word
  | .rd _ => 0#32
  | .wr _ value => value
  | .set _ mask => mask
  | .clr _ mask => mask
  | .clkInit _ _ _ => 0#32
  | .periphEnable _ => 0#32
  | .periphReset _ => 0#32
  | .prescalerSet _ divider => divider

/-- The two words of an instruction, the command word first (R80). -/
def encode (i : Instr) : Word × Word := (encodeCw i, encodeDw i)

/-- The command word in the low 32 bits of a table word, the bits above `nbits` being 0. -/
def tableCw (nbits w : Nat) : Word := BitVec.ofNat 32 (w % 2 ^ nbits)

/-- The data word in the next 32 bits of a table word: 0 where the table gives the row no bits for
it, since the bits above `nbits` are 0. -/
def tableDw (nbits w : Nat) : Word := BitVec.ofNat 32 (w % 2 ^ nbits / 2 ^ 32)

/-- What the decoder reads from a table word: CW in bits 31..0 and DW, where `nbits` reaches it, in
bits 63..32. -/
def decodeTableWord (nbits w : Nat) : Option Instr :=
  match decode (tableCw nbits w) (tableDw nbits w) with
  | .ok i => some i
  | .error _ => none

end Sys2Proof
end

