-- ==== Sys2Proof/Machine/Defaults.lean ====
section
/-! DEFINITION. The default value of every parameter of 00_scope.md R9: the register layout of the
STM32F10x RCC that the spec takes by its decisions D2 to D10 and D32, and its default registry. PRESUMED (log 16): the family is the
spec's own general knowledge; unsafe for a claim about another layout. -/

namespace Sys2Proof

/-- The default field positions of CR and CFGR (10_state.md R27, R28). -/
def Layout.default : Layout :=
  { crHsirdy := 1
    crHsical := 8
    crHseon := 16
    crHserdy := 17
    crPllon := 24
    crPllrdy := 25
    cfgrSw := 0
    cfgrSws := 2
    cfgrPllsrc := 16
    cfgrPllmul := 18 }

/-- The default prescaler masks (10_state.md R37). -/
def PrescMasks.default : PrescMasks :=
  { ahb := 0x000000F0#32
    apb1 := 0x00000700#32
    apb2 := 0x00003800#32
    usb := 0x00400000#32
    adc := 0x0000C000#32 }

/-- The default register indices (10_state.md R21). -/
def RegIndices.default : RegIndices :=
  { cr := 0, cfgr := 1, apb2rstr := 3, apb1rstr := 4, ahbenr := 5, apb2enr := 6, apb1enr := 7 }

/-- The default byte offsets, `4 * idx(r)` (00_scope.md R9). -/
def RegOffsets.default : RegOffsets :=
  { cr := 0x00
    cfgr := 0x04
    cir := 0x08
    apb2rstr := 0x0C
    apb1rstr := 0x10
    ahbenr := 0x14
    apb2enr := 0x18
    apb1enr := 0x1C
    bdcr := 0x20
    csr := 0x24 }

/-- The default clock source codes (00_scope.md R9, 10_state.md R29). -/
def ClockCodes.default : ClockCodes :=
  { srcHsi := 0#2, srcHse := 1#2, srcPll := 2#2, pllsrcHsiDiv2 := 0#1, pllsrcHse := 1#1 }

/-- The default registry, identifier by identifier from 0 (10_state.md R33). -/
def defaultRegistry : List PeriphDesc :=
  [ ⟨"GPIOA", .apb2, 2⟩,
    ⟨"GPIOB", .apb2, 3⟩,
    ⟨"GPIOC", .apb2, 4⟩,
    ⟨"GPIOD", .apb2, 5⟩,
    ⟨"AFIO", .apb2, 0⟩,
    ⟨"ADC1", .apb2, 9⟩,
    ⟨"ADC2", .apb2, 10⟩,
    ⟨"USART1", .apb2, 14⟩,
    ⟨"USART2", .apb1, 17⟩,
    ⟨"USART3", .apb1, 18⟩,
    ⟨"TIMER1", .apb2, 11⟩,
    ⟨"TIMER2", .apb1, 0⟩,
    ⟨"TIMER3", .apb1, 1⟩,
    ⟨"TIMER4", .apb1, 2⟩,
    ⟨"SPI1", .apb2, 12⟩,
    ⟨"SPI2", .apb1, 14⟩,
    ⟨"DMA1", .ahb, 0⟩,
    ⟨"PWR", .apb1, 28⟩,
    ⟨"BKP", .apb1, 27⟩,
    ⟨"I2C1", .apb1, 21⟩,
    ⟨"I2C2", .apb1, 22⟩ ]

/-- `MULCODE(m) = m - 2` for m in 2..16, and code 15 also means x16 (00_scope.md R9). -/
def defaultMulCodes : List (Nat × BitVec 4) :=
  ((List.range 15).map fun k => (k + 2, BitVec.ofNat 4 k)) ++ [(16, 15#4)]

/-- The default parameters, with the two launch parameters that have no default (R9, 10_state.md
R43) as arguments. -/
def Config.default (hseWorks pllLocks : Bool) : Config :=
  { rccBase := 0x40021000#32
    nRegIdx := 10
    indices := RegIndices.default
    offsets := RegOffsets.default
    layout := Layout.default
    prescMasks := PrescMasks.default
    codes := ClockCodes.default
    mulCodes := defaultMulCodes
    registry := defaultRegistry
    resetCr := 0x00000083#32
    resetAhbenr := 0x00000014#32
    hseWorks := hseWorks
    pllLocks := pllLocks }

end Sys2Proof
end

