-- ==== Sys2Proof/Machine/State.lean ====
section
/-! DEFINITION. The state of CLKCTL as plain data: the thirteen components of 10_state.md R20, and
beside them the launch configuration and the order in which the agents move. -/

namespace Sys2Proof.Machine

/-- The initializer state (10_state.md R39). -/
inductive Fsm where
  | internalClock
  | cfgPrimed
  | oscEnabling
  | oscReady
  | pllEnabling
  | pllReady
  | switching
  | pllActive
  deriving DecidableEq, Repr

/-- The command in progress (10_state.md R38). DEDUCED (log 9), safe: R38 says five values and names
these four. -/
inductive Op where
  | idle
  | init
  | resetClr
  | prescWr
  deriving DecidableEq, Repr

/-- The agents of 00_scope.md R5, as a trace event names them (10_state.md R41). -/
inductive Agent where
  | host
  | ctrl
  | env
  deriving DecidableEq, Repr

/-- The kinds of trace events (10_state.md R41). -/
inductive EventKind where
  | write
  | set
  | clear
  | status
  deriving DecidableEq, Repr

/-- A trace event: the written value or mask in `operand` (0 for STATUS), and in `value` the
register's stored value after the event (10_state.md R41). -/
structure Event where
  agent : Agent
  reg : Reg
  kind : EventKind
  operand : Word
  value : Word
  deriving DecidableEq, Repr

/-- The causes of a fault (60_exceptions.md R191). A fault of CLKCTL is a state the block enters and
goes on from (R193, R194), so these causes are recorded in the state and NO step of the model
answers `.fault` with one. DEDUCED (log 10), safe. -/
inductive Fault where
  /-- CW matches no opcode row. Raised by HOST's issue (R195); entered, not a stop: safe. -/
  | illegalCommand
  /-- A command other than RD while `op` is not IDLE. Raised by HOST's issue (R195); safe. -/
  | busyViolation
  /-- Register index 10 or above. Raised by RD, WR, SET, CLR (20_memory.md R62); safe. -/
  | badRegister
  /-- Register index 2, 8 or 9. Raised by RD, WR, SET, CLR (20_memory.md R62); safe. -/
  | unmodelledRegister
  /-- A write that the write filter refuses. Raised by every bus write (40_register_access.md R101,
  R103, R104); safe. -/
  | unmodelledWrite
  /-- CLK_INIT for another source or input. Raised by CLK_INIT (41_clock_tree_init.md R121); safe. -/
  | assertClksrc
  /-- CLK_INIT when `fsm` is not INTERNAL_CLOCK. Raised by CLK_INIT (R121); safe. -/
  | initRepeated
  /-- Peripheral identifier out of range. Raised by PERIPH_ENABLE and PERIPH_RESET (10_state.md R35);
  safe. -/
  | assertPeriphId
  /-- PERIPH_RESET in domain AHB. Raised by PERIPH_RESET (42_peripheral_gating.md R161); safe. -/
  | assertNoResetReg
  /-- Prescaler selector 5 or above. Raised by PRESCALER_SET (43_prescaler.md R180); safe. -/
  | assertPrescalerSel
  /-- Divider bits outside the field. Raised by PRESCALER_SET (R180); safe. -/
  | prescalerDividerRange
  deriving DecidableEq, Repr

/-- Why the model has no step. -/
inductive Refusal where
  /-- An instruction without a meaning in this model; no arm of `exec` answers it. Safe. -/
  | notModelled (mnemonic : String)
  /-- The launch configuration is ill-formed: "a model refuses it: it has no meaning, and no run of it
  is admitted" (10_state.md R34). Raised by `step`; safe. -/
  | illFormedConfig
  deriving DecidableEq, Repr

/-- The state. The fields from `reg` to `trace` are the record of 10_state.md R20, under its names.
`cfg` is the launch configuration, which no step changes (70_reset_and_hazards.md R223). `agenda` and
`draws` say who moves next: the turns of `agenda` in order, and when it is empty the free turn of
number `draws`. DESIGN CHOICE (log 1, 2, 4): these three are the model's own fields; safe. -/
structure State where
  reg : RegFile
  fsm : Fsm
  op : Op
  cfgLatch : Word
  rstReg : Reg
  rstMask : Word
  prescVal : Word
  rspData : Word
  faulted : Bool
  faultCode : Byte
  faultCw : Word
  faultDw : Word
  trace : List Event
  cfg : Config
  agenda : List Turn
  draws : Nat
  deriving DecidableEq, Repr

/-- The state that block reset leaves under a configuration, for the calibration byte it draws
(10_state.md R45), with nothing on the agenda. -/
def State.ofReset (cfg : Config) (hsical0 : Byte) : State :=
  { reg := RegFile.reset cfg hsical0
    fsm := .internalClock
    op := .idle
    cfgLatch := 0#32
    rstReg := .apb1rstr
    rstMask := 0#32
    prescVal := 0#32
    rspData := 0#32
    faulted := false
    faultCode := 0#8
    faultCw := 0#32
    faultDw := 0#32
    trace := []
    cfg := cfg
    agenda := []
    draws := 0 }

/-- The machine right after reset, with the default parameters. DESIGN CHOICE (log 5, 6), unsafe: the
launch parameters HSE_WORKS and PLL_LOCKS, which have no default, are true here, and HSICAL0, which
is a draw, is 0. -/
def State.reset : State := State.ofReset (Config.default true true) 0x00#8

end Sys2Proof.Machine
end

