-- ==== Sys2Proof/Machine/Flags.lean ====
section
/-! DEFINITION. The status flags of CLKCTL and its status port (10_state.md R42, R44), the fields of
CR and CFGR by name (R27, R28), and the fault codes (60_exceptions.md R191). There are no condition
codes (R42). -/

namespace Sys2Proof.Machine

/-- The 8-bit code of a fault cause (60_exceptions.md R191); 0x00 means no fault. -/
def Fault.code : Fault → Byte
  | .illegalCommand => 0x01#8
  | .busyViolation => 0x02#8
  | .badRegister => 0x03#8
  | .unmodelledRegister => 0x04#8
  | .unmodelledWrite => 0x05#8
  | .assertClksrc => 0x06#8
  | .initRepeated => 0x07#8
  | .assertPeriphId => 0x08#8
  | .assertNoResetReg => 0x09#8
  | .assertPrescalerSel => 0x0A#8
  | .prescalerDividerRange => 0x0B#8

/-- CR.HSIRDY (10_state.md R27). -/
def State.hsirdy (s : State) : Bool := flag s.cfg.layout.crHsirdy s.reg.cr

/-- CR.HSEON (R27). -/
def State.hseon (s : State) : Bool := flag s.cfg.layout.crHseon s.reg.cr

/-- CR.HSERDY (R27). -/
def State.hserdy (s : State) : Bool := flag s.cfg.layout.crHserdy s.reg.cr

/-- CR.PLLON (R27). -/
def State.pllon (s : State) : Bool := flag s.cfg.layout.crPllon s.reg.cr

/-- CR.PLLRDY (R27). -/
def State.pllrdy (s : State) : Bool := flag s.cfg.layout.crPllrdy s.reg.cr

/-- CFGR.SW, the system-clock-source selector (10_state.md R28). -/
def State.sw (s : State) : BitVec 2 := getField s.cfg.layout.cfgrSw 2 s.reg.cfgr

/-- CFGR.SWS, the system-clock-switched status and so the real clock source (R28,
41_clock_tree_init.md R138). -/
def State.sws (s : State) : BitVec 2 := getField s.cfg.layout.cfgrSws 2 s.reg.cfgr

/-- CFGR.PLLSRC (R28). -/
def State.pllsrc (s : State) : BitVec 1 := getField s.cfg.layout.cfgrPllsrc 1 s.reg.cfgr

/-- CFGR.PLLMUL (R28). -/
def State.pllmul (s : State) : BitVec 4 := getField s.cfg.layout.cfgrPllmul 4 s.reg.cfgr

/-- `busy = (op != IDLE) and not faulted` (10_state.md R42). -/
def State.busy (s : State) : Bool := s.op != .idle && !s.faulted

/-- What the status port gives, without a step (10_state.md R44). -/
structure StatusPort where
  busy : Bool
  faulted : Bool
  faultCode : Byte
  faultCw : Word
  faultDw : Word
  rspData : Word
  deriving DecidableEq, Repr

/-- The status port of a state (R44). -/
def State.statusPort (s : State) : StatusPort :=
  { busy := s.busy
    faulted := s.faulted
    faultCode := s.faultCode
    faultCw := s.faultCw
    faultDw := s.faultDw
    rspData := s.rspData }

end Sys2Proof.Machine
end

