-- ==== Sys2Proof/Machine/Operands.lean ====
section
/-! DEFINITION. The operand forms of the commands: a register index (20_memory.md R62), a peripheral
identifier (10_state.md R35), a prescaler selector (10_state.md R37) and a clock request
(41_clock_tree_init.md R121), each with the fault that an operand out of range raises. -/

namespace Sys2Proof.Machine

/-- `raise Fault(code, info)` before it is entered: the cause and the recorded information
(00_scope.md R11, 60_exceptions.md R192). -/
structure Raised where
  cause : Fault
  info : Word
  deriving DecidableEq, Repr

/-- The register of the given index, if it is one of the seven in scope (10_state.md R21). -/
def regOfIndex (c : Config) (idx : Nat) : Option Reg := Reg.all.find? fun r => c.index r == idx

/-- `CheckReg(idx)` (20_memory.md R62). With the default indices the unmodelled slots are 2, 8 and 9.
DEDUCED (log 8), safe: under other indices the unmodelled slots are the window's slots that no
register has. -/
def checkReg (c : Config) (idx : Byte) : Except Raised Reg :=
  match regOfIndex c idx.toNat with
  | some r => .ok r
  | none =>
    if idx.toNat < c.nRegIdx then .error ⟨.unmodelledRegister, idx.setWidth 32⟩
    else .error ⟨.badRegister, idx.setWidth 32⟩

/-- `Lookup(id)` (10_state.md R35). -/
def lookup (c : Config) (id : Byte) : Except Raised PeriphDesc :=
  match c.registry[id.toNat]? with
  | some p => .ok p
  | none => .error ⟨.assertPeriphId, id.setWidth 32⟩

/-- The selector of a code, one of five (10_state.md R37). -/
def prescSelOfCode : Nat → Option PrescSel
  | 0 => some .ahb
  | 1 => some .apb1
  | 2 => some .apb2
  | 3 => some .usb
  | 4 => some .adc
  | _ => none

/-- The selector operand of PRESCALER_SET: a code of 5 or above faults (10_state.md R37). -/
def checkSel (sel : Byte) : Except Raised PrescSel :=
  match prescSelOfCode sel.toNat with
  | some p => .ok p
  | none => .error ⟨.assertPrescalerSel, sel.setWidth 32⟩

/-- The request is PLL fed by the external oscillator. A and B are compared as whole bytes
(41_clock_tree_init.md R121). -/
def clockRequestOk (c : Config) (src pllSrc : Byte) : Bool :=
  src == c.codes.srcPll.setWidth 8 && pllSrc == c.codes.pllsrcHse.setWidth 8

end Sys2Proof.Machine
end

