-- ==== Sys2Proof/Machine/Ops.lean ====
section
/-! DEFINITION. The operations every meaning is made of: the four bus micro-operations with the write
filter (40_register_access.md R100 to R105), fault entry (60_exceptions.md R193), the acceptance of a
command with its pre-checks (R194, R195), and block reset (70_reset_and_hazards.md R220). -/

namespace Sys2Proof.Machine

/-- The body of a step: the state it leaves, or the fault it raises with no other effect
(00_scope.md R11). -/
abbrev Result := Except Raised State

/-- `BusRead(r)`: the stored word, with no side effect (40_register_access.md R102). -/
def busRead (r : Reg) (s : State) : Word := s.reg.get r

/-- `trace <- trace ++ [e]` (10_state.md R41). -/
def State.log (s : State) (e : Event) : State := { s with trace := s.trace ++ [e] }

/-- `reg[r] <- v` (00_scope.md R11). -/
def State.setReg (s : State) (r : Reg) (v : Word) : State := { s with reg := s.reg.set r v }

/-- The first check of the write filter: the write would change a bit of class U (R101). -/
def changesUnmodelled (c : Config) (r : Reg) (old v : Word) : Bool := ((v ^^^ old) &&& c.un r) != 0#32

/-- `CheckCR` refuses: HSEON or PLLON would go from 1 to 0 (40_register_access.md R103). -/
def stopsClock (l : Layout) (old v : Word) : Bool :=
  (flag l.crHseon old && !flag l.crHseon v) || (flag l.crPllon old && !flag l.crPllon v)

/-- `CheckCFGR` refuses: SW would be 11, or PLLSRC or PLLMUL would change while PLLON = 1
(40_register_access.md R104). -/
def badClockConfig (l : Layout) (cr old v : Word) : Bool :=
  getField l.cfgrSw 2 v == 3#2 ||
    (flag l.crPllon cr &&
      (getField l.cfgrPllsrc 1 v != getField l.cfgrPllsrc 1 old ||
        getField l.cfgrPllmul 4 v != getField l.cfgrPllmul 4 old))

/-- The write filter refuses the value: the U check, then the check of CR or CFGR (R101, R103, R104).
All of them raise the same fault with the same information (60_exceptions.md R196). -/
def writeRefused (s : State) (r : Reg) (v : Word) : Bool :=
  changesUnmodelled s.cfg r (s.reg.get r) v ||
    match r with
    | .cr => stopsClock s.cfg.layout s.reg.cr v
    | .cfgr => badClockConfig s.cfg.layout s.reg.cr s.reg.cfgr v
    | .apb2rstr => false
    | .apb1rstr => false
    | .ahbenr => false
    | .apb2enr => false
    | .apb1enr => false

/-- The value that a bus write of `v` stores: WM bits from `v`, the others kept (R101). -/
def filtered (c : Config) (r : Reg) (old v : Word) : Word := (old &&& ~~~ c.wm r) ||| (v &&& c.wm r)

/-- `BusWrite(a, r, v, kind, operand)`, the write filter (40_register_access.md R101). -/
def busWrite (a : Agent) (r : Reg) (v : Word) (kind : EventKind) (operand : Word) (s : State) : Result :=
  if writeRefused s r v then .error ⟨.unmodelledWrite, v⟩
  else
    .ok ((s.setReg r (filtered s.cfg r (s.reg.get r) v)).log
      ⟨a, r, kind, operand, filtered s.cfg r (s.reg.get r) v⟩)

/-- `BusSet(a, r, m)` (40_register_access.md R105). -/
def busSet (a : Agent) (r : Reg) (m : Word) (s : State) : Result :=
  busWrite a r (s.reg.get r ||| m) .set m s

/-- `BusClear(a, r, m)` (R105). -/
def busClear (a : Agent) (r : Reg) (m : Word) (s : State) : Result :=
  busWrite a r (s.reg.get r &&& ~~~ m) .clear m s

/-- Fault entry: the fault record is written and nothing else changes (60_exceptions.md R193).
`cw` is the command word of the acceptance step that raised it, or 0 for a CTRL step (R192). -/
def faultEntry (cw : Word) (f : Raised) (s : State) : State :=
  { s with faulted := true, faultCode := f.cause.code, faultCw := cw, faultDw := f.info }

/-- The end of a step that began in `s`: its result, or fault entry from `s` (R193). -/
def settle (cw : Word) (result : Result) (s : State) : State :=
  match result with
  | .ok t => t
  | .error f => faultEntry cw f s

/-- HOST issues a command other than RD: no effect while faulted, BUSY_VIOLATION while a command is
in progress, else the acceptance step (60_exceptions.md R194, R195). DEDUCED (log 13), safe: each meaning
holds these checks, and `cw` is its command's encoding. -/
def accept (cw : Word) (body : State → Result) (s : State) :
    Host.Outcome State Fault Refusal :=
  if s.faulted then .next s
  else if s.op ≠ .idle then .next (faultEntry cw ⟨.busyViolation, cw⟩ s)
  else .next (settle cw (body s) s)

/-- HOST issues RD: allowed while busy; while faulted a bad register is no second fault but no effect
(R194, R195, 40_register_access.md R106). -/
def acceptRead (cw : Word) (body : State → Result) (s : State) :
    Host.Outcome State Fault Refusal :=
  if s.faulted then
    match body s with
    | .ok t => .next t
    | .error _ => .next s
  else .next (settle cw (body s) s)

/-- HOST issues a command word that no row matches: no effect while faulted, else ILLEGAL_COMMAND
(60_exceptions.md R194, R195, 30_encoding.md R85). -/
def rejectIllegal (cw : Word) (s : State) : State :=
  if s.faulted then s else faultEntry cw ⟨.illegalCommand, cw⟩ s

/-- Block reset: every component of R20's record gets its reset value, with the calibration byte this
reset draws. The launch configuration survives (70_reset_and_hazards.md R220, R223), and the turns
still to come are not state of the block. -/
def blockReset (hsical0 : Byte) (s : State) : State :=
  { State.ofReset s.cfg hsical0 with agenda := s.agenda, draws := s.draws }

end Sys2Proof.Machine
end

