-- ==== Sys2Proof/Machine/ClockHardware.lean ====
section
/-! DEFINITION. ENV, the clock hardware: its three steps, each enabled by its condition alone whether
or not the block is faulted (41_clock_tree_init.md R130 to R133, R140). The codes are the parameters of
R9 (log 17). -/

namespace Sys2Proof.Machine

/-- HSE_START is enabled (R130). -/
def hseStartEnabled (s : State) : Bool := s.cfg.hseWorks && s.hseon && !s.hserdy

/-- The PLL input is ready: HSE if PLLSRC selects it, else HSI (R131). -/
def pllInputReady (s : State) : Bool :=
  if s.pllsrc = s.cfg.codes.pllsrcHse then s.hserdy else s.hsirdy

/-- PLL_LOCK is enabled (R131). -/
def pllLockEnabled (s : State) : Bool := s.cfg.pllLocks && s.pllon && !s.pllrdy && pllInputReady s

/-- `SourceReady(code)` (R133). DESIGN CHOICE (log 11), safe: a code that is none of the three sources
is not ready; no write can store one (40_register_access.md R104). -/
def sourceReady (s : State) (code : BitVec 2) : Bool :=
  if code = s.cfg.codes.srcHsi then s.hsirdy
  else if code = s.cfg.codes.srcHse then s.hserdy
  else if code = s.cfg.codes.srcPll then s.pllrdy
  else false

/-- CLOCK_SWITCH is enabled (R132). -/
def clockSwitchEnabled (s : State) : Bool := s.sws != s.sw && sourceReady s s.sw

/-- A step of the given kind is enabled (R130 to R132). -/
def envEnabled (kind : EnvKind) (s : State) : Bool :=
  match kind with
  | .hseStart => hseStartEnabled s
  | .pllLock => pllLockEnabled s
  | .clockSwitch => clockSwitchEnabled s

/-- ENV stores `v` in register `r` and appends its STATUS event (R140). -/
def envStore (r : Reg) (v : Word) (s : State) : State := (s.setReg r v).log ⟨.env, r, .status, 0#32, v⟩

/-- The effect of an enabled step (R130 to R132). -/
def envEffect (kind : EnvKind) (s : State) : State :=
  match kind with
  | .hseStart => envStore .cr (s.reg.cr ||| s.cfg.hserdyMask) s
  | .pllLock => envStore .cr (s.reg.cr ||| s.cfg.pllrdyMask) s
  | .clockSwitch => envStore .cfgr (putField s.cfg.layout.cfgrSws s.sw s.reg.cfgr) s

/-- The turn of ENV for one kind. DESIGN CHOICE (log 3), safe: where the step is not enabled the turn
passes with no change. -/
def envTurn (kind : EnvKind) (s : State) : State := if envEnabled kind s then envEffect kind s else s

end Sys2Proof.Machine
end

