-- ==== Sys2Proof/Machine/ClockTree.lean ====
section
/-! DEFINITION. CLK_INIT and the CTRL steps of the clock-tree initializer (41_clock_tree_init.md R120
to R129). -/

namespace Sys2Proof.Machine

/-- `Compose(pll_src, mul)`, the step-1 value: bit 0 of the PLL input code at PLLSRC, the multiplier
code at PLLMUL, every other bit 0 (41_clock_tree_init.md R122). -/
def compose (l : Layout) (pllSrc : Byte) (mul : BitVec 4) : Word :=
  placeField l.cfgrPllsrc (pllSrc.extractLsb' 0 1) ||| placeField l.cfgrPllmul mul

/-- CLK_INIT's acceptance step: the two checks in their order, then step 1 (R121). -/
def clkInitBody (src pllSrc : Byte) (mul : BitVec 4) (s : State) : Result :=
  if !clockRequestOk s.cfg src pllSrc then .error ⟨.assertClksrc, encodeCw (.clkInit src pllSrc mul)⟩
  else if s.fsm ≠ .internalClock then .error ⟨.initRepeated, encodeCw (.clkInit src pllSrc mul)⟩
  else
    match busWrite .ctrl .cfgr (compose s.cfg.layout pllSrc mul) .write
        (compose s.cfg.layout pllSrc mul) s with
    | .error f => .error f
    | .ok t => .ok { t with cfgLatch := compose s.cfg.layout pllSrc mul, op := .init, fsm := .cfgPrimed }

/-- CLK_INIT (R121). -/
def execClkInit (src pllSrc : Byte) (mul : BitVec 4) (s : State) : Host.Outcome State Fault Refusal :=
  accept (encodeCw (.clkInit src pllSrc mul)) (clkInitBody src pllSrc mul) s

/-- CTRL at CFG_PRIMED: set HSEON (R123). -/
def initEnableOsc (s : State) : Result :=
  match busSet .ctrl .cr s.cfg.hseonMask s with
  | .error f => .error f
  | .ok t => .ok { t with fsm := .oscEnabling }

/-- CTRL at OSC_ENABLING: poll HSERDY (R124). -/
def initPollOsc (s : State) : Result :=
  if flag s.cfg.layout.crHserdy (busRead .cr s) then .ok { s with fsm := .oscReady } else .ok s

/-- CTRL at OSC_READY: set PLLON (R125). -/
def initEnablePll (s : State) : Result :=
  match busSet .ctrl .cr s.cfg.pllonMask s with
  | .error f => .error f
  | .ok t => .ok { t with fsm := .pllEnabling }

/-- CTRL at PLL_ENABLING: poll PLLRDY (R126). -/
def initPollPll (s : State) : Result :=
  if flag s.cfg.layout.crPllrdy (busRead .cr s) then .ok { s with fsm := .pllReady } else .ok s

/-- The step-4 value, built from the step-1 latch: `(cfg_latch & ~SW) | SRC_PLL` (R127). DEDUCED
(log 17), safe: R127's literals are SW's mask and the code SRC_PLL of the default layout. -/
def switchValue (c : Config) (latch : Word) : Word :=
  (latch &&& ~~~ c.swMask) ||| placeField c.layout.cfgrSw c.codes.srcPll

/-- CTRL at PLL_READY: write the switch to PLL (R127). -/
def initSwitch (s : State) : Result :=
  match busWrite .ctrl .cfgr (switchValue s.cfg s.cfgLatch) .write (switchValue s.cfg s.cfgLatch) s with
  | .error f => .error f
  | .ok t => .ok { t with fsm := .switching }

/-- CTRL at SWITCHING: poll SWS, and end the command when it reads PLL (R128). -/
def initPollSwitch (s : State) : Result :=
  if getField s.cfg.layout.cfgrSws 2 (busRead .cfgr s) = s.cfg.codes.srcPll then
    .ok { s with fsm := .pllActive, op := .idle }
  else .ok s

/-- The CTRL step of the initializer at the current `fsm` (R120). At INTERNAL_CLOCK and PLL_ACTIVE the
table has no CTRL row (R129), and R46 keeps `op` from being INIT there. DEDUCED (log 12), safe: the
step leaves the state as it is. -/
def ctrlInit (s : State) : Result :=
  match s.fsm with
  | .internalClock => .ok s
  | .cfgPrimed => initEnableOsc s
  | .oscEnabling => initPollOsc s
  | .oscReady => initEnablePll s
  | .pllEnabling => initPollPll s
  | .pllReady => initSwitch s
  | .switching => initPollSwitch s
  | .pllActive => .ok s

end Sys2Proof.Machine
end

