-- ==== Sys2Proof/Machine/PeripheralGating.lean ====
section
/-! DEFINITION. PERIPH_ENABLE, PERIPH_RESET and the CTRL step that ends the reset pulse
(42_peripheral_gating.md R160 to R162). What the gating or the reset does to the peripheral is
outside the block (R164, log 21). -/

namespace Sys2Proof.Machine

/-- PERIPH_ENABLE's acceptance step (R160). -/
def periphEnableBody (id : Byte) (s : State) : Result :=
  match lookup s.cfg id with
  | .error f => .error f
  | .ok p => busSet .ctrl p.domain.enableReg (bit p.line) s

/-- PERIPH_ENABLE (R160). -/
def execPeriphEnable (id : Byte) (s : State) : Host.Outcome State Fault Refusal :=
  accept (encodeCw (.periphEnable id)) (periphEnableBody id) s

/-- PERIPH_RESET's acceptance step: both checks, then the set half of the pulse (R161). -/
def periphResetBody (id : Byte) (s : State) : Result :=
  match lookup s.cfg id with
  | .error f => .error f
  | .ok p =>
    match p.domain.resetReg with
    | none => .error ⟨.assertNoResetReg, id.setWidth 32⟩
    | some r =>
      match busSet .ctrl r (bit p.line) s with
      | .error f => .error f
      | .ok t => .ok { t with rstReg := r, rstMask := bit p.line, op := .resetClr }

/-- PERIPH_RESET (R161). -/
def execPeriphReset (id : Byte) (s : State) : Host.Outcome State Fault Refusal :=
  accept (encodeCw (.periphReset id)) (periphResetBody id) s

/-- CTRL at `op = RESET_CLR`: the clear half of the pulse (R162). -/
def ctrlResetClear (s : State) : Result :=
  match busClear .ctrl s.rstReg s.rstMask s with
  | .error f => .error f
  | .ok t => .ok { t with op := .idle }

end Sys2Proof.Machine
end

