-- ==== Sys2Proof/Machine/Prescaler.lean ====
section
/-! DEFINITION. PRESCALER_SET and the CTRL step that writes its value: a non-atomic read-modify-write
of CFGR in two steps (43_prescaler.md R180 to R182). -/

namespace Sys2Proof.Machine

/-- PRESCALER_SET's acceptance step: both checks, then the read half (R180). -/
def prescalerBody (sel : Byte) (divider : Word) (s : State) : Result :=
  match checkSel sel with
  | .error f => .error f
  | .ok p =>
    if divider &&& ~~~ s.cfg.prescMask p ≠ 0#32 then .error ⟨.prescalerDividerRange, divider⟩
    else
      .ok { s with prescVal := (busRead .cfgr s &&& ~~~ s.cfg.prescMask p) ||| divider, op := .prescWr }

/-- PRESCALER_SET (R180). -/
def execPrescalerSet (sel : Byte) (divider : Word) (s : State) : Host.Outcome State Fault Refusal :=
  accept (encodeCw (.prescalerSet sel divider)) (prescalerBody sel divider) s

/-- CTRL at `op = PRESC_WR`: the write half (R181). -/
def ctrlPrescalerWrite (s : State) : Result :=
  match busWrite .ctrl .cfgr s.prescVal .write s.prescVal s with
  | .error f => .error f
  | .ok t => .ok { t with op := .idle }

end Sys2Proof.Machine
end

