-- ==== Sys2Proof/Machine/RegisterAccess.lean ====
section
/-! DEFINITION. RD, WR, SET and CLR, the four primitives as HOST commands (40_register_access.md R106
to R109). None has a CTRL step, and each leaves `op` unchanged. -/

namespace Sys2Proof.Machine

/-- RD's acceptance step: `r <- CheckReg(A); rsp_data <- BusRead(r)` (R106). -/
def readBody (idx : Byte) (s : State) : Result :=
  match checkReg s.cfg idx with
  | .error f => .error f
  | .ok r => .ok { s with rspData := busRead r s }

/-- RD (R106). -/
def execRd (idx : Byte) (s : State) : Host.Outcome State Fault Refusal :=
  acceptRead (encodeCw (.rd idx)) (readBody idx) s

/-- WR's acceptance step: `r <- CheckReg(A); BusWrite(HOST, r, DW, WRITE, DW)` (R107). -/
def writeBody (idx : Byte) (value : Word) (s : State) : Result :=
  match checkReg s.cfg idx with
  | .error f => .error f
  | .ok r => busWrite .host r value .write value s

/-- WR (R107). -/
def execWr (idx : Byte) (value : Word) (s : State) : Host.Outcome State Fault Refusal :=
  accept (encodeCw (.wr idx value)) (writeBody idx value) s

/-- SET's acceptance step: `r <- CheckReg(A); BusSet(HOST, r, DW)` (R108). -/
def setBody (idx : Byte) (mask : Word) (s : State) : Result :=
  match checkReg s.cfg idx with
  | .error f => .error f
  | .ok r => busSet .host r mask s

/-- SET (R108). -/
def execSet (idx : Byte) (mask : Word) (s : State) : Host.Outcome State Fault Refusal :=
  accept (encodeCw (.set idx mask)) (setBody idx mask) s

/-- CLR's acceptance step: `r <- CheckReg(A); BusClear(HOST, r, DW)` (R109). -/
def clearBody (idx : Byte) (mask : Word) (s : State) : Result :=
  match checkReg s.cfg idx with
  | .error f => .error f
  | .ok r => busClear .host r mask s

/-- CLR (R109). -/
def execClr (idx : Byte) (mask : Word) (s : State) : Host.Outcome State Fault Refusal :=
  accept (encodeCw (.clr idx mask)) (clearBody idx mask) s

end Sys2Proof.Machine
end

