-- ==== Sys2Proof/Machine/Dispatch.lean ====
section
/-! DEFINITION. One meaning for each command: HOST's issue of a decoded command, with the pre-checks
of 60_exceptions.md R195 in each meaning. -/

namespace Sys2Proof.Machine

def exec (i : Instr) (s : State) : Host.Outcome State Fault Refusal :=
  match i with
  | .rd idx => Sys2Proof.Machine.execRd idx s
  | .wr idx value => Sys2Proof.Machine.execWr idx value s
  | .set idx mask => Sys2Proof.Machine.execSet idx mask s
  | .clr idx mask => Sys2Proof.Machine.execClr idx mask s
  | .clkInit src pllSrc mul => Sys2Proof.Machine.execClkInit src pllSrc mul s
  | .periphEnable id => Sys2Proof.Machine.execPeriphEnable id s
  | .periphReset id => Sys2Proof.Machine.execPeriphReset id s
  | .prescalerSet sel divider => Sys2Proof.Machine.execPrescalerSet sel divider s

end Sys2Proof.Machine
end

