-- ==== Sys2Proof/Machine/Turn.lean ====
section
/-! DEFINITION. One turn of one agent: HOST's issue of a command (60_exceptions.md R195), CTRL's step
(41_clock_tree_init.md R120, 42_peripheral_gating.md R162, 43_prescaler.md R181), an ENV step, or
block reset. -/

namespace Sys2Proof.Machine

/-- `Issue(CW, DW)` (60_exceptions.md R195). -/
def hostIssue (cw dw : Word) (s : State) : Host.Outcome State Fault Refusal :=
  match decode cw dw with
  | .ok i => exec i s
  | .error _ => .next (rejectIllegal cw s)

/-- CTRL has a step: a command is in progress and the block is not faulted (R120, 60_exceptions.md
R194). -/
def ctrlEnabled (s : State) : Bool :=
  !s.faulted &&
    match s.op with
    | .idle => false
    | .init => s.fsm != .internalClock && s.fsm != .pllActive
    | .resetClr => true
    | .prescWr => true

/-- What CTRL's step does, by the command in progress (10_state.md R23, R38). -/
def ctrlBody (s : State) : Result :=
  match s.op with
  | .idle => .ok s
  | .init => ctrlInit s
  | .resetClr => ctrlResetClear s
  | .prescWr => ctrlPrescalerWrite s

/-- The turn of CTRL. A fault of a CTRL step records 0 as its command word (60_exceptions.md R192).
DESIGN CHOICE (log 3), safe: where CTRL has no step the turn passes with no change. -/
def ctrlTurn (s : State) : State := if ctrlEnabled s then settle 0#32 (ctrlBody s) s else s

/-- One turn (00_scope.md R5). -/
def takeTurn (t : Turn) (s : State) : Host.Outcome State Fault Refusal :=
  match t with
  | .host cw dw => hostIssue cw dw s
  | .ctrl => .next (ctrlTurn s)
  | .env kind => .next (envTurn kind s)
  | .blockReset hsical0 => .next (blockReset hsical0 s)

/-- Who moves next: the first turn of the agenda, or when it is empty the free turn of the next draw
(log 1, 2). -/
def nextTurn (s : State) : Turn :=
  match s.agenda with
  | t :: _ => t
  | [] => Config.freeTurn s.draws

/-- The state after the choice of who moves next and before the turn: the choice is used up. -/
def afterChoice (s : State) : State :=
  match s.agenda with
  | _ :: rest => { s with agenda := rest }
  | [] => { s with draws := s.draws + 1 }

end Sys2Proof.Machine
end

