-- ==== Sys2Proof/Machine/Step.lean ====
section
/-! DEFINITION. One step of the machine, and how a command is placed where the next step takes it. -/

namespace Sys2Proof.Machine

/-- One step: the next agent takes its turn (00_scope.md R5, 20_memory.md R68). An ill-formed
configuration has no run (10_state.md R34). -/
def step (s : State) : Host.Outcome State Fault Refusal :=
  if s.cfg.wf then takeTurn (nextTurn s) (afterChoice s) else .refused .illFormedConfig

/-- HOST delivers the command as the very next turn: the command port is where this machine gets its
commands, since it fetches none from memory (20_memory.md R73). DESIGN CHOICE (log 20), safe. -/
def State.withFetchWord (s : State) (nbits w : Nat) : State :=
  { s with agenda := .host (tableCw nbits w) (tableDw nbits w) :: s.agenda }

end Sys2Proof.Machine
end

