-- ==== Sys2Proof/Machine/Assembler.lean ====
section
/-! DEFINITION. The assembler of 30_encoding.md R87 to R89: from a line to its command (CW, DW), or
none for an assembly error; and from the line's text to the line. -/

namespace Sys2Proof

/-- The name of a register (10_state.md R21). -/
def Reg.name : Reg → String
  | .cr => "CR"
  | .cfgr => "CFGR"
  | .apb2rstr => "APB2RSTR"
  | .apb1rstr => "APB1RSTR"
  | .ahbenr => "AHBENR"
  | .apb2enr => "APB2ENR"
  | .apb1enr => "APB1ENR"

/-- The divider symbols (30_encoding.md R88), each a pattern at its field's position in CFGR. DESIGN CHOICE
(log 24), safe: the values are R88's, those of the default layout, under every configuration. -/
def dividerSymbols : List (String × Word) :=
  [ ("AHB_DIV1", 0x00000000#32),
    ("AHB_DIV2", 0x00000080#32),
    ("AHB_DIV4", 0x00000090#32),
    ("AHB_DIV8", 0x000000A0#32),
    ("AHB_DIV16", 0x000000B0#32),
    ("AHB_DIV64", 0x000000C0#32),
    ("AHB_DIV128", 0x000000D0#32),
    ("AHB_DIV256", 0x000000E0#32),
    ("AHB_DIV512", 0x000000F0#32),
    ("APB1_DIV1", 0x00000000#32),
    ("APB1_DIV2", 0x00000400#32),
    ("APB1_DIV4", 0x00000500#32),
    ("APB1_DIV8", 0x00000600#32),
    ("APB1_DIV16", 0x00000700#32),
    ("APB2_DIV1", 0x00000000#32),
    ("APB2_DIV2", 0x00002000#32),
    ("APB2_DIV4", 0x00002800#32),
    ("APB2_DIV8", 0x00003000#32),
    ("APB2_DIV16", 0x00003800#32),
    ("ADC_DIV2", 0x00000000#32),
    ("ADC_DIV4", 0x00004000#32),
    ("ADC_DIV6", 0x00008000#32),
    ("ADC_DIV8", 0x0000C000#32),
    ("USB_DIV1_5", 0x00000000#32),
    ("USB_DIV1", 0x00400000#32) ]

/-- The 8-bit operand of a register (R87). -/
def AsmReg.operand (c : Config) : AsmReg → Byte
  | .name r => BitVec.ofNat 8 (c.index r)
  | .code n => BitVec.ofNat 8 n

/-- The 8-bit operand of a clock source (R87). -/
def AsmSrc.operand (c : Config) : AsmSrc → Byte
  | .hsi => c.codes.srcHsi.setWidth 8
  | .hse => c.codes.srcHse.setWidth 8
  | .pll => c.codes.srcPll.setWidth 8
  | .code n => BitVec.ofNat 8 n

/-- The 8-bit operand of a PLL input (R87). -/
def AsmPllSrc.operand (c : Config) : AsmPllSrc → Byte
  | .hsiDiv2 => c.codes.pllsrcHsiDiv2.setWidth 8
  | .hse => c.codes.pllsrcHse.setWidth 8
  | .code n => BitVec.ofNat 8 n

/-- The 4-bit code of a multiplier: `MULCODE(m)`, or the code given (R87). -/
def AsmMul.operand (c : Config) : AsmMul → Option (BitVec 4)
  | .times m => c.mulCode m
  | .code k => some (BitVec.ofNat 4 k)

/-- The identifier of a peripheral's name, if the registry has it (R87, R89). DESIGN CHOICE (log 25), safe:
a name that the registry holds more than once means its lowest identifier. -/
def periphIdOf (c : Config) (name : String) : Option Nat := c.registry.findIdx? fun p => p.name == name

/-- The identifier that a peripheral operand names (R87, R89). -/
def AsmPeriph.id (c : Config) : AsmPeriph → Option Nat
  | .name p => periphIdOf c p
  | .code n => some n

/-- The 8-bit operand of a peripheral (R87): none for an identifier that the field cannot hold. -/
def AsmPeriph.operand (c : Config) (p : AsmPeriph) : Option Byte :=
  (p.id c).bind fun id => if id < 256 then some (BitVec.ofNat 8 id) else none

/-- The 8-bit operand of a prescaler selector (R87). -/
def AsmSel.operand : AsmSel → Byte
  | .name s => BitVec.ofNat 8 s.code
  | .code n => BitVec.ofNat 8 n

/-- The DW of a divider: a symbol's value or the number given. It is not checked against the selector
(R88). -/
def AsmDiv.operand : AsmDiv → Option Word
  | .symbol d => (dividerSymbols.find? fun p => p.1 == d).map Prod.snd
  | .imm v => some (BitVec.ofNat 32 v)

/-- `PERIPH_DISABLE <periph>` is `CLR ENABLE_REG(d), (1 << line)`, and an identifier that the registry
does not have is an assembly error (30_encoding.md R89). -/
def expandDisable (c : Config) (id : Nat) : Option Instr :=
  match c.registry[id]? with
  | some p => some (.clr (BitVec.ofNat 8 (c.index p.domain.enableReg)) (bit p.line))
  | none => none

/-- The instruction of a line whose numbers are in range (R87, R89). -/
def AsmLine.instr (c : Config) : AsmLine → Option Instr
  | .rd r => some (.rd (r.operand c))
  | .wr r v => some (.wr (r.operand c) (BitVec.ofNat 32 v))
  | .set r v => some (.set (r.operand c) (BitVec.ofNat 32 v))
  | .clr r v => some (.clr (r.operand c) (BitVec.ofNat 32 v))
  | .clkInit s p m => (m.operand c).map fun k => .clkInit (s.operand c) (p.operand c) k
  | .periphEnable p => (p.operand c).map .periphEnable
  | .periphReset p => (p.operand c).map .periphReset
  | .prescalerSet s d => d.operand.map fun v => .prescalerSet s.operand v
  | .periphDisable p => (p.id c).bind (expandDisable c)

/-- The command words of a line, or none for an assembly error (R87, R89). -/
def assemble (c : Config) (line : AsmLine) : Option (Word × Word) :=
  if line.wf then (line.instr c).map encode else none

/-- The value of a digit in the given base, 10 or 16. DESIGN CHOICE (log 18), safe: hexadecimal digits in
either case. -/
def digitValue (base : Nat) (ch : Char) : Option Nat :=
  let v :=
    if '0' ≤ ch ∧ ch ≤ '9' then ch.toNat - '0'.toNat
    else if 'a' ≤ ch ∧ ch ≤ 'f' then ch.toNat - 'a'.toNat + 10
    else if 'A' ≤ ch ∧ ch ≤ 'F' then ch.toNat - 'A'.toNat + 10
    else base
  if v < base then some v else none

/-- The number of a list of digits read after the number `acc` of the digits before them. DESIGN CHOICE
(log 18), safe: the digit separator `_` of 00_scope.md R10 may stand between two digits, one at a time,
in either base. -/
def digits (base acc : Nat) : List Char → Option Nat
  | [] => some acc
  | '_' :: ch :: cs => (digitValue base ch).bind fun d => digits base (acc * base + d) cs
  | ch :: cs => (digitValue base ch).bind fun d => digits base (acc * base + d) cs

/-- A number in decimal or `0x` hexadecimal (R87): it begins with a digit. DESIGN CHOICE (log 18), safe:
every number of a line may take either form, the `n` and `k` of `#n`, `#k` and `MUL<m>` too, and leading
zeros change nothing. -/
def parseNat : List Char → Option Nat
  | '0' :: 'x' :: d :: cs => (digitValue 16 d).bind fun v => digits 16 v cs
  | d :: cs => (digitValue 10 d).bind fun v => digits 10 v cs
  | [] => none

/-- `#n`. -/
def parseCode : List Char → Option Nat
  | '#' :: cs => parseNat cs
  | _ => none

/-- `<reg>`: a register name or a code (R87). DESIGN CHOICE (log 23), safe: the names are those of the seven
registers in scope, so CIR, BDCR and CSR are written `#2`, `#8` and `#9`. -/
def parseReg (t : List Char) : Option AsmReg :=
  match Reg.all.find? fun r => r.name.toList == t with
  | some r => some (.name r)
  | none => (parseCode t).map .code

/-- `<src>` (R87). -/
def parseSrc (t : List Char) : Option AsmSrc :=
  if t = "HSI".toList then some .hsi
  else if t = "HSE".toList then some .hse
  else if t = "PLL".toList then some .pll
  else (parseCode t).map .code

/-- `<pllsrc>` (R87). -/
def parsePllSrc (t : List Char) : Option AsmPllSrc :=
  if t = "HSI_DIV2".toList then some .hsiDiv2
  else if t = "HSE".toList then some .hse
  else (parseCode t).map .code

/-- `MUL<m>` or `#k` (R87). -/
def parseMul : List Char → Option AsmMul
  | 'M' :: 'U' :: 'L' :: cs => (parseNat cs).map .times
  | cs => (parseCode cs).map .code

/-- `<periph>`: a code, else a name (R87), which the registry may not have. -/
def parsePeriph (t : List Char) : Option AsmPeriph :=
  match t with
  | '#' :: cs => (parseNat cs).map .code
  | _ => some (.name (String.ofList t))

/-- `<sel>` (R87). -/
def parseSel (t : List Char) : Option AsmSel :=
  if t = "AHB".toList then some (.name .ahb)
  else if t = "APB1".toList then some (.name .apb1)
  else if t = "APB2".toList then some (.name .apb2)
  else if t = "USB".toList then some (.name .usb)
  else if t = "ADC".toList then some (.name .adc)
  else (parseCode t).map .code

/-- `<div>`: a number, else a symbol (R87, R88). -/
def parseDiv (t : List Char) : Option AsmDiv :=
  match parseNat t with
  | some v => some (.imm v)
  | none => some (.symbol (String.ofList t))

/-- The characters without the spaces before the first and after the last of them. DESIGN CHOICE (log
18), safe: spaces around an operand are passed over, and inside one they are part of it, so that no
operand form admits it. -/
def trimSpaces (t : List Char) : List Char :=
  ((t.dropWhile (· == ' ')).reverse.dropWhile (· == ' ')).reverse

/-- The characters up to each comma, one list for each operand. -/
def splitCommas : List Char → List (List Char)
  | [] => [[]]
  | ',' :: cs => [] :: splitCommas cs
  | ch :: cs =>
    match splitCommas cs with
    | [] => [[ch]]
    | t :: ts => (ch :: t) :: ts

/-- The mnemonic, up to the first space, and the operands after it (R87). DESIGN CHOICE (log 18), safe:
the line begins with the mnemonic, and a space is the only character that ends it. -/
def splitLine (t : List Char) : List Char × List (List Char) :=
  (t.takeWhile (· != ' '), (splitCommas (t.dropWhile (· != ' '))).map trimSpaces)

/-- One line of assembly: "the mnemonic, then its operands separated by commas" (R87). DESIGN CHOICE
(log 18), safe: mnemonics and names in the letters that the rules write them in, and no comments. -/
def parseLine (t : String) : Option AsmLine :=
  match splitLine t.toList with
  | (m, [a]) =>
    if m = "RD".toList then (parseReg a).map .rd
    else if m = "PERIPH_ENABLE".toList then (parsePeriph a).map .periphEnable
    else if m = "PERIPH_RESET".toList then (parsePeriph a).map .periphReset
    else if m = "PERIPH_DISABLE".toList then (parsePeriph a).map .periphDisable
    else none
  | (m, [a, b]) =>
    if m = "WR".toList then (parseReg a).bind fun r => (parseNat b).map (.wr r)
    else if m = "SET".toList then (parseReg a).bind fun r => (parseNat b).map (.set r)
    else if m = "CLR".toList then (parseReg a).bind fun r => (parseNat b).map (.clr r)
    else if m = "PRESCALER_SET".toList then (parseSel a).bind fun s => (parseDiv b).map (.prescalerSet s)
    else none
  | (m, [a, b, k]) =>
    if m = "CLK_INIT".toList then
      (parseSrc a).bind fun s => (parsePllSrc b).bind fun p => (parseMul k).map (.clkInit s p)
    else none
  | _ => none

end Sys2Proof
end

