-- ==== Sys2Proof/Machine/Window.lean ====
section
/-! DEFINITION. The register window as a system bus sees it (20_memory.md R61, R63): the byte at an
address. No rule and no step depends on it; the commands reach registers by index (R61). -/

namespace Sys2Proof.Machine

/-- Byte `k` of a word, byte 0 the least significant. PRESUMED (log 15): little-endian, as R63 gives
it from general knowledge; unsafe for a claim about single bytes. -/
def byteOf (k : Nat) (v : Word) : Byte := v.extractLsb' (8 * k) 8

/-- The register that takes a byte address of the system memory map: register r takes the four bytes
from `RCC_BASE + OFF(r)` (R61). -/
def windowRegAt (c : Config) (addr : Nat) : Option WindowReg :=
  WindowReg.all.find? fun w => decide (c.address w ≤ addr) && decide (addr < c.address w + 4)

/-- The byte at a byte address, where a register in scope lies there. The three registers that are not
modelled have no byte (R62). -/
def windowByte (s : State) (addr : Nat) : Option Byte :=
  match windowRegAt s.cfg addr with
  | some (.modelled r) => some (byteOf (addr - s.cfg.address (.modelled r)) (s.reg.get r))
  | some (.unmodelled _) => none
  | none => none

end Sys2Proof.Machine
end

