-- ==== Sys2Proof/Safety.lean ====
section
/-! DEFINITION. What claims about CLKCTL are stated in: runs and their fairness (41_clock_tree_init.md
R134), HOST's duty (60_exceptions.md R206), the end of a run (R207), and the invariants that the rules
state of the whole machine. -/

namespace Sys2Proof.Machine

/-- The write filter accepts the value v for register r: no U bit would change, a set HSEON or PLLON
stays set, SW is not 11, and PLLSRC and PLLMUL do not change while PLLON = 1
(40_register_access.md R101, R103, R104). -/
def WriteAllowed (s : State) (r : Reg) (v : Word) : Prop :=
  (v ^^^ s.reg.get r) &&& s.cfg.un r = 0#32 ∧
    (r = .cr → (s.hseon = true → flag s.cfg.layout.crHseon v = true) ∧
      (s.pllon = true → flag s.cfg.layout.crPllon v = true)) ∧
    (r = .cfgr → getField s.cfg.layout.cfgrSw 2 v ≠ 3#2 ∧
      (s.pllon = true → getField s.cfg.layout.cfgrPllsrc 1 v = s.pllsrc ∧
        getField s.cfg.layout.cfgrPllmul 4 v = s.pllmul))

/-- A run: the turns taken and the states they lead through (20_memory.md R68). -/
def IsRun (turns : Nat → Turn) (states : Nat → State) : Prop :=
  ∀ n, takeTurn (turns n) (states n) = .next (states (n + 1))

/-- The turn is one of an agent whose step is enabled, for the agents that fairness speaks of. -/
def enabledTurn (t : Turn) (s : State) : Bool :=
  match t with
  | .host _ _ => false
  | .ctrl => ctrlEnabled s
  | .env kind => envEnabled kind s
  | .blockReset _ => false

/-- Weak fairness to CTRL and to every ENV step kind, none to HOST (41_clock_tree_init.md R134): a step
that stays enabled from some point on is eventually taken. DESIGN CHOICE (log 19), safe: a premise of
the claims that need it. -/
def WeaklyFair (turns : Nat → Turn) (states : Nat → State) : Prop :=
  ∀ t : Turn, ∀ n, (∀ m, n ≤ m → enabledTurn t (states m) = true) → ∃ m, n ≤ m ∧ turns m = t

/-- The turns taken one after another. -/
def runTurns : List Turn → State → Host.Outcome State Fault Refusal
  | [], s => .next s
  | t :: ts, s =>
    match takeTurn t s with
    | .next s' => runTurns ts s'
    | .fault f => .fault f
    | .refused r => .refused r

/-- The command is an RD, whatever its index (60_exceptions.md R195, R206). -/
def isRead (cw dw : Word) : Bool :=
  match decode cw dw with
  | .ok (.rd _) => true
  | _ => false

/-- The turn is HOST's: a command, or block reset, which only HOST asserts (60_exceptions.md R205). -/
def byHost : Turn → Bool
  | .host _ _ => true
  | .ctrl => false
  | .env _ => false
  | .blockReset _ => true

/-- The command is an RD of a register in scope: the one command that has its effect at any time, busy or
faulted (60_exceptions.md R194, R195, R205). -/
def isScopedRead (c : Config) (cw dw : Word) : Bool :=
  match decode cw dw with
  | .ok (.rd idx) => (regOfIndex c idx.toNat).isSome
  | _ => false

/-- The turn is CTRL's, ENV's, or a HOST RD of a register in scope: what may come between the steps of
a command in progress without a fault or a block reset (42_peripheral_gating.md R162). -/
def quietTurn (c : Config) (t : Turn) : Bool :=
  match t with
  | .host cw dw => isScopedRead c cw dw
  | .ctrl => true
  | .env _ => true
  | .blockReset _ => false

/-- The turn may come between two CTRL steps of a command in progress: an ENV step or a HOST RD of a
register in scope (42_peripheral_gating.md R162, 43_prescaler.md R182). -/
def betweenTurn (c : Config) (t : Turn) : Bool := t != .ctrl && quietTurn c t

/-- HOST keeps its duty in this turn: it issues a command other than RD only when not busy
(60_exceptions.md R206). An RD of any index and block reset are no breach of it. -/
def keepsDuty (t : Turn) (s : State) : Bool :=
  !s.busy ||
    match t with
    | .host cw dw => isRead cw dw
    | .ctrl => true
    | .env _ => true
    | .blockReset _ => true

/-- The turn leaves a command in progress alone: while busy it is no command but an RD of a register in
scope, and no block reset. That is HOST's duty of R206 and more: an RD of another index keeps the duty and
faults (20_memory.md R62), and block reset keeps it and ends the command (70_reset_and_hazards.md
R220). -/
def quietWhileBusy (t : Turn) (s : State) : Bool := !s.busy || quietTurn s.cfg t

/-- No ENV step is enabled. -/
def envSettled (s : State) : Bool :=
  !envEnabled .hseStart s && !envEnabled .pllLock s && !envEnabled .clockSwitch s

/-- Nothing is left to do for CTRL or ENV, and the block is not faulted: the conditions of
60_exceptions.md R207 but for the one on HOST. -/
def quiescent (s : State) : Bool := !s.faulted && s.op == .idle && envSettled s

/-- HOST has nothing more to do by the agenda: "HOST issues no further command" (R207), as far as the
state says. DEDUCED (log 22), safe: block reset is counted with HOST's commands. With the agenda used up
the turn is free (log 2). -/
def hostDone (s : State) : Bool := s.agenda.all fun t => !byHost t

/-- The state is final by all four conditions of R207, HOST's by the agenda. -/
def finalState (s : State) : Bool := quiescent s && hostDone s

/-- The run ends at its state n: the four conditions of R207. DESIGN CHOICE (log 22), safe: a run that
ends is an infinite sequence of turns in which HOST takes none from n on. -/
structure RunEndsAt (turns : Nat → Turn) (states : Nat → State) (n : Nat) : Prop where
  run : IsRun turns states
  quiescent : quiescent (states n) = true
  hostSilent : ∀ m, n ≤ m → byHost (turns m) = false

/-- What is observed in a final state (R207). -/
structure Observation where
  reg : RegFile
  fsm : Fsm
  rspData : Word
  trace : List Event
  deriving DecidableEq, Repr

/-- The observation of a state (R207). -/
def State.observation (s : State) : Observation :=
  { reg := s.reg, fsm := s.fsm, rspData := s.rspData, trace := s.trace }

/-- The initializer states in which a CLK_INIT is in progress (10_state.md R46). -/
def Fsm.inProgress : List Fsm :=
  [.cfgPrimed, .oscEnabling, .oscReady, .pllEnabling, .pllReady, .switching]

/-- The position of an initializer state in the order of 10_state.md R39. -/
def Fsm.rank : Fsm → Nat
  | .internalClock => 0
  | .cfgPrimed => 1
  | .oscEnabling => 2
  | .oscReady => 3
  | .pllEnabling => 4
  | .pllReady => 5
  | .switching => 6
  | .pllActive => 7

/-- Invariant of the control state (10_state.md R46) and of the fault record (R40, 60_exceptions.md
R191): no fault is recorded before one is entered, and an entered one has a code of R191. -/
structure ControlInv (s : State) : Prop where
  opInit : s.op = .init ↔ s.fsm ∈ Fsm.inProgress
  noRecord : s.faulted = false → s.faultCode = 0#8 ∧ s.faultCw = 0#32 ∧ s.faultDw = 0#32
  record : s.faulted = true → ∃ f : Fault, s.faultCode = f.code

/-- Invariant of the registers: the configuration has runs, U bits keep their reset values
(40_register_access.md R110), HSIRDY stays 1 (10_state.md R42), SW and SWS never hold 11 (R29), and a
ready bit is set only while its clock is enabled (41_clock_tree_init.md R140). -/
structure RegisterInv (s : State) : Prop where
  cfgWf : s.cfg.wf = true
  unmodelled : ∀ r, s.reg.get r &&& s.cfg.un r = (RegFile.reset s.cfg 0#8).get r &&& s.cfg.un r
  hsirdy : s.hsirdy = true
  sw : s.sw ≠ 3#2
  sws : s.sws ≠ 3#2
  hserdy : s.hserdy = true → s.hseon = true
  pllrdy : s.pllrdy = true → s.pllon = true

/-- A ready bit is clear where its clock never becomes ready: HSERDY with HSE_WORKS false, PLLRDY with
PLL_LOCKS false (10_state.md R43, 41_clock_tree_init.md R130, R131, R135). -/
structure DeadClockInv (s : State) : Prop where
  hse : s.cfg.hseWorks = false → s.hserdy = false
  pll : s.cfg.pllLocks = false → s.pllrdy = false

/-- What the initializer has done by each of its states: the latch holds a composed value for a PLL
fed by HSE, CFGR's writable bits are the latch (and from SWITCHING on the switch value), and each
enable and ready bit that a step has set or seen is set (41_clock_tree_init.md R121 to R128). -/
structure ProgressInv (s : State) : Prop where
  latch : s.op = .init → ∃ mul, s.cfgLatch = compose s.cfg.layout (s.cfg.codes.pllsrcHse.setWidth 8) mul
  primed : s.op = .init → s.fsm ≠ .switching →
    s.reg.cfgr &&& s.cfg.wm .cfgr = s.cfgLatch
  switched : s.op = .init → s.fsm = .switching →
    s.reg.cfgr &&& s.cfg.wm .cfgr = switchValue s.cfg s.cfgLatch
  hseon : 2 ≤ s.fsm.rank → s.hseon = true
  hserdy : 3 ≤ s.fsm.rank → s.hserdy = true
  pllon : 4 ≤ s.fsm.rank → s.pllon = true
  pllrdy : 5 ≤ s.fsm.rank → s.pllrdy = true

/-- What the latches hold while a CTRL step is pending (10_state.md R38): the reset register and line
of a peripheral of the registry, and a CFGR value that differs from CFGR only in one prescaler field
and in SWS (43_prescaler.md R181). -/
structure PendingInv (s : State) : Prop where
  reset : s.op = .resetClr →
    ∃ p ∈ s.cfg.registry, p.domain.resetReg = some s.rstReg ∧ s.rstMask = bit p.line
  presc : s.op = .prescWr →
    ∃ sel, (s.prescVal ^^^ s.reg.cfgr) &&& ~~~ (s.cfg.prescMask sel ||| s.cfg.swsMask) = 0#32

/-- The invariant under which no CTRL step faults (60_exceptions.md R192). -/
structure SequencerInv (s : State) : Prop where
  control : ControlInv s
  registers : RegisterInv s
  progress : ProgressInv s
  pending : PendingInv s

/-- The value that the trace says register `r` holds: that of the last event on it, or `v0` if there is
none (10_state.md R41). -/
def lastStored (r : Reg) (v0 : Word) : List Event → Word
  | [] => v0
  | e :: es => lastStored r (if e.reg = r then e.value else v0) es

/-- The registers hold what the trace says, from the reset values for some calibration byte. -/
def TraceMirrors (s : State) : Prop :=
  ∃ hsical0, ∀ r, s.reg.get r = lastStored r ((RegFile.reset s.cfg hsical0).get r) s.trace

end Sys2Proof.Machine
end

