-- ==== Sys2Proof/Certificates/Slice0/Obligations.lean ====
section
/-! DEFINITION. The statements about CLKCTL for the provers, in the order of OBLIGATIONS.json. Command
words are written out as literals with the operand byte at bits 15:8 (30_encoding.md R81, R83). -/

open Sys2Proof Sys2Proof.Machine

/-! ### Encoding -/

/-- Decoding the two words of an instruction gives it back, for every operand value (30_encoding.md R80
to R84). -/
def Obligations.DecodeOfEncodeIsTheInstruction : Prop :=
  ∀ i : Instr, decode (encodeCw i) (encodeDw i) = .ok i

/-- A decoded command has the command word it came from and, where it takes a DW, that DW
(30_encoding.md R81 to R84). -/
def Obligations.EncodeOfDecodeIsTheCommandWord : Prop :=
  ∀ (cw dw : Word) (i : Instr), decode cw dw = .ok i →
    encodeCw i = cw ∧
      match i with
      | .wr _ value => value = dw
      | .set _ mask => mask = dw
      | .clr _ mask => mask = dw
      | .prescalerSet _ divider => divider = dw
      | .rd _ => True
      | .clkInit _ _ _ => True
      | .periphEnable _ => True
      | .periphReset _ => True

/-- 30_encoding.md R84: a CW selects an opcode when `(CW & mask) = match`, row by row, and a CW that
matches no row selects none. -/
def Obligations.OpcodeMapSelectsTheCommand : Prop :=
  ∀ cw dw : Word,
    (cw &&& 0xFFFF00FF#32 = 0x00000001#32 → decode cw dw = .ok (.rd (cw.extractLsb' 8 8))) ∧
    (cw &&& 0xFFFF00FF#32 = 0x00000002#32 → decode cw dw = .ok (.wr (cw.extractLsb' 8 8) dw)) ∧
    (cw &&& 0xFFFF00FF#32 = 0x00000003#32 → decode cw dw = .ok (.set (cw.extractLsb' 8 8) dw)) ∧
    (cw &&& 0xFFFF00FF#32 = 0x00000004#32 → decode cw dw = .ok (.clr (cw.extractLsb' 8 8) dw)) ∧
    (cw &&& 0xF00000FF#32 = 0x00000008#32 → decode cw dw =
      .ok (.clkInit (cw.extractLsb' 8 8) (cw.extractLsb' 16 8) (cw.extractLsb' 24 4))) ∧
    (cw &&& 0xFFFF00FF#32 = 0x00000009#32 → decode cw dw = .ok (.periphEnable (cw.extractLsb' 8 8))) ∧
    (cw &&& 0xFFFF00FF#32 = 0x0000000A#32 → decode cw dw = .ok (.periphReset (cw.extractLsb' 8 8))) ∧
    (cw &&& 0xFFFF00FF#32 = 0x0000000B#32 → decode cw dw =
      .ok (.prescalerSet (cw.extractLsb' 8 8) dw)) ∧
    ((∃ i, decode cw dw = .ok i) →
      cw &&& 0xFFFF00FF#32 ∈ [0x00000001#32, 0x00000002#32, 0x00000003#32, 0x00000004#32, 0x00000009#32,
        0x0000000A#32, 0x0000000B#32] ∨ cw &&& 0xF00000FF#32 = 0x00000008#32)

/-- 30_encoding.md R85: a command is illegal in exactly three cases (an unassigned OP, a nonzero RSV, a
nonzero field that the format requires to be zero), and it then faults ILLEGAL_COMMAND with its CW and
has no other effect. An operand out of its operation's range is no illegal encoding. -/
def Obligations.IllegalCommandsFault : Prop :=
  ∀ cw dw : Word,
    ((∀ i, decode cw dw ≠ .ok i) ↔
      cw.extractLsb' 0 4 ∈ [0x0#4, 0x5#4, 0x6#4, 0x7#4, 0xC#4, 0xD#4, 0xE#4, 0xF#4] ∨
        cw.extractLsb' 4 4 ≠ 0#4 ∨
        (cw.extractLsb' 0 4 = 0x8#4 ∧ cw.extractLsb' 28 4 ≠ 0#4) ∨
        (cw.extractLsb' 0 4 ≠ 0x8#4 ∧ (cw.extractLsb' 16 8 ≠ 0#8 ∨ cw.extractLsb' 24 8 ≠ 0#8))) ∧
    ∀ s : State, s.faulted = false → (∀ i, decode cw dw ≠ .ok i) →
      hostIssue cw dw s =
        .next { s with faulted := true, faultCode := 0x01#8, faultCw := cw, faultDw := cw }

/-- The encoding examples of 30_encoding.md R90, from the text of the line to its two words, and what
the decoder reads from some of those words. The spec derives them from R81, R84 and R87. -/
def Obligations.EncodingExamplesOfTheSpec : Prop :=
  (∀ p ∈ [("CLK_INIT PLL, HSE, MUL9", 0x07010208#32, 0x00000000#32),
      ("PERIPH_ENABLE GPIOA", 0x00000009#32, 0x00000000#32),
      ("PERIPH_ENABLE USART2", 0x00000809#32, 0x00000000#32),
      ("PERIPH_RESET USART2", 0x0000080A#32, 0x00000000#32),
      ("PERIPH_RESET DMA1", 0x0000100A#32, 0x00000000#32),
      ("PRESCALER_SET APB1, APB1_DIV2", 0x0000010B#32, 0x00000400#32),
      ("RD CR", 0x00000001#32, 0x00000000#32),
      ("RD CFGR", 0x00000101#32, 0x00000000#32),
      ("RD APB2ENR", 0x00000601#32, 0x00000000#32),
      ("WR APB1ENR, 0x0002_0000", 0x00000702#32, 0x00020000#32),
      ("SET CR, 0x0001_0000", 0x00000003#32, 0x00010000#32),
      ("CLR APB2ENR, 0x0000_0004", 0x00000604#32, 0x00000004#32)],
    ∀ hw pl : Bool, (parseLine p.1).bind (assemble (Config.default hw pl)) = some (p.2.1, p.2.2)) ∧
  decode 0x07010208#32 0#32 = .ok (.clkInit 0x02#8 0x01#8 7#4) ∧
  decode 0x0000080A#32 0#32 = .ok (.periphReset 8#8) ∧
  decode 0x0000010B#32 0x400#32 = .ok (.prescalerSet 1#8 0x400#32) ∧
  decode 0x00000702#32 0x20000#32 = .ok (.wr 7#8 0x20000#32)

/-- No command word is selected by two rows of the opcode map (30_encoding.md R84). -/
def Obligations.OpcodeRowsDoNotOverlap : Prop :=
  ∀ cw : Word, ∀ a ∈ opcodeRows, ∀ b ∈ opcodeRows, a.selects cw = true → b.selects cw = true → a = b

/-- PERIPH_DISABLE of a peripheral of the registry, by its code or by its name, expands to CLR of its
domain's enable register with its line's bit, and an unknown peripheral, by a code that the registry does
not have or by a name that it does not have, is an assembly error (30_encoding.md R89). That a name which
the registry holds more than once means its lowest identifier is the model's choice (log 25). -/
def Obligations.PeriphDisableExpandsToClear : Prop :=
  (∀ (c : Config) (id : Nat) (p : PeriphDesc), id < 256 → c.registry[id]? = some p →
    assemble c (.periphDisable (.code id)) =
      some (0x00000004#32 ||| ((BitVec.ofNat 8 (c.index p.domain.enableReg)).setWidth 32 <<< 8),
        1#32 <<< p.line)) ∧
  (∀ (c : Config) (name : String) (id : Nat) (p : PeriphDesc), c.registry[id]? = some p →
    p.name = name → (∀ j q, j < id → c.registry[j]? = some q → q.name ≠ name) →
    assemble c (.periphDisable (.name name)) =
      some (0x00000004#32 ||| ((BitVec.ofNat 8 (c.index p.domain.enableReg)).setWidth 32 <<< 8),
        1#32 <<< p.line)) ∧
  (∀ (c : Config) (id : Nat), c.registry.length ≤ id →
    assemble c (.periphDisable (.code id)) = none) ∧
  (∀ (c : Config) (name : String), (∀ p ∈ c.registry, p.name ≠ name) →
    assemble c (.periphDisable (.name name)) = none) ∧
  ∀ hw pl : Bool, (parseLine "PERIPH_DISABLE GPIOA").bind (assemble (Config.default hw pl)) =
    some (0x00000604#32, 0x00000004#32)

/-! ### The step -/

/-- A HOST turn with a legal command is the command's meaning at the state in which the turn is used
up, and a command placed by `withFetchWord` is the very next one. The agenda is the model's own (log 1,
20). -/
def Obligations.StepRunsTheIssuedCommand : Prop :=
  (∀ (s : State) (cw dw : Word) (rest : List Turn) (i : Instr), s.cfg.wf = true →
    s.agenda = .host cw dw :: rest → decode cw dw = .ok i → step s = exec i { s with agenda := rest }) ∧
  ∀ (s : State) (w : Nat) (i : Instr), s.cfg.wf = true → decodeTableWord 32 w = some i →
    step (s.withFetchWord 32 w) = exec i s

/-- The step takes the first turn of the agenda, or the free turn of the next draw when the agenda is
empty, for any value of it. The agenda and the draws are the model's own (log 1, 2). -/
def Obligations.StepTakesTheNextTurn : Prop :=
  ∀ s : State, s.cfg.wf = true →
    (∀ t rest, s.agenda = t :: rest → step s = takeTurn t { s with agenda := rest }) ∧
    (s.agenda = [] → step s = takeTurn (Config.freeTurn s.draws) { s with draws := s.draws + 1 })

/-- 10_state.md R34: a registry in which two identifiers share a control bit, or with a line outside
0..31, has no step, and the default table meets the invariant. -/
def Obligations.IllFormedRegistryHasNoRun : Prop :=
  (∀ (s : State) (i j : Nat) (p q : PeriphDesc), i ≠ j → s.cfg.registry[i]? = some p →
    s.cfg.registry[j]? = some q → p.domain = q.domain → p.line = q.line →
    step s = .refused .illFormedConfig) ∧
  (∀ (s : State) (p : PeriphDesc), p ∈ s.cfg.registry → 32 ≤ p.line →
    step s = .refused .illFormedConfig) ∧
  (∀ hw pl : Bool, (Config.default hw pl).linesInRange = true ∧ (Config.default hw pl).linesUnique = true)

/-- 70_reset_and_hazards.md R223: no step, block reset among them, changes a launch parameter. -/
def Obligations.StepKeepsLaunchParameters : Prop :=
  (∀ s s' : State, step s = .next s' → s'.cfg = s.cfg) ∧
  ∀ (h : Byte) (s s' : State), takeTurn (.blockReset h) s = .next s' → s'.cfg = s.cfg

/-! ### Issue and faults -/

/-- 60_exceptions.md R195: the pre-checks of HOST's issue, in their order. -/
def Obligations.IssueChecksInOrder : Prop :=
  ∀ (cw dw : Word) (s : State),
    (s.faulted = true →
      (∀ (idx : Byte) (r : Reg), decode cw dw = .ok (.rd idx) → regOfIndex s.cfg idx.toNat = some r →
        hostIssue cw dw s = .next { s with rspData := s.reg.get r }) ∧
      ((∀ (idx : Byte) (r : Reg), decode cw dw = .ok (.rd idx) → regOfIndex s.cfg idx.toNat ≠ some r) →
        hostIssue cw dw s = .next s)) ∧
    (s.faulted = false →
      ((∀ i, decode cw dw ≠ .ok i) → hostIssue cw dw s =
        .next { s with faulted := true, faultCode := 0x01#8, faultCw := cw, faultDw := cw }) ∧
      ∀ i, decode cw dw = .ok i →
        ((∀ idx, i ≠ .rd idx) → s.op ≠ .idle → hostIssue cw dw s =
          .next { s with faulted := true, faultCode := 0x02#8, faultCw := cw, faultDw := cw }) ∧
        (s.op = .idle ∨ (∃ idx, i = .rd idx) → hostIssue cw dw s = exec i s))

/-- The effect of the fault state (60_exceptions.md R194). That a turn of CTRL passes unchanged, where R194
says that CTRL has no step, is the model's choice (log 3). -/
def Obligations.EffectOfTheFaultState : Prop :=
  ∀ s : State, s.faulted = true →
    takeTurn .ctrl s = .next s ∧
    (∀ (cw dw : Word), isScopedRead s.cfg cw dw = false → takeTurn (.host cw dw) s = .next s) ∧
    (∀ (cw dw : Word) (idx : Byte) (r : Reg), decode cw dw = .ok (.rd idx) →
      regOfIndex s.cfg idx.toNat = some r →
      takeTurn (.host cw dw) s = .next { s with rspData := s.reg.get r }) ∧
    (∀ k, envEnabled k s = envEnabled k { s with faulted := false }) ∧
    (∀ k, envEnabled k s = true → takeTurn (.env k) s = .next (envEffect k s)) ∧
    s.statusPort.busy = false ∧ s.statusPort.faulted = true ∧
    ∀ (t : Turn) (s' : State), (∀ h, t ≠ .blockReset h) → takeTurn t s = .next s' →
      s'.faulted = true ∧ s'.op = s.op ∧ s'.fsm = s.fsm ∧ s'.cfgLatch = s.cfgLatch ∧
        s'.rstReg = s.rstReg ∧ s'.rstMask = s.rstMask ∧ s'.prescVal = s.prescVal

/-- 60_exceptions.md R197: only block reset leaves the fault state, block reset clears it, and the
first fault's record is kept until then. -/
def Obligations.OnlyBlockResetClearsAFault : Prop :=
  ∀ (t : Turn) (s s' : State), s.faulted = true → takeTurn t s = .next s' →
    (s'.faulted = false ↔ ∃ h, t = .blockReset h) ∧
    ((∀ h, t ≠ .blockReset h) →
      s'.faultCode = s.faultCode ∧ s'.faultCw = s.faultCw ∧ s'.faultDw = s.faultDw) ∧
    ((∃ h, t = .blockReset h) → s'.faultCode = 0#8 ∧ s'.faultCw = 0#32 ∧ s'.faultDw = 0#32)

/-- 60_exceptions.md R193: a turn that enters the fault state writes the fault record and changes
nothing else; the recorded command word is that of the command being accepted, or 0. -/
def Obligations.FaultEntryIsPrecise : Prop :=
  ∀ (t : Turn) (s s' : State), s.faulted = false → takeTurn t s = .next s' → s'.faulted = true →
    ∃ (f : Fault) (info : Word),
      s' = { s with
        faulted := true
        faultCode := f.code
        faultCw := match t with
          | .host cw _ => cw
          | .ctrl => 0#32
          | .env _ => 0#32
          | .blockReset _ => 0#32
        faultDw := info }

/-! ### Register access -/

/-- 20_memory.md R62: the index check under the default indices. -/
def Obligations.CheckRegOfEachIndex : Prop :=
  ∀ (hw pl : Bool) (idx : Byte),
    checkReg (Config.default hw pl) idx =
      if idx = 0#8 then .ok .cr
      else if idx = 1#8 then .ok .cfgr
      else if idx = 3#8 then .ok .apb2rstr
      else if idx = 4#8 then .ok .apb1rstr
      else if idx = 5#8 then .ok .ahbenr
      else if idx = 6#8 then .ok .apb2enr
      else if idx = 7#8 then .ok .apb1enr
      else if idx = 2#8 ∨ idx = 8#8 ∨ idx = 9#8 then .error ⟨.unmodelledRegister, idx.setWidth 32⟩
      else .error ⟨.badRegister, idx.setWidth 32⟩

/-- The masks of the default layout and registry: 10_state.md R27, R28 and R33. -/
def Obligations.DefaultMasksAreTheSpecs : Prop :=
  ∀ hw pl : Bool,
    (Config.default hw pl).wm .cr = 0x01010000#32 ∧ (Config.default hw pl).ro .cr = 0x0202FF02#32 ∧
    (Config.default hw pl).un .cr = 0xFCFC00FD#32 ∧ (Config.default hw pl).wm .cfgr = 0x007DFFF3#32 ∧
    (Config.default hw pl).ro .cfgr = 0x0000000C#32 ∧ (Config.default hw pl).un .cfgr = 0xFF820000#32 ∧
    (Config.default hw pl).lines .apb1 = 0x18664007#32 ∧
    (Config.default hw pl).lines .apb2 = 0x00005E3D#32 ∧
    (Config.default hw pl).lines .ahb = 0x00000001#32

/-- RD: in every state, busy or faulted too, RD of a register in scope answers its stored word and changes
nothing else; an index of no register faults, or has no effect while faulted (40_register_access.md R106,
20_memory.md R62). The split of the two fault codes at `NREGIDX`, where R62 gives the literal indices, is
the model's reading (log 8). -/
def Obligations.ReadAnswersTheStoredWord : Prop :=
  ∀ (s : State) (idx : Byte), s.cfg.wf = true →
    (∀ r, idx.toNat = s.cfg.index r → exec (.rd idx) s = .next { s with rspData := s.reg.get r }) ∧
    ((∀ r, idx.toNat ≠ s.cfg.index r) →
      (s.faulted = true → exec (.rd idx) s = .next s) ∧
      (s.faulted = false → idx.toNat < s.cfg.nRegIdx → exec (.rd idx) s =
        .next { s with faulted := true, faultCode := 0x04#8,
                       faultCw := 0x00000001#32 ||| (idx.setWidth 32 <<< 8), faultDw := idx.setWidth 32 }) ∧
      (s.faulted = false → s.cfg.nRegIdx ≤ idx.toNat → exec (.rd idx) s =
        .next { s with faulted := true, faultCode := 0x03#8,
                       faultCw := 0x00000001#32 ||| (idx.setWidth 32 <<< 8), faultDw := idx.setWidth 32 }))

/-- WR in an idle block: an allowed value is stored in the WM bits with one HOST event and nothing else
changes; a value not allowed faults UNMODELLED_WRITE; an index that no register has faults, whatever the
data word (40_register_access.md R107, 20_memory.md R62). The split of the two fault codes at `NREGIDX`,
where R62 gives the literal indices, is the model's reading (log 8). -/
def Obligations.WriteStoresTheWritableBits : Prop :=
  ∀ (s : State) (idx : Byte) (v : Word), s.cfg.wf = true → s.faulted = false → s.op = .idle →
    (∀ r, idx.toNat = s.cfg.index r →
      (WriteAllowed s r v → exec (.wr idx v) s =
        .next { s with
          reg := s.reg.set r ((s.reg.get r &&& ~~~ s.cfg.wm r) ||| (v &&& s.cfg.wm r))
          trace := s.trace ++ [⟨.host, r, .write, v, ((s.reg.get r &&& ~~~ s.cfg.wm r) ||| (v &&& s.cfg.wm r))⟩] }) ∧
      (¬ WriteAllowed s r v → exec (.wr idx v) s =
        .next { s with faulted := true, faultCode := 0x05#8,
                       faultCw := 0x00000002#32 ||| (idx.setWidth 32 <<< 8), faultDw := v })) ∧
    ((∀ r, idx.toNat ≠ s.cfg.index r) → exec (.wr idx v) s =
      .next { s with faulted := true, faultCode := if idx.toNat < s.cfg.nRegIdx then 0x04#8 else 0x03#8,
                     faultCw := 0x00000002#32 ||| (idx.setWidth 32 <<< 8), faultDw := idx.setWidth 32 })

/-- SET in an idle block: the WM bits under the mask become 1, or the proposed value faults
UNMODELLED_WRITE; an index that no register has faults, whatever the data word (40_register_access.md
R108, 20_memory.md R62). The split of the two fault codes at `NREGIDX`, where R62 gives the literal
indices, is the model's reading (log 8). -/
def Obligations.SetRaisesTheWritableBitsOfTheMask : Prop :=
  ∀ (s : State) (idx : Byte) (v : Word), s.cfg.wf = true → s.faulted = false → s.op = .idle →
    (∀ r, idx.toNat = s.cfg.index r →
      (WriteAllowed s r (s.reg.get r ||| v) → exec (.set idx v) s =
        .next { s with
          reg := s.reg.set r (s.reg.get r ||| (v &&& s.cfg.wm r))
          trace := s.trace ++ [⟨.host, r, .set, v, (s.reg.get r ||| (v &&& s.cfg.wm r))⟩] }) ∧
      (¬ WriteAllowed s r (s.reg.get r ||| v) → exec (.set idx v) s =
        .next { s with faulted := true, faultCode := 0x05#8,
                       faultCw := 0x00000003#32 ||| (idx.setWidth 32 <<< 8), faultDw := s.reg.get r ||| v })) ∧
    ((∀ r, idx.toNat ≠ s.cfg.index r) → exec (.set idx v) s =
      .next { s with faulted := true, faultCode := if idx.toNat < s.cfg.nRegIdx then 0x04#8 else 0x03#8,
                     faultCw := 0x00000003#32 ||| (idx.setWidth 32 <<< 8), faultDw := idx.setWidth 32 })

/-- CLR in an idle block: the WM bits under the mask become 0, or the proposed value faults
UNMODELLED_WRITE; an index that no register has faults, whatever the data word (40_register_access.md
R109, 20_memory.md R62). The split of the two fault codes at `NREGIDX`, where R62 gives the literal
indices, is the model's reading (log 8). -/
def Obligations.ClearLowersTheWritableBitsOfTheMask : Prop :=
  ∀ (s : State) (idx : Byte) (v : Word), s.cfg.wf = true → s.faulted = false → s.op = .idle →
    (∀ r, idx.toNat = s.cfg.index r →
      (WriteAllowed s r (s.reg.get r &&& ~~~ v) → exec (.clr idx v) s =
        .next { s with
          reg := s.reg.set r (s.reg.get r &&& ~~~ (v &&& s.cfg.wm r))
          trace := s.trace ++ [⟨.host, r, .clear, v, (s.reg.get r &&& ~~~ (v &&& s.cfg.wm r))⟩] }) ∧
      (¬ WriteAllowed s r (s.reg.get r &&& ~~~ v) → exec (.clr idx v) s =
        .next { s with faulted := true, faultCode := 0x05#8,
                       faultCw := 0x00000004#32 ||| (idx.setWidth 32 <<< 8), faultDw := s.reg.get r &&& ~~~ v })) ∧
    ((∀ r, idx.toNat ≠ s.cfg.index r) → exec (.clr idx v) s =
      .next { s with faulted := true, faultCode := if idx.toNat < s.cfg.nRegIdx then 0x04#8 else 0x03#8,
                     faultCw := 0x00000004#32 ||| (idx.setWidth 32 <<< 8), faultDw := idx.setWidth 32 })

/-- 40_register_access.md R101 with the two checks R103 and R104: what a bus write of any agent does. -/
def Obligations.WriteFilterOfEveryBusWrite : Prop :=
  ∀ (a : Agent) (r : Reg) (v : Word) (k : EventKind) (operand : Word) (s : State),
    (WriteAllowed s r v → busWrite a r v k operand s =
      .ok { s with
        reg := s.reg.set r ((s.reg.get r &&& ~~~ s.cfg.wm r) ||| (v &&& s.cfg.wm r))
        trace := s.trace ++
          [⟨a, r, k, operand, (s.reg.get r &&& ~~~ s.cfg.wm r) ||| (v &&& s.cfg.wm r)⟩] }) ∧
    (¬ WriteAllowed s r v → busWrite a r v k operand s = .error ⟨.unmodelledWrite, v⟩)

/-- 40_register_access.md R110, the laws of the primitives, which the spec infers from R101 and R105. -/
def Obligations.LawsOfThePrimitives : Prop :=
  (∀ (a : Agent) (r : Reg) (m : Word) (s t : State), busSet a r m s = .ok t →
    t.reg.get r &&& ~~~ (m &&& s.cfg.wm r) = s.reg.get r &&& ~~~ (m &&& s.cfg.wm r)) ∧
  (∀ (a : Agent) (r : Reg) (m : Word) (s t : State), busClear a r m s = .ok t →
    t.reg.get r &&& ~~~ (m &&& s.cfg.wm r) = s.reg.get r &&& ~~~ (m &&& s.cfg.wm r)) ∧
  (∀ (a : Agent) (r : Reg) (m : Word) (s t u : State), busSet a r m s = .ok t → busSet a r m t = .ok u →
    u.reg = t.reg) ∧
  (∀ (a : Agent) (r : Reg) (v : Word) (k : EventKind) (operand : Word) (s t : State),
    busWrite a r v k operand s = .ok t → ∀ q, t.reg.get q &&& s.cfg.un q = s.reg.get q &&& s.cfg.un q) ∧
  (∀ s s' : State,
    (∀ r, s.reg.get r &&& s.cfg.un r = (RegFile.reset s.cfg 0#8).get r &&& s.cfg.un r) →
    step s = .next s' →
    (∀ r, s'.reg.get r &&& s'.cfg.un r = (RegFile.reset s'.cfg 0#8).get r &&& s'.cfg.un r) ∧
      s'.reg.cfgr &&& s'.cfg.un .cfgr = 0#32)

/-! ### The clock-tree initializer -/

/-- 41_clock_tree_init.md R121, CLK_INIT in an idle block: the accepted request performs step 1 and
starts the initializer; the three faults come in their order. -/
def Obligations.ClkInitAcceptsThePllRequest : Prop :=
  ∀ (s : State) (src pllSrc : Byte) (mul : BitVec 4) (c cw : Word), s.faulted = false → s.op = .idle →
    c = ((pllSrc &&& 1#8).setWidth 32 <<< s.cfg.layout.cfgrPllsrc) |||
      (mul.setWidth 32 <<< s.cfg.layout.cfgrPllmul) →
    cw = 0x00000008#32 ||| (src.setWidth 32 <<< 8) ||| (pllSrc.setWidth 32 <<< 16) |||
      (mul.setWidth 32 <<< 24) →
    ((src ≠ s.cfg.codes.srcPll.setWidth 8 ∨ pllSrc ≠ s.cfg.codes.pllsrcHse.setWidth 8) →
      exec (.clkInit src pllSrc mul) s =
        .next { s with faulted := true, faultCode := 0x06#8, faultCw := cw, faultDw := cw }) ∧
    (src = s.cfg.codes.srcPll.setWidth 8 → pllSrc = s.cfg.codes.pllsrcHse.setWidth 8 →
      (s.fsm ≠ .internalClock → exec (.clkInit src pllSrc mul) s =
        .next { s with faulted := true, faultCode := 0x07#8, faultCw := cw, faultDw := cw }) ∧
      (s.fsm = .internalClock → ¬ WriteAllowed s .cfgr c → exec (.clkInit src pllSrc mul) s =
        .next { s with faulted := true, faultCode := 0x05#8, faultCw := cw, faultDw := c }) ∧
      (s.fsm = .internalClock → WriteAllowed s .cfgr c → exec (.clkInit src pllSrc mul) s =
        .next { s with
          reg := s.reg.set .cfgr ((s.reg.cfgr &&& ~~~ s.cfg.wm .cfgr) ||| (c &&& s.cfg.wm .cfgr))
          trace := s.trace ++ [⟨.ctrl, .cfgr, .write, c,
            (s.reg.cfgr &&& ~~~ s.cfg.wm .cfgr) ||| (c &&& s.cfg.wm .cfgr)⟩]
          cfgLatch := c
          op := .init
          fsm := .cfgPrimed }))

/-- The composed value has the PLL input and the multiplier in their fields and every other bit 0, it is
the formula of the rule in the default layout, and the step-1 write resets every prescaler field
(41_clock_tree_init.md R122). The last clause is the spec's own inference from R122 and R101. -/
def Obligations.ComposeSetsOnlyThePllFields : Prop :=
  (∀ (c : Config) (pllSrc : Byte) (mul : BitVec 4), c.wf = true →
    getField c.layout.cfgrPllsrc 1 (compose c.layout pllSrc mul) = pllSrc.extractLsb' 0 1 ∧
    getField c.layout.cfgrPllmul 4 (compose c.layout pllSrc mul) = mul ∧
    compose c.layout pllSrc mul &&&
      ~~~ (bit c.layout.cfgrPllsrc ||| fieldMask c.layout.cfgrPllmul 4) = 0#32) ∧
  (∀ (pllSrc : Byte) (mul : BitVec 4), compose Layout.default pllSrc mul =
    ((pllSrc &&& 1#8).setWidth 32 <<< 16) ||| (mul.setWidth 32 <<< 18)) ∧
  (∀ mul : BitVec 4, compose Layout.default 1#8 mul = 0x00010000#32 ||| (mul.setWidth 32 <<< 18)) ∧
  ∀ (s s' : State) (src pllSrc : Byte) (mul : BitVec 4) (sel : PrescSel), s.cfg.wf = true →
    exec (.clkInit src pllSrc mul) s = .next s' → s.op = .idle → s'.op = .init →
    s'.reg.cfgr &&& s.cfg.prescMask sel = 0#32

/-- The two enable steps of the initializer set HSEON and PLLON, keep every other bit of CR, append their
event and cannot fault (41_clock_tree_init.md R123, R125). That they cannot fault is the rules' own
inference. -/
def Obligations.InitializerEnableSteps : Prop :=
  (∀ s : State, s.cfg.wf = true → s.faulted = false → s.op = .init →
    (s.fsm = .cfgPrimed → takeTurn .ctrl s =
      .next { s with
        reg := s.reg.set .cr (s.reg.cr ||| s.cfg.hseonMask)
        trace := s.trace ++ [⟨.ctrl, .cr, .set, s.cfg.hseonMask, s.reg.cr ||| s.cfg.hseonMask⟩]
        fsm := .oscEnabling }) ∧
    (s.fsm = .oscReady → takeTurn .ctrl s =
      .next { s with
        reg := s.reg.set .cr (s.reg.cr ||| s.cfg.pllonMask)
        trace := s.trace ++ [⟨.ctrl, .cr, .set, s.cfg.pllonMask, s.reg.cr ||| s.cfg.pllonMask⟩]
        fsm := .pllEnabling })) ∧
  ∀ hw pl : Bool, (Config.default hw pl).hseonMask = 0x00010000#32 ∧
    (Config.default hw pl).pllonMask = 0x01000000#32

/-- 41_clock_tree_init.md R124, R126 and R128: the three polls move on when their status is seen and
change nothing when it is not. -/
def Obligations.InitializerPolls : Prop :=
  (∀ s : State, s.faulted = false → s.op = .init →
    (s.fsm = .oscEnabling → takeTurn .ctrl s =
      .next (if s.reg.cr.getLsbD s.cfg.layout.crHserdy then { s with fsm := .oscReady } else s)) ∧
    (s.fsm = .pllEnabling → takeTurn .ctrl s =
      .next (if s.reg.cr.getLsbD s.cfg.layout.crPllrdy then { s with fsm := .pllReady } else s)) ∧
    (s.fsm = .switching → takeTurn .ctrl s =
      .next (if s.reg.cfgr.extractLsb' s.cfg.layout.cfgrSws 2 = s.cfg.codes.srcPll then
        { s with fsm := .pllActive, op := .idle } else s))) ∧
  Layout.default.crHserdy = 17 ∧ Layout.default.crPllrdy = 25 ∧ Layout.default.cfgrSws = 2 ∧
    ClockCodes.default.srcPll = 0b10#2

/-- At PLL_READY the switch value built from the latch is written, and the write cannot fault
(41_clock_tree_init.md R127). That it cannot fault is the rule's own inference; the switch value of
another layout is the model's reading of the rule's literals (log 17). -/
def Obligations.InitializerSwitchStep : Prop :=
  (∀ s : State, SequencerInv s → s.faulted = false → s.op = .init → s.fsm = .pllReady →
    takeTurn .ctrl s =
      .next { s with
        reg := s.reg.set .cfgr ((s.reg.cfgr &&& s.cfg.swsMask) ||| switchValue s.cfg s.cfgLatch)
        trace := s.trace ++ [⟨.ctrl, .cfgr, .write, switchValue s.cfg s.cfgLatch,
          (s.reg.cfgr &&& s.cfg.swsMask) ||| switchValue s.cfg s.cfgLatch⟩]
        fsm := .switching }) ∧
  ∀ (hw pl : Bool) (latch : Word), switchValue (Config.default hw pl) latch =
    (latch &&& ~~~ 0x00000003#32) ||| 0x00000002#32

/-- `fsm` moves only along the rows of 41_clock_tree_init.md R120, each with its agent and, for the
polls, the status that the row names; block reset apart. -/
def Obligations.FsmMovesOnlyAlongTheTable : Prop :=
  ∀ (t : Turn) (s s' : State), (∀ h, t ≠ .blockReset h) → takeTurn t s = .next s' →
    s'.fsm = s.fsm ∨
    (s.fsm = .internalClock ∧ s'.fsm = .cfgPrimed ∧ ∃ cw dw src pllSrc mul,
      t = .host cw dw ∧ decode cw dw = .ok (.clkInit src pllSrc mul)) ∨
    (t = .ctrl ∧ s.op = .init ∧
      ((s.fsm = .cfgPrimed ∧ s'.fsm = .oscEnabling) ∨
        (s.fsm = .oscEnabling ∧ s'.fsm = .oscReady ∧ s.hserdy = true) ∨
        (s.fsm = .oscReady ∧ s'.fsm = .pllEnabling) ∨
        (s.fsm = .pllEnabling ∧ s'.fsm = .pllReady ∧ s.pllrdy = true) ∨
        (s.fsm = .pllReady ∧ s'.fsm = .switching) ∨
        (s.fsm = .switching ∧ s'.fsm = .pllActive ∧ s'.op = .idle ∧ s.sws = s.cfg.codes.srcPll)))

/-- 41_clock_tree_init.md R129: PLL_ACTIVE is terminal but for block reset, and a second CLK_INIT with
the accepted request faults INIT_REPEATED there. -/
def Obligations.PllActiveIsTerminal : Prop :=
  (∀ (t : Turn) (s s' : State), s.fsm = .pllActive → takeTurn t s = .next s' →
    s'.fsm = .pllActive ∨ (s'.fsm = .internalClock ∧ ∃ h, t = .blockReset h)) ∧
  ∀ (s : State) (mul : BitVec 4), s.fsm = .pllActive → s.faulted = false → s.op = .idle →
    exec (.clkInit (s.cfg.codes.srcPll.setWidth 8) (s.cfg.codes.pllsrcHse.setWidth 8) mul) s =
      .next { s with
        faulted := true
        faultCode := 0x07#8
        faultCw := encodeCw (.clkInit (s.cfg.codes.srcPll.setWidth 8) (s.cfg.codes.pllsrcHse.setWidth 8) mul)
        faultDw := encodeCw
          (.clkInit (s.cfg.codes.srcPll.setWidth 8) (s.cfg.codes.pllsrcHse.setWidth 8) mul) }

/-- 41_clock_tree_init.md R139: in every run from INTERNAL_CLOCK, the step-4 write is preceded by a CTRL
poll of CR that saw PLLRDY = 1, with nothing but PLL_READY between the poll and the write. The rule is
the spec's own inference. -/
def Obligations.SwitchOnlyAfterPllLock : Prop :=
  ∀ (turns : Nat → Turn) (states : Nat → State) (n : Nat), IsRun turns states →
    (states 0).fsm = .internalClock → (states n).fsm = .pllReady → (states (n + 1)).fsm = .switching →
    ∃ m, m < n ∧ turns m = .ctrl ∧ (states m).fsm = .pllEnabling ∧ (states m).pllrdy = true ∧
      ∀ k, m < k → k ≤ n → (states k).fsm = .pllReady

/-- With a working oscillator and PLL, every fair run from an accepted CLK_INIT in which HOST leaves the
command in progress alone reaches PLL_ACTIVE without a fault (41_clock_tree_init.md R134, R135, the
spec's own inference). -/
def Obligations.FairRunsReachPllActive : Prop :=
  ∀ (s : State) (src pllSrc : Byte) (mul : BitVec 4) (turns : Nat → Turn) (states : Nat → State),
    SequencerInv s → s.cfg.hseWorks = true → s.cfg.pllLocks = true → s.faulted = false → s.op = .idle →
    exec (.clkInit src pllSrc mul) s = .next (states 0) → (states 0).op = .init →
    IsRun turns states → WeaklyFair turns states → (∀ n, quietWhileBusy (turns n) (states n) = true) →
    ∃ n, (states n).fsm = .pllActive ∧ (states n).op = .idle ∧ ∀ m ≤ n, (states m).faulted = false

/-- With a dead oscillator the poll of OSC_ENABLING, and with a PLL that never locks the poll of
PLL_ENABLING, never ends while HOST leaves the command in progress alone, and the block stays busy, so
that no such run ends (60_exceptions.md R207); a command other than RD then faults BUSY_VIOLATION
(41_clock_tree_init.md R135). That a dead clock's ready bit is clear is StepKeepsDeadClockInvariant. -/
def Obligations.DeadClockPollsForever : Prop :=
  (∀ (turns : Nat → Turn) (states : Nat → State), (states 0).cfg.wf = true → DeadClockInv (states 0) →
    IsRun turns states → (states 0).faulted = false → (states 0).op = .init →
    (∀ n, quietWhileBusy (turns n) (states n) = true) →
    ((states 0).fsm = .oscEnabling → (states 0).cfg.hseWorks = false →
      ∀ n, (states n).fsm = .oscEnabling ∧ (states n).busy = true ∧ ¬ RunEndsAt turns states n) ∧
    ((states 0).fsm = .pllEnabling → (states 0).cfg.pllLocks = false →
      ∀ n, (states n).fsm = .pllEnabling ∧ (states n).busy = true ∧ ¬ RunEndsAt turns states n)) ∧
  ∀ (s : State) (cw dw : Word) (i : Instr), s.busy = true → decode cw dw = .ok i → (∀ idx, i ≠ .rd idx) →
    hostIssue cw dw s =
      .next { s with faulted := true, faultCode := 0x02#8, faultCw := cw, faultDw := cw }

/-- 41_clock_tree_init.md R137: from block reset, after an accepted CLK_INIT and any CTRL and ENV steps
and HOST reads that bring the initializer to PLL_ACTIVE, the trace is exactly the four CTRL writes in
their order with the three ENV events between them, the last before the command ends; in the default
layout the step-4 value is c | 2. The rule is the spec's own inference; the switch value of another
layout is the model's reading of the rule's literals (log 17). -/
def Obligations.TraceOfOneClkInit : Prop :=
  (∀ (cfg : Config) (h : Byte) (mul : BitVec 4) (mid : List Turn) (s1 s2 : State) (c cr : Word),
    cfg.wf = true →
    exec (.clkInit (cfg.codes.srcPll.setWidth 8) (cfg.codes.pllsrcHse.setWidth 8) mul)
      (State.ofReset cfg h) = .next s1 →
    (∀ t ∈ mid, quietTurn cfg t = true) → runTurns mid s1 = .next s2 → s2.fsm = .pllActive →
    c = compose cfg.layout (cfg.codes.pllsrcHse.setWidth 8) mul → cr = (RegFile.reset cfg h).cr →
    s2.trace =
      [ ⟨.ctrl, .cfgr, .write, c, c⟩,
        ⟨.ctrl, .cr, .set, cfg.hseonMask, cr ||| cfg.hseonMask⟩,
        ⟨.env, .cr, .status, 0#32, cr ||| cfg.hseonMask ||| cfg.hserdyMask⟩,
        ⟨.ctrl, .cr, .set, cfg.pllonMask, cr ||| cfg.hseonMask ||| cfg.hserdyMask ||| cfg.pllonMask⟩,
        ⟨.env, .cr, .status, 0#32,
          cr ||| cfg.hseonMask ||| cfg.hserdyMask ||| cfg.pllonMask ||| cfg.pllrdyMask⟩,
        ⟨.ctrl, .cfgr, .write, switchValue cfg c, switchValue cfg c⟩,
        ⟨.env, .cfgr, .status, 0#32,
          switchValue cfg c ||| placeField cfg.layout.cfgrSws cfg.codes.srcPll⟩ ]) ∧
  ∀ (hw pl : Bool) (mul : BitVec 4), switchValue (Config.default hw pl) (compose Layout.default 1#8 mul) =
    compose Layout.default 1#8 mul ||| 0x00000002#32

/-! ### The clock hardware -/

/-- HSE_START: its condition and its effect, and the bit it sets in the default layout
(41_clock_tree_init.md R130). That a turn without the condition passes unchanged is the model's choice
(log 3). -/
def Obligations.HseStartStep : Prop :=
  (∀ hw pl : Bool, (Config.default hw pl).hseonMask = 0x00010000#32 ∧
    (Config.default hw pl).hserdyMask = 0x00020000#32) ∧
  ∀ s : State,
    (s.cfg.hseWorks = true → s.hseon = true → s.hserdy = false → takeTurn (.env .hseStart) s =
      .next { s with
        reg := s.reg.set .cr (s.reg.cr ||| s.cfg.hserdyMask)
        trace := s.trace ++ [⟨.env, .cr, .status, 0#32, s.reg.cr ||| s.cfg.hserdyMask⟩] }) ∧
    (s.cfg.hseWorks = false ∨ s.hseon = false ∨ s.hserdy = true → takeTurn (.env .hseStart) s = .next s)

/-- PLL_LOCK: its condition and its effect, and in the default layout the bit it sets and the two PLL
input codes (41_clock_tree_init.md R131). That a turn without the condition passes unchanged is the
model's choice (log 3). -/
def Obligations.PllLockStep : Prop :=
  (∀ hw pl : Bool, (Config.default hw pl).pllonMask = 0x01000000#32 ∧
    (Config.default hw pl).pllrdyMask = 0x02000000#32) ∧
  ClockCodes.default.pllsrcHse = 1#1 ∧ ClockCodes.default.pllsrcHsiDiv2 = 0#1 ∧
  ∀ s : State, s.cfg.wf = true →
    (s.cfg.pllLocks = true → s.pllon = true → s.pllrdy = false →
      (s.pllsrc = s.cfg.codes.pllsrcHse → s.hserdy = true) →
      (s.pllsrc = s.cfg.codes.pllsrcHsiDiv2 → s.hsirdy = true) →
      takeTurn (.env .pllLock) s =
        .next { s with
          reg := s.reg.set .cr (s.reg.cr ||| s.cfg.pllrdyMask)
          trace := s.trace ++ [⟨.env, .cr, .status, 0#32, s.reg.cr ||| s.cfg.pllrdyMask⟩] }) ∧
    (s.cfg.pllLocks = false ∨ s.pllon = false ∨ s.pllrdy = true ∨
      (s.pllsrc = s.cfg.codes.pllsrcHse ∧ s.hserdy = false) ∨
      (s.pllsrc = s.cfg.codes.pllsrcHsiDiv2 ∧ s.hsirdy = false) →
      takeTurn (.env .pllLock) s = .next s)

/-- CLOCK_SWITCH: it waits for the selected source and copies SW into SWS (41_clock_tree_init.md R132,
R133). In the default layout SW is bits 1:0 and SWS bits 3:2, and the sources are 00, 01 and 10. That a
turn without the condition passes unchanged is the model's choice (log 3). -/
def Obligations.ClockSwitchStep : Prop :=
  (Layout.default.cfgrSw = 0 ∧ Layout.default.cfgrSws = 2) ∧
  (ClockCodes.default.srcHsi = 0b00#2 ∧ ClockCodes.default.srcHse = 0b01#2 ∧
    ClockCodes.default.srcPll = 0b10#2) ∧
  ∀ s : State, s.cfg.wf = true →
    ((s.sw = s.cfg.codes.srcHsi ∧ s.hsirdy = true) ∨ (s.sw = s.cfg.codes.srcHse ∧ s.hserdy = true) ∨
        (s.sw = s.cfg.codes.srcPll ∧ s.pllrdy = true) →
      s.sws ≠ s.sw →
      ∃ v : Word, takeTurn (.env .clockSwitch) s =
          .next { s with reg := s.reg.set .cfgr v, trace := s.trace ++ [⟨.env, .cfgr, .status, 0#32, v⟩] } ∧
        v.extractLsb' s.cfg.layout.cfgrSws 2 = s.reg.cfgr.extractLsb' s.cfg.layout.cfgrSw 2 ∧
        v &&& ~~~ s.cfg.swsMask = s.reg.cfgr &&& ~~~ s.cfg.swsMask) ∧
    (s.sws = s.sw ∨ (s.sw = s.cfg.codes.srcHsi ∧ s.hsirdy = false) ∨
        (s.sw = s.cfg.codes.srcHse ∧ s.hserdy = false) ∨ (s.sw = s.cfg.codes.srcPll ∧ s.pllrdy = false) →
      takeTurn (.env .clockSwitch) s = .next s)

/-- What the ENV steps share (41_clock_tree_init.md R140). Their conditions do not look at `faulted` or
`op`; an enabled one changes only RO bits of one register, appends exactly one STATUS event and leaves
everything else; and a ready bit once set stays set until block reset. The last clause is the spec's own
inference from R130 to R133, R101 and R103. -/
def Obligations.CommonPropertiesOfEnv : Prop :=
  (∀ (k : EnvKind) (s : State) (f : Bool) (o : Op),
    envEnabled k { s with faulted := f, op := o } = envEnabled k s) ∧
  (∀ (k : EnvKind) (s : State), s.cfg.wf = true → envEnabled k s = true →
    ∃ (r : Reg) (v : Word), takeTurn (.env k) s =
        .next { s with reg := s.reg.set r v, trace := s.trace ++ [⟨.env, r, .status, 0#32, v⟩] } ∧
      v &&& ~~~ s.cfg.ro r = s.reg.get r &&& ~~~ s.cfg.ro r ∧
      (k ≠ .clockSwitch → r = .cr ∧ s.reg.get r &&& v = s.reg.get r) ∧
      (k = .clockSwitch → r = .cfgr ∧ getField s.cfg.layout.cfgrSws 2 v = s.sw)) ∧
  (∀ (t : Turn) (s s' : State), s.cfg.wf = true → (∀ h, t ≠ .blockReset h) → takeTurn t s = .next s' →
    (s.hserdy = true → s'.hserdy = true) ∧ (s.pllrdy = true → s'.pllrdy = true))

/-! ### Peripheral gating and reset -/

/-- 42_peripheral_gating.md R160, PERIPH_ENABLE in an idle block: exactly the gating bit is set, by one
CTRL event, and the command is complete; an identifier out of range faults. -/
def Obligations.PeriphEnableSetsTheGatingBit : Prop :=
  ∀ (s : State) (id : Byte), s.cfg.wf = true → s.faulted = false → s.op = .idle →
    (∀ p, s.cfg.registry[id.toNat]? = some p → exec (.periphEnable id) s =
      .next { s with
        reg := s.reg.set p.domain.enableReg (s.reg.get p.domain.enableReg ||| (1#32 <<< p.line))
        trace := s.trace ++ [⟨.ctrl, p.domain.enableReg, .set, 1#32 <<< p.line,
          s.reg.get p.domain.enableReg ||| (1#32 <<< p.line)⟩] }) ∧
    (s.cfg.registry.length ≤ id.toNat → exec (.periphEnable id) s =
      .next { s with faulted := true, faultCode := 0x08#8,
                     faultCw := 0x00000009#32 ||| (id.setWidth 32 <<< 8), faultDw := id.setWidth 32 })

/-- 42_peripheral_gating.md R161, PERIPH_RESET in an idle block: the reset bit is set and the clear is
pending; a peripheral of domain AHB and an identifier out of range fault before any register is
touched. -/
def Obligations.PeriphResetAssertsTheResetBit : Prop :=
  ∀ (s : State) (id : Byte), s.cfg.wf = true → s.faulted = false → s.op = .idle →
    (∀ p r, s.cfg.registry[id.toNat]? = some p → (p.domain = .apb1 ∧ r = .apb1rstr) ∨
        (p.domain = .apb2 ∧ r = .apb2rstr) →
      exec (.periphReset id) s =
        .next { s with
          reg := s.reg.set r (s.reg.get r ||| (1#32 <<< p.line))
          trace := s.trace ++ [⟨.ctrl, r, .set, 1#32 <<< p.line, s.reg.get r ||| (1#32 <<< p.line)⟩]
          rstReg := r
          rstMask := 1#32 <<< p.line
          op := .resetClr }) ∧
    (∀ p, s.cfg.registry[id.toNat]? = some p → p.domain = .ahb → exec (.periphReset id) s =
      .next { s with faulted := true, faultCode := 0x09#8,
                     faultCw := 0x0000000A#32 ||| (id.setWidth 32 <<< 8), faultDw := id.setWidth 32 }) ∧
    (s.cfg.registry.length ≤ id.toNat → exec (.periphReset id) s =
      .next { s with faulted := true, faultCode := 0x08#8,
                     faultCw := 0x0000000A#32 ||| (id.setWidth 32 <<< 8), faultDw := id.setWidth 32 })

/-- The CTRL step at `op = RESET_CLR` clears the pending line in the pending register, ends the command
and cannot fault (42_peripheral_gating.md R162). -/
def Obligations.ResetPulseEndsWithTheClear : Prop :=
  ∀ s : State, SequencerInv s → s.faulted = false → s.op = .resetClr →
    takeTurn .ctrl s =
      .next { s with
        reg := s.reg.set s.rstReg (s.reg.get s.rstReg &&& ~~~ s.rstMask)
        trace := s.trace ++ [⟨.ctrl, s.rstReg, .clear, s.rstMask, s.reg.get s.rstReg &&& ~~~ s.rstMask⟩]
        op := .idle }

/-- 42_peripheral_gating.md R163, all six items: an enable sets exactly its bit and is idempotent; after
a completed reset the bit is 0, the trace holds the pulse with only ENV events inside it and no enable
register has changed; and no two identifiers touch the same bit. The spec infers them from R160 to
R162. -/
def Obligations.LawsOfGatingAndReset : Prop :=
  (∀ (s s' : State) (id : Byte) (p : PeriphDesc), s.cfg.wf = true → s.faulted = false → s.op = .idle →
    s.cfg.registry[id.toNat]? = some p → exec (.periphEnable id) s = .next s' →
    s'.faulted = false ∧ flag p.line (s'.reg.get p.domain.enableReg) = true ∧
    (∀ r n, ¬ (r = p.domain.enableReg ∧ n = p.line) → flag n (s'.reg.get r) = flag n (s.reg.get r)) ∧
    ∃ e, s'.trace = s.trace ++ [e] ∧
      ∃ s'', exec (.periphEnable id) s' = .next s'' ∧ s''.reg = s'.reg ∧ s''.trace = s.trace ++
        [e, ⟨.ctrl, p.domain.enableReg, .set, 1#32 <<< p.line, s'.reg.get p.domain.enableReg⟩]) ∧
  (∀ (s s1 s2 s3 : State) (id : Byte) (p : PeriphDesc) (r : Reg) (mid : List Turn), s.cfg.wf = true →
    s.faulted = false → s.op = .idle → s.cfg.registry[id.toNat]? = some p → p.domain.resetReg = some r →
    exec (.periphReset id) s = .next s1 → (∀ t ∈ mid, betweenTurn s.cfg t = true) →
    runTurns mid s1 = .next s2 → takeTurn .ctrl s2 = .next s3 →
    s3.faulted = false ∧ s3.op = .idle ∧ flag p.line (s3.reg.get r) = false ∧
    (∀ d : Domain, s3.reg.get d.enableReg = s.reg.get d.enableReg) ∧
    ∃ v1 v2 evs, s3.trace = s.trace ++ [⟨.ctrl, r, .set, 1#32 <<< p.line, v1⟩] ++ evs ++
        [⟨.ctrl, r, .clear, 1#32 <<< p.line, v2⟩] ∧
      (∀ e ∈ evs, e.agent = .env) ∧ flag p.line v1 = true ∧ flag p.line v2 = false) ∧
  (∀ (c : Config) (i j : Nat) (p q : PeriphDesc), c.wf = true → c.registry[i]? = some p →
    c.registry[j]? = some q → i ≠ j → p.domain = q.domain →
    (1#32 <<< p.line) &&& (1#32 <<< q.line) = 0#32)

/-! ### The prescaler -/

/-- 43_prescaler.md R180, PRESCALER_SET in an idle block: the read half latches the new value and writes
no register; the two faults come in their order. -/
def Obligations.PrescalerReadHalf : Prop :=
  ∀ (s : State) (sel : Byte) (d : Word), s.faulted = false → s.op = .idle →
    (5 ≤ sel.toNat → exec (.prescalerSet sel d) s =
      .next { s with faulted := true, faultCode := 0x0A#8,
                     faultCw := 0x0000000B#32 ||| (sel.setWidth 32 <<< 8), faultDw := sel.setWidth 32 }) ∧
    ∀ q : PrescSel, sel.toNat = q.code →
      (d &&& ~~~ s.cfg.prescMask q ≠ 0#32 → exec (.prescalerSet sel d) s =
        .next { s with faulted := true, faultCode := 0x0B#8,
                       faultCw := 0x0000000B#32 ||| (sel.setWidth 32 <<< 8), faultDw := d }) ∧
      (d &&& ~~~ s.cfg.prescMask q = 0#32 → exec (.prescalerSet sel d) s =
        .next { s with
          prescVal := (s.reg.cfgr &&& ~~~ s.cfg.prescMask q) ||| d
          op := .prescWr })

/-- The write half stores the latched value but for SWS, which keeps what ENV put there, ends the command
and cannot fault (43_prescaler.md R181). That it cannot fault is the rule's own inference. -/
def Obligations.PrescalerWriteHalf : Prop :=
  ∀ s : State, SequencerInv s → s.faulted = false → s.op = .prescWr →
    takeTurn .ctrl s =
      .next { s with
        reg := s.reg.set .cfgr ((s.reg.cfgr &&& s.cfg.swsMask) ||| (s.prescVal &&& ~~~ s.cfg.swsMask))
        trace := s.trace ++ [⟨.ctrl, .cfgr, .write, s.prescVal,
          (s.reg.cfgr &&& s.cfg.swsMask) ||| (s.prescVal &&& ~~~ s.cfg.swsMask)⟩]
        op := .idle }

/-- 43_prescaler.md R183: a completed PRESCALER_SET installs the divider in its field and leaves the rest
of CFGR unchanged apart from SWS, whatever ENV steps and reads come between its two halves. The spec
infers the law from R180 and R181. -/
def Obligations.PrescalerChangesOnlyItsField : Prop :=
  ∀ (s s1 s2 s3 : State) (sel : Byte) (q : PrescSel) (d : Word) (mid : List Turn), RegisterInv s →
    s.faulted = false → s.op = .idle → sel.toNat = q.code → d &&& ~~~ s.cfg.prescMask q = 0#32 →
    exec (.prescalerSet sel d) s = .next s1 → (∀ t ∈ mid, betweenTurn s.cfg t = true) →
    runTurns mid s1 = .next s2 → takeTurn .ctrl s2 = .next s3 →
    s3.faulted = false ∧ s3.op = .idle ∧
    s3.reg.cfgr &&& ~~~ (s.cfg.prescMask q ||| s.cfg.swsMask) =
      s.reg.cfgr &&& ~~~ (s.cfg.prescMask q ||| s.cfg.swsMask) ∧
    s3.reg.cfgr &&& s.cfg.swsMask = s2.reg.cfgr &&& s.cfg.swsMask ∧
    s3.reg.cfgr &&& s.cfg.prescMask q = d

/-! ### Reset, status, trace and invariants -/

/-- 10_state.md R45: block reset sets every component of the state record, whatever was in progress, for
every calibration byte drawn. -/
def Obligations.BlockResetSetsEveryComponent : Prop :=
  (∀ (h : Byte) (s : State), takeTurn (.blockReset h) s =
    .next
      { reg :=
          { cr := s.cfg.resetCr ||| (h.setWidth 32 <<< s.cfg.layout.crHsical)
            cfgr := 0#32
            apb2rstr := 0#32
            apb1rstr := 0#32
            ahbenr := s.cfg.resetAhbenr
            apb2enr := 0#32
            apb1enr := 0#32 }
        fsm := .internalClock
        op := .idle
        cfgLatch := 0#32
        rstReg := .apb1rstr
        rstMask := 0#32
        prescVal := 0#32
        rspData := 0#32
        faulted := false
        faultCode := 0#8
        faultCw := 0#32
        faultDw := 0#32
        trace := []
        cfg := s.cfg
        agenda := s.agenda
        draws := s.draws }) ∧
  (∀ hw pl : Bool, (Config.default hw pl).resetCr = 0x00000083#32 ∧
    (Config.default hw pl).layout.crHsical = 8 ∧ (Config.default hw pl).resetAhbenr = 0x00000014#32)

/-- The status port (10_state.md R42, R44): `busy = (op != IDLE) and not faulted`, and the five stored
values. -/
def Obligations.StatusPortValues : Prop :=
  ∀ s : State,
    (s.statusPort.busy = true ↔ s.op ≠ .idle ∧ s.faulted = false) ∧
    s.statusPort.faulted = s.faulted ∧ s.statusPort.faultCode = s.faultCode ∧
    s.statusPort.faultCw = s.faultCw ∧ s.statusPort.faultDw = s.faultDw ∧
    s.statusPort.rspData = s.rspData

/-- Only an RD, or block reset, writes `rsp_data` (10_state.md R44). -/
def Obligations.OnlyReadsWriteRspData : Prop :=
  ∀ (t : Turn) (s s' : State), (∀ h, t ≠ .blockReset h) → takeTurn t s = .next s' →
    (∀ cw dw idx, t = .host cw dw → decode cw dw ≠ .ok (.rd idx)) → s'.rspData = s.rspData

/-- Every turn but block reset leaves registers and trace alone, or stores one register and appends the
one event that says so, by the agent that moved (10_state.md R41, 40_register_access.md R100). -/
def Obligations.EveryRegisterChangeIsInTheTrace : Prop :=
  ∀ (t : Turn) (s s' : State), (∀ h, t ≠ .blockReset h) → takeTurn t s = .next s' →
    (s'.reg = s.reg ∧ s'.trace = s.trace) ∨
    ∃ e : Event, s'.reg = s.reg.set e.reg e.value ∧ s'.trace = s.trace ++ [e] ∧
      (e.agent = .env ↔ ∃ k, t = .env k) ∧
      (e.kind = .status ↔ e.agent = .env) ∧ (e.kind = .status → e.operand = 0#32) ∧
      (e.agent = .host ↔ ∃ cw dw idx v, t = .host cw dw ∧
        (decode cw dw = .ok (.wr idx v) ∨ decode cw dw = .ok (.set idx v) ∨
          decode cw dw = .ok (.clr idx v)))

/-- The registers hold what the trace says they hold, from the reset values on: every step keeps this
(10_state.md R41). -/
def Obligations.StepKeepsTraceMirror : Prop :=
  ∀ s s' : State, TraceMirrors s → step s = .next s' → TraceMirrors s'

/-- 10_state.md R46, with the fault record of R40: the invariant of the control state holds at reset and
every step keeps it, and a fault keeps `op` and `fsm`. The spec infers R46 from R45 and R121 to R129. -/
def Obligations.StepKeepsControlInvariant : Prop :=
  (∀ (cfg : Config) (h : Byte), ControlInv (State.ofReset cfg h)) ∧
  (∀ s s' : State, ControlInv s → step s = .next s' → ControlInv s') ∧
  ∀ s s' : State, s.faulted = false → step s = .next s' → s'.faulted = true →
    s'.op = s.op ∧ s'.fsm = s.fsm

/-- Every step keeps the register invariant: U bits, HSIRDY, the legal SW and SWS, and ready bits only
with their enables (10_state.md R29, R42, 40_register_access.md R110, 41_clock_tree_init.md R140). -/
def Obligations.StepKeepsRegisterInvariant : Prop :=
  ∀ s s' : State, RegisterInv s → step s = .next s' → RegisterInv s'

/-- Every step keeps the whole invariant of the sequencer: what the initializer has done by each of its
states and what a pending CTRL step's latches hold (41_clock_tree_init.md R120 to R128, 10_state.md
R38). -/
def Obligations.StepKeepsSequencerInvariant : Prop :=
  ∀ s s' : State, SequencerInv s → step s = .next s' → SequencerInv s'

/-- Under the invariant no CTRL step raises a fault (60_exceptions.md R192). -/
def Obligations.CtrlNeverFaults : Prop :=
  ∀ s s' : State, SequencerInv s → takeTurn .ctrl s = .next s' → s'.faulted = s.faulted

/-- The state after block reset meets every invariant, under every well-formed configuration and for
every calibration byte; so does the state the model starts from (log 5, 6). -/
def Obligations.ResetMeetsEveryInvariant : Prop :=
  (∀ (cfg : Config) (h : Byte), cfg.wf = true →
    SequencerInv (State.ofReset cfg h) ∧ DeadClockInv (State.ofReset cfg h) ∧
      TraceMirrors (State.ofReset cfg h)) ∧
  SequencerInv State.reset ∧ DeadClockInv State.reset

/-- In a state that is final but for what HOST does, no CTRL or ENV turn changes anything, so the
observation is what the run leaves (60_exceptions.md R207). That a turn of an agent without a step
passes unchanged, where the rules give it no step, is the model's choice (log 3). -/
def Obligations.FinalStateIsStable : Prop :=
  ∀ s : State, quiescent s = true →
    takeTurn .ctrl s = .next s ∧ ∀ k, takeTurn (.env k) s = .next s

/-- The four bytes from `RCC_BASE + OFF(r)` on are the bytes of r, the least significant first, where r is
in scope, and no bytes where it is one of the three registers that are not modelled (20_memory.md R61 to
R63). In the default layout `OFF(r)` is four times the index, and the three have the indices 2, 8 and 9
(00_scope.md R9). The byte order is R63's general knowledge (log 15). -/
def Obligations.WindowHoldsTheRegisters : Prop :=
  (∀ (s : State) (r : Reg) (k : Nat), s.cfg.wf = true → k < 4 →
    windowByte s (s.cfg.rccBase.toNat + s.cfg.off (.modelled r) + k) =
      some ((s.reg.get r).extractLsb' (8 * k) 8)) ∧
  (∀ (s : State) (u : UnmodelledReg) (k : Nat), s.cfg.wf = true → k < 4 →
    windowByte s (s.cfg.rccBase.toNat + s.cfg.off (.unmodelled u) + k) = none) ∧
  ∀ hw pl : Bool, (Config.default hw pl).rccBase = 0x40021000#32 ∧
    (∀ r, (Config.default hw pl).off (.modelled r) = 4 * (Config.default hw pl).index r) ∧
    (Config.default hw pl).off (.unmodelled .cir) = 4 * 2 ∧
    (Config.default hw pl).off (.unmodelled .bdcr) = 4 * 8 ∧
    (Config.default hw pl).off (.unmodelled .csr) = 4 * 9

/-- Every step, a block reset among them, keeps the ready bit of a clock that never becomes ready clear:
HSERDY with HSE_WORKS false, PLLRDY with PLL_LOCKS false (41_clock_tree_init.md R130, R131, R135,
10_state.md R43). -/
def Obligations.StepKeepsDeadClockInvariant : Prop :=
  ∀ s s' : State, DeadClockInv s → step s = .next s' → DeadClockInv s'

/-- HOST's duty (60_exceptions.md R205, R206): a command that breaks it faults, BUSY_VIOLATION or, with no
legal encoding, ILLEGAL_COMMAND, and has no other effect; and no turn that keeps it raises
BUSY_VIOLATION. -/
def Obligations.OnlyABreachOfDutyIsABusyViolation : Prop :=
  (∀ (cw dw : Word) (s : State), keepsDuty (.host cw dw) s = false →
    ((∃ i, decode cw dw = .ok i) → hostIssue cw dw s =
      .next { s with faulted := true, faultCode := 0x02#8, faultCw := cw, faultDw := cw }) ∧
    ((∀ i, decode cw dw ≠ .ok i) → hostIssue cw dw s =
      .next { s with faulted := true, faultCode := 0x01#8, faultCw := cw, faultDw := cw })) ∧
  ∀ (t : Turn) (s s' : State), s.faulted = false → keepsDuty t s = true → takeTurn t s = .next s' →
    s'.faulted = true → s'.faultCode ≠ 0x02#8

/-- The end of a run (60_exceptions.md R207): from the state in which a run ends on, nothing changes; a
step of another agent than HOST keeps a final state final and its observation; and the CTRL step that
brings the initializer to PLL_ACTIVE leaves no ENV step enabled, so that the run ends there if HOST is
done. That a run that ends has further turns, which pass unchanged, is the model's choice (log 3, 22). -/
def Obligations.EndOfARunIsFinal : Prop :=
  (∀ (turns : Nat → Turn) (states : Nat → State) (n m : Nat), RunEndsAt turns states n → n ≤ m →
    states m = states n) ∧
  (∀ s s' : State, finalState s = true → byHost (nextTurn s) = false → step s = .next s' →
    finalState s' = true ∧ s'.observation = s.observation) ∧
  ∀ s s' : State, SequencerInv s → s.fsm = .switching → takeTurn .ctrl s = .next s' →
    s'.fsm = .pllActive → quiescent s' = true
end

