-- ==== Sys2Proof/Laws/Bits.lean ====
section
/-! SUPPORT. The bits of the field helpers of Machine/Layout.lean, one lemma for each, and what
disjoint masks give. -/

namespace Sys2Proof

theorem getLsbD_bit (n i : Nat) : (bit n).getLsbD i = (decide (i < 32) && decide (i = n)) := by
  simp only [bit, BitVec.getLsbD_shiftLeft, BitVec.getLsbD_one]
  by_cases hi : i < 32
  · by_cases hn : i = n
    · simp [hn]
    · simp [hi, hn]
      omega
  · simp [hi]

theorem getLsbD_fieldMask (lo width i : Nat) :
    (fieldMask lo width).getLsbD i = (decide (i < 32) && decide (lo ≤ i) && decide (i < lo + width)) := by
  simp only [fieldMask, BitVec.getLsbD_shiftLeft, BitVec.getLsbD_ofNat, Nat.testBit_two_pow_sub_one]
  by_cases h1 : i < 32 <;> by_cases h2 : lo ≤ i <;> by_cases h3 : i < lo + width <;>
    simp [h1, h2, h3] <;> omega

theorem getLsbD_getField (lo width : Nat) (v : Word) (i : Nat) :
    (getField lo width v).getLsbD i = (decide (i < width) && v.getLsbD (lo + i)) := by
  simp [getField, BitVec.getLsbD_extractLsb']

theorem getLsbD_placeField {width : Nat} (lo : Nat) (x : BitVec width) (i : Nat) :
    (placeField lo x).getLsbD i = (decide (i < 32) && decide (lo ≤ i) && x.getLsbD (i - lo)) := by
  simp only [placeField, BitVec.getLsbD_shiftLeft, BitVec.getLsbD_setWidth]
  by_cases h1 : i < 32
  · by_cases h2 : lo ≤ i
    · simp [h1, h2, show i - lo < 32 by omega]
    · simp [h1, h2]
  · simp [h1]

theorem getLsbD_putField {width : Nat} (lo : Nat) (x : BitVec width) (v : Word) (i : Nat) :
    (putField lo x v).getLsbD i =
      if i < 32 ∧ lo ≤ i ∧ i < lo + width then x.getLsbD (i - lo) else v.getLsbD i := by
  simp only [putField, BitVec.getLsbD_or, BitVec.getLsbD_and, BitVec.getLsbD_not, getLsbD_fieldMask,
    getLsbD_placeField]
  by_cases h1 : i < 32
  · by_cases h2 : lo ≤ i
    · by_cases h3 : i < lo + width
      · simp [h1, h2, h3]
      · simp [h1, h2, h3, BitVec.getLsbD_of_ge x (i - lo) (by omega)]
    · simp [h1, h2]
  · simp [h1, BitVec.getLsbD_of_ge v i (by omega)]

/-- Two masks that share no bit. -/
theorem disjoint_bits {a b : Word} (h : a &&& b = 0#32) (i : Nat) : (a.getLsbD i && b.getLsbD i) = false := by
  rw [← BitVec.getLsbD_and, h]
  simp

theorem and_eq_zero_iff (a b : Word) : a &&& b = 0#32 ↔ ∀ i, (a.getLsbD i && b.getLsbD i) = false := by
  constructor
  · exact disjoint_bits
  · intro h
    refine BitVec.eq_of_getLsbD_eq fun i hi => ?_
    simpa using h i

/-- Reading the field that was put gives what was put, where the field lies in the word. -/
theorem getField_putField {width : Nat} (lo : Nat) (x : BitVec width) (v : Word) (h : lo + width ≤ 32) :
    getField lo width (putField lo x v) = x := by
  refine BitVec.eq_of_getLsbD_eq fun i hi => ?_
  rw [getLsbD_getField, getLsbD_putField, if_pos (by omega)]
  simp [hi]

/-- Putting a field leaves a field with a disjoint mask as it was. -/
theorem getField_congr {lo width : Nat} {v w : Word} (h : lo + width ≤ 32)
    (hm : v &&& fieldMask lo width = w &&& fieldMask lo width) : getField lo width v = getField lo width w := by
  refine BitVec.eq_of_getLsbD_eq fun i hi => ?_
  have := congrArg (·.getLsbD (lo + i)) hm
  simp only [BitVec.getLsbD_and, getLsbD_fieldMask] at this
  rw [getLsbD_getField, getLsbD_getField]
  simpa [hi, show lo + i < 32 by omega] using this

/-- A flag is the bit of its mask. -/
theorem flag_congr {n : Nat} {v w : Word} (h : v &&& bit n = w &&& bit n) : flag n v = flag n w := by
  have := congrArg (·.getLsbD n) h
  simp only [BitVec.getLsbD_and, getLsbD_bit] at this
  by_cases hn : n < 32
  · simpa [flag, hn] using this
  · simp [flag, BitVec.getLsbD_of_ge _ n (by omega : 32 ≤ n)]

/-- The mask of a list of masks has a bit when one of them does. -/
theorem getLsbD_orAll (ms : List Word) (i : Nat) : (orAll ms).getLsbD i = ms.any (·.getLsbD i) := by
  induction ms with
  | nil => simp [orAll]
  | cons m ms ih => simp [orAll, ih]

/-- The lines of a domain have a bit when some entry of the domain has that line. -/
theorem getLsbD_linesOf (d : Domain) (ps : List PeriphDesc) (i : Nat) :
    (linesOf d ps).getLsbD i = ps.any fun p => decide (p.domain = d) && (bit p.line).getLsbD i := by
  induction ps with
  | nil => simp [linesOf]
  | cons p ps ih =>
    by_cases h : p.domain = d <;> simp [linesOf, h, ih]

/-- A mask inside another, bit by bit. -/
theorem subset_bits {a b : Word} (h : a &&& b = a) {i : Nat} (ha : a.getLsbD i = true) :
    b.getLsbD i = true := by
  have := congrArg (·.getLsbD i) h
  simpa [ha] using this

theorem subset_of_bits {a b : Word} (h : ∀ i, a.getLsbD i = true → b.getLsbD i = true) : a &&& b = a := by
  refine BitVec.eq_of_getLsbD_eq fun i hi => ?_
  have := h i
  cases ha : a.getLsbD i <;> simp_all

theorem flag_or (n : Nat) (v w : Word) : flag n (v ||| w) = (flag n v || flag n w) := by simp [flag]

theorem flag_bit (n m : Nat) (h : n < 32) : flag n (bit m) = decide (n = m) := by
  simp only [flag, getLsbD_bit, h, decide_true, Bool.true_and]

theorem flag_and_not_bit (n m : Nat) (v : Word) (h : n ≠ m) : flag n (v &&& ~~~ bit m) = flag n v := by
  by_cases hn : n < 32
  · simp only [flag, BitVec.getLsbD_and, BitVec.getLsbD_not, getLsbD_bit, hn, h, decide_true,
      decide_false, Bool.and_false, Bool.not_false, Bool.and_true]
  · simp [flag, BitVec.getLsbD_of_ge v n (by omega)]

end Sys2Proof
end

