-- ==== Sys2Proof/Laws/Config.lean ====
section
/-! SUPPORT. What a well-formed configuration gives: field ranges, disjoint fields, the three bit
classes, distinct register indices and distinct control bits. -/

namespace Sys2Proof

theorem allDistinct_iff {α : Type} [DecidableEq α] (xs : List α) : allDistinct xs = true ↔ xs.Nodup := by
  induction xs with
  | nil => simp [allDistinct]
  | cons x xs ih => simp [allDistinct, ih]

theorem masksDisjoint_iff (ms : List Word) :
    masksDisjoint ms = true ↔ ms.Pairwise fun a b => a &&& b = 0#32 := by
  induction ms with
  | nil => simp [masksDisjoint]
  | cons m ms ih => simp [masksDisjoint, ih]

namespace Config

variable {c : Config}

theorem wf_parts (h : c.wf = true) :
    c.linesInRange = true ∧ c.linesUnique = true ∧ c.indicesOk = true ∧ c.layout.inRange = true ∧
      c.fieldsDisjoint = true ∧ c.codesOk = true ∧ c.resetCrOk = true ∧ c.offsetsOk = true := by
  simpa [wf, Bool.and_eq_true, and_assoc] using h

theorem line_lt (h : c.wf = true) {p : PeriphDesc} (hp : p ∈ c.registry) : p.line < 32 := by
  have := (wf_parts h).1
  simp only [linesInRange, List.all_eq_true, decide_eq_true_eq] at this
  exact this p hp

/-- Two identifiers with one control bit are one identifier (10_state.md R34). -/
theorem line_unique (h : c.wf = true) {i j : Nat} {p q : PeriphDesc} (hi : c.registry[i]? = some p)
    (hj : c.registry[j]? = some q) (hd : p.domain = q.domain) (hl : p.line = q.line) : i = j := by
  have hu := (allDistinct_iff _).1 (wf_parts h).2.1
  obtain ⟨hi', hpi⟩ := List.getElem?_eq_some_iff.1 hi
  obtain ⟨hj', hqj⟩ := List.getElem?_eq_some_iff.1 hj
  refine (List.Nodup.getElem_inj_iff hu (hi := by simpa using hi') (hj := by simpa using hj')).1 ?_
  simp [hpi, hqj, hd, hl]

theorem index_inj (h : c.wf = true) {r q : Reg} (hrq : c.index r = c.index q) : r = q := by
  have := (wf_parts h).2.2.1
  simp only [indicesOk, Bool.and_eq_true] at this
  have hd := (allDistinct_iff _).1 this.1
  simp only [Reg.all, List.map_cons, List.map_nil, List.nodup_cons, List.mem_cons, not_or,
    List.not_mem_nil] at hd
  cases r <;> cases q <;> simp_all

theorem index_lt (h : c.wf = true) (r : Reg) : c.index r < c.nRegIdx := by
  have := (wf_parts h).2.2.1
  simp only [indicesOk, Bool.and_eq_true, List.all_eq_true, decide_eq_true_eq] at this
  exact (this.2 r (by cases r <;> simp [Reg.all])).1

theorem index_lt_256 (h : c.wf = true) (r : Reg) : c.index r < 256 := by
  have := (wf_parts h).2.2.1
  simp only [indicesOk, Bool.and_eq_true, List.all_eq_true, decide_eq_true_eq] at this
  exact (this.2 r (by cases r <;> simp [Reg.all])).2

theorem offsetsApart_iff (os : List Nat) :
    offsetsApart os = true ↔ os.Pairwise fun o p => o + 4 ≤ p ∨ p + 4 ≤ o := by
  induction os with
  | nil => simp [offsetsApart]
  | cons o os ih => simp [offsetsApart, ih]

/-- A byte offset lies in at most one register (20_memory.md R61). -/
theorem off_unique (h : c.wf = true) {v w : WindowReg} {d : Nat} (hv : c.off v ≤ d ∧ d < c.off v + 4)
    (hw : c.off w ≤ d ∧ d < c.off w + 4) : v = w := by
  have hp := (offsetsApart_iff _).1 (wf_parts h).2.2.2.2.2.2.2
  rw [List.pairwise_map] at hp
  by_contra hne
  have hall : ∀ x : WindowReg, x ∈ WindowReg.all := by
    rintro (r | u)
    · cases r <;> decide
    · cases u <;> decide
  have : Std.Symm fun a b : WindowReg => c.off a + 4 ≤ c.off b ∨ c.off b + 4 ≤ c.off a := ⟨fun _ _ => Or.symm⟩
  have := hp.forall (hall v) (hall w) hne
  omega

theorem range (h : c.wf = true) :
    c.layout.crHsirdy < 32 ∧ c.layout.crHsical + 8 ≤ 32 ∧ c.layout.crHseon < 32 ∧
      c.layout.crHserdy < 32 ∧ c.layout.crPllon < 32 ∧ c.layout.crPllrdy < 32 ∧
      c.layout.cfgrSw + 2 ≤ 32 ∧ c.layout.cfgrSws + 2 ≤ 32 ∧ c.layout.cfgrPllsrc < 32 ∧
      c.layout.cfgrPllmul + 4 ≤ 32 := by
  have := (wf_parts h).2.2.2.1
  simpa [Layout.inRange, Bool.and_eq_true, and_assoc] using this

theorem crDisjoint (h : c.wf = true) :
    (c.crWritable ++ c.crReadOnly).Pairwise fun a b => a &&& b = 0#32 := by
  have := (wf_parts h).2.2.2.2.1
  simp only [fieldsDisjoint, Bool.and_eq_true] at this
  exact (masksDisjoint_iff _).1 this.1

theorem cfgrDisjoint (h : c.wf = true) :
    (c.cfgrWritable ++ c.cfgrReadOnly).Pairwise fun a b => a &&& b = 0#32 := by
  have := (wf_parts h).2.2.2.2.1
  simp only [fieldsDisjoint, Bool.and_eq_true] at this
  exact (masksDisjoint_iff _).1 this.2

theorem codes_facts (h : c.wf = true) :
    c.codes.srcHsi = 0#2 ∧ c.codes.srcHse ≠ 0#2 ∧ c.codes.srcPll ≠ 0#2 ∧ c.codes.srcHse ≠ c.codes.srcPll ∧
      c.codes.srcHse ≠ 3#2 ∧ c.codes.srcPll ≠ 3#2 ∧ c.codes.pllsrcHsiDiv2 ≠ c.codes.pllsrcHse := by
  have := (wf_parts h).2.2.2.2.2.1
  simp only [codesOk, Bool.and_eq_true, bne_iff_ne, beq_iff_eq, allDistinct_iff, List.nodup_cons,
    List.mem_cons, List.not_mem_nil, not_or] at this
  obtain ⟨⟨⟨⟨h1, h2, -⟩, ⟨h3, h4, -⟩, ⟨h5, -⟩, -⟩, h6⟩, h7⟩ := this
  rw [h7] at h1 h2
  exact ⟨h7, fun h => h1 h.symm, fun h => h2 h.symm, h3, h4, h5, h6⟩

/-- A mask of a list lies inside the OR of the list. -/
theorem subset_orAll {m : Word} {ms : List Word} (h : m ∈ ms) : m &&& orAll ms = m := by
  refine subset_of_bits fun i hi => ?_
  rw [getLsbD_orAll, List.any_eq_true]
  exact ⟨m, h, hi⟩

/-- A mask that shares no bit with any of a list shares none with their OR. -/
theorem disjoint_orAll {m : Word} {ms : List Word} (h : ∀ x ∈ ms, m &&& x = 0#32) :
    m &&& orAll ms = 0#32 := by
  rw [and_eq_zero_iff]
  intro i
  rw [getLsbD_orAll]
  cases hm : m.getLsbD i
  · simp
  · simp only [Bool.true_and, List.any_eq_false]
    intro x hx hxi
    have := disjoint_bits (h x hx) i
    simp [hm, hxi] at this

theorem hseon_wm (c : Config) : c.hseonMask &&& c.wm .cr = c.hseonMask :=
  subset_orAll (by simp [crWritable])

theorem pllon_wm (c : Config) : c.pllonMask &&& c.wm .cr = c.pllonMask :=
  subset_orAll (by simp [crWritable])

theorem sw_wm (c : Config) : c.swMask &&& c.wm .cfgr = c.swMask := subset_orAll (by simp [cfgrWritable])

theorem pllsrc_wm (c : Config) : bit c.layout.cfgrPllsrc &&& c.wm .cfgr = bit c.layout.cfgrPllsrc :=
  subset_orAll (by simp [cfgrWritable])

theorem pllmul_wm (c : Config) :
    fieldMask c.layout.cfgrPllmul 4 &&& c.wm .cfgr = fieldMask c.layout.cfgrPllmul 4 :=
  subset_orAll (by simp [cfgrWritable])

theorem presc_wm (c : Config) (s : PrescSel) : c.prescMask s &&& c.wm .cfgr = c.prescMask s :=
  subset_orAll (by cases s <;> simp [cfgrWritable, prescMask])

theorem sws_ro (c : Config) : c.swsMask &&& c.ro .cfgr = c.swsMask := subset_orAll (by simp [cfgrReadOnly])

theorem hsirdy_ro (c : Config) : bit c.layout.crHsirdy &&& c.ro .cr = bit c.layout.crHsirdy :=
  subset_orAll (by simp [crReadOnly])

theorem hserdy_ro (c : Config) : c.hserdyMask &&& c.ro .cr = c.hserdyMask :=
  subset_orAll (by simp [crReadOnly])

theorem pllrdy_ro (c : Config) : c.pllrdyMask &&& c.ro .cr = c.pllrdyMask :=
  subset_orAll (by simp [crReadOnly])

theorem hsical_ro (c : Config) : fieldMask c.layout.crHsical 8 &&& c.ro .cr = fieldMask c.layout.crHsical 8 :=
  subset_orAll (by simp [crReadOnly])

/-- A line of the registry lies in the mask of its domain. -/
theorem line_lines {p : PeriphDesc} (hp : p ∈ c.registry) : bit p.line &&& c.lines p.domain = bit p.line := by
  refine subset_of_bits fun i hi => ?_
  rw [lines, getLsbD_linesOf, List.any_eq_true]
  exact ⟨p, hp, by simp [hi]⟩

theorem line_enable_wm {p : PeriphDesc} (hp : p ∈ c.registry) :
    bit p.line &&& c.wm p.domain.enableReg = bit p.line := by
  have := line_lines hp
  cases hd : p.domain <;> simpa [hd, Domain.enableReg, wm] using this

theorem line_reset_wm {p : PeriphDesc} (hp : p ∈ c.registry) {r : Reg} (hr : p.domain.resetReg = some r) :
    bit p.line &&& c.wm r = bit p.line := by
  have := line_lines hp
  cases hd : p.domain <;> simp only [hd, Domain.resetReg, Option.some.injEq, reduceCtorEq] at hr
  all_goals subst hr; simpa [hd, wm] using this

theorem pairwise_append_disjoint {xs ys : List Word}
    (h : (xs ++ ys).Pairwise fun a b => a &&& b = 0#32) : orAll xs &&& orAll ys = 0#32 := by
  rw [List.pairwise_append] at h
  refine disjoint_orAll fun y hy => ?_
  rw [BitVec.and_comm]
  exact disjoint_orAll fun x hx => by rw [BitVec.and_comm]; exact h.2.2 x hx y hy

/-- `WM` and `RO` share no bit (10_state.md R25). -/
theorem wm_ro (h : c.wf = true) (r : Reg) : c.wm r &&& c.ro r = 0#32 := by
  cases r
  case cr => exact pairwise_append_disjoint (crDisjoint h)
  case cfgr => exact pairwise_append_disjoint (cfgrDisjoint h)
  all_goals simp [ro]

/-- `U` shares no bit with `WM` (R25). -/
theorem wm_un (c : Config) (r : Reg) : c.wm r &&& c.un r = 0#32 := by
  rw [and_eq_zero_iff]
  intro i
  by_cases hi : i < 32
  · cases hw : (c.wm r).getLsbD i <;> simp [un, hw]
  · simp [BitVec.getLsbD_of_ge _ i (by omega : 32 ≤ i)]

/-- `U` shares no bit with `RO` (R25). -/
theorem ro_un (c : Config) (r : Reg) : c.ro r &&& c.un r = 0#32 := by
  rw [and_eq_zero_iff]
  intro i
  by_cases hi : i < 32
  · cases hw : (c.ro r).getLsbD i <;> simp [un, hw]
  · simp [BitVec.getLsbD_of_ge _ i (by omega : 32 ≤ i)]

/-- Bits outside all three classes do not exist (R25). -/
theorem classes_cover (c : Config) (r : Reg) : c.wm r ||| c.ro r ||| c.un r = BitVec.allOnes 32 := by
  simp [un, BitVec.or_not_self]

/-- Inside a class, outside a disjoint one. -/
theorem disjoint_of_subset {a b d : Word} (hab : a &&& b = a) (hbd : b &&& d = 0#32) : a &&& d = 0#32 := by
  rw [← hab, BitVec.and_assoc, hbd]
  simp

/-- The positions of CR's one-bit fields differ (10_state.md R27). -/
theorem cr_positions (h : c.wf = true) :
    c.layout.crHseon ≠ c.layout.crPllon ∧ c.layout.crHseon ≠ c.layout.crHsirdy ∧
      c.layout.crHseon ≠ c.layout.crHserdy ∧ c.layout.crHseon ≠ c.layout.crPllrdy ∧
      c.layout.crPllon ≠ c.layout.crHsirdy ∧ c.layout.crPllon ≠ c.layout.crHserdy ∧
      c.layout.crPllon ≠ c.layout.crPllrdy ∧ c.layout.crHsirdy ≠ c.layout.crHserdy ∧
      c.layout.crHsirdy ≠ c.layout.crPllrdy ∧ c.layout.crHserdy ≠ c.layout.crPllrdy := by
  have hd := crDisjoint h
  obtain ⟨r1, -, r3, r4, r5, r6, -⟩ := range h
  have key : ∀ {a b : Nat}, a < 32 → bit a &&& bit b = 0#32 → a ≠ b := by
    intro a b ha hab heq
    have := disjoint_bits hab a
    simp [getLsbD_bit, heq] at this
    omega
  simp only [crWritable, crReadOnly, List.cons_append, List.nil_append, List.pairwise_cons,
    List.mem_cons, List.not_mem_nil, forall_eq_or_imp, hseonMask, pllonMask, hserdyMask,
    pllrdyMask] at hd
  obtain ⟨⟨a1, a2, -, a3, a4, -⟩, ⟨b1, -, b2, b3, -⟩, ⟨-, c2, c3, -⟩, -, ⟨d1, -⟩, -⟩ := hd
  exact ⟨key r3 a1, key r3 a2, key r3 a3, key r3 a4, key r5 b1, key r5 b2, key r5 b3, key r1 c2,
    key r1 c3, key r4 d1⟩

/-- The two prescaler-free facts of CFGR that the switch needs: SW lies outside SWS, PLLSRC, PLLMUL and
every prescaler field (10_state.md R28). -/
theorem sw_disjoint (h : c.wf = true) :
    c.swMask &&& c.swsMask = 0#32 ∧ c.swMask &&& bit c.layout.cfgrPllsrc = 0#32 ∧
      c.swMask &&& fieldMask c.layout.cfgrPllmul 4 = 0#32 ∧ ∀ s, c.swMask &&& c.prescMask s = 0#32 := by
  have hd := cfgrDisjoint h
  simp only [cfgrWritable, cfgrReadOnly, List.cons_append, List.nil_append, List.pairwise_cons,
    List.mem_cons, List.not_mem_nil, forall_eq_or_imp] at hd
  obtain ⟨⟨a1, a2, a3, a4, a5, a6, a7, a8, -⟩, -⟩ := hd
  refine ⟨a8, a5, a6, fun s => ?_⟩
  cases s <;> assumption

/-- The PLL fields of CFGR lie outside each other, SWS and every prescaler field (R28). -/
theorem pll_disjoint (h : c.wf = true) :
    bit c.layout.cfgrPllsrc &&& fieldMask c.layout.cfgrPllmul 4 = 0#32 ∧
      bit c.layout.cfgrPllsrc &&& c.swsMask = 0#32 ∧
      fieldMask c.layout.cfgrPllmul 4 &&& c.swsMask = 0#32 ∧
      (∀ s, c.prescMask s &&& bit c.layout.cfgrPllsrc = 0#32) ∧
      ∀ s, c.prescMask s &&& fieldMask c.layout.cfgrPllmul 4 = 0#32 := by
  have hd := cfgrDisjoint h
  simp only [cfgrWritable, cfgrReadOnly, List.cons_append, List.nil_append, List.pairwise_cons,
    List.mem_cons, List.not_mem_nil, forall_eq_or_imp] at hd
  obtain ⟨-, ⟨-, -, -, b1, b2, -⟩, ⟨-, -, c1, c2, -⟩, ⟨-, d1, d2, -⟩, ⟨e1, e2, -⟩, ⟨f1, f2, f3, -⟩,
    ⟨g1, g2, -⟩, -⟩ := hd
  refine ⟨f1, f3, g2, fun s => ?_, fun s => ?_⟩
  · cases s <;> first | assumption | (rw [BitVec.and_comm]; assumption)
  · cases s <;> first | assumption | (rw [BitVec.and_comm]; assumption)

end Config

end Sys2Proof
end

