-- ==== Sys2Proof/Laws/Encoding.lean ====
section
/-! SUPPORT. The bits of an encoded command word, format by format (30_encoding.md R83), and the part of
it that a row of the opcode map looks at (R84). -/

namespace Sys2Proof

theorem getLsbD_wordRPS (op : BitVec 4) (a : Byte) (i : Nat) :
    (wordRPS op a).getLsbD i =
      if i < 4 then op.getLsbD i
      else if i < 8 then false
      else if i < 16 then a.getLsbD (i - 8)
      else false := by
  simp only [wordRPS, BitVec.getLsbD_append, BitVec.getLsbD_zero]
  by_cases h1 : i < 4
  · simp [h1]
  by_cases h2 : i < 8
  · simp [h1, h2, show i - 4 < 4 by omega]
  rw [show i - 4 - 4 = i - 8 by omega]
  by_cases h3 : i < 16
  · simp [h1, h2, h3, show ¬ i - 4 < 4 by omega, show i - 8 < 8 by omega]
  · simp [h1, h2, h3, show ¬ i - 4 < 4 by omega, show ¬ i - 8 < 8 by omega]

theorem getLsbD_wordI (op : BitVec 4) (a b : Byte) (m : BitVec 4) (i : Nat) :
    (wordI op a b m).getLsbD i =
      if i < 4 then op.getLsbD i
      else if i < 8 then false
      else if i < 16 then a.getLsbD (i - 8)
      else if i < 24 then b.getLsbD (i - 16)
      else if i < 28 then m.getLsbD (i - 24)
      else false := by
  simp only [wordI, BitVec.getLsbD_append, BitVec.getLsbD_zero]
  by_cases h1 : i < 4
  · simp [h1]
  by_cases h2 : i < 8
  · simp [h1, h2, show i - 4 < 4 by omega]
  rw [show i - 4 - 4 = i - 8 by omega, show i - 8 - 8 = i - 16 by omega,
    show i - 16 - 8 = i - 24 by omega]
  by_cases h3 : i < 16
  · simp [h1, h2, h3, show ¬ i - 4 < 4 by omega, show i - 8 < 8 by omega]
  by_cases h4 : i < 24
  · simp [h1, h2, h3, h4, show ¬ i - 4 < 4 by omega, show ¬ i - 8 < 8 by omega,
      show i - 16 < 8 by omega]
  by_cases h5 : i < 28
  · simp [h1, h2, h3, h4, h5, show ¬ i - 4 < 4 by omega, show ¬ i - 8 < 8 by omega,
      show ¬ i - 16 < 8 by omega, show i - 24 < 4 by omega]
  · simp [h1, h2, h3, h4, h5, show ¬ i - 4 < 4 by omega, show ¬ i - 8 < 8 by omega,
      show ¬ i - 16 < 8 by omega, show ¬ i - 24 < 4 by omega]

/-- Under the mask of formats R, P and S only the opcode is left. -/
theorem wordRPS_under_mask (op : BitVec 4) (a : Byte) :
    wordRPS op a &&& 0xFFFF00FF#32 = op.setWidth 32 := by
  refine BitVec.eq_of_getLsbD_eq fun i hi => ?_
  have hmask : (0xFFFF00FF#32).getLsbD i = decide (i < 8 ∨ 16 ≤ i) := by
    clear * - hi; revert i; decide
  rw [BitVec.getLsbD_and, getLsbD_wordRPS, hmask, BitVec.getLsbD_setWidth]
  by_cases h1 : i < 4
  · simp [h1, hi, show i < 8 by omega]
  rw [BitVec.getLsbD_of_ge op i (by omega)]
  by_cases h2 : i < 8
  · simp [h1, h2]
  by_cases h3 : i < 16
  · simp [h1, h2, h3, show ¬ 16 ≤ i by omega]
  · simp [h1, h2, h3]

/-- Under the mask of format I only the opcode is left. -/
theorem wordI_under_mask (op : BitVec 4) (a b : Byte) (m : BitVec 4) :
    wordI op a b m &&& 0xF00000FF#32 = op.setWidth 32 := by
  refine BitVec.eq_of_getLsbD_eq fun i hi => ?_
  have hmask : (0xF00000FF#32).getLsbD i = decide (i < 8 ∨ 28 ≤ i) := by
    clear * - hi; revert i; decide
  rw [BitVec.getLsbD_and, getLsbD_wordI, hmask, BitVec.getLsbD_setWidth]
  by_cases h1 : i < 4
  · simp [h1, hi, show i < 8 by omega]
  rw [BitVec.getLsbD_of_ge op i (by omega)]
  by_cases h2 : i < 8
  · simp [h1, h2]
  by_cases h5 : i < 28
  · simp [h2, show ¬ 28 ≤ i by omega]
  · simp [h1, h2, h5, show ¬ i < 16 by omega, show ¬ i < 24 by omega]

end Sys2Proof
end

