-- ==== Sys2Proof/Laws/State.lean ====
section
/-! SUPPORT. One lemma for each field of the state after each update that the operations make, and what
reading a register gives after a write. -/

namespace Sys2Proof.Machine

theorem RegFile.ext_get {f g : RegFile} (h : ∀ r, f.get r = g.get r) : f = g := by
  cases f; cases g
  simp only [RegFile.mk.injEq]
  exact ⟨h .cr, h .cfgr, h .apb2rstr, h .apb1rstr, h .ahbenr, h .apb2enr, h .apb1enr⟩

@[simp] theorem get_set_self (f : RegFile) (r : Reg) (v : Word) : (f.set r v).get r = v := by
  cases r <;> rfl

theorem get_set_other (f : RegFile) {r q : Reg} (v : Word) (h : q ≠ r) : (f.set r v).get q = f.get q := by
  cases r <;> cases q <;> first | rfl | exact absurd rfl h

theorem get_set (f : RegFile) (r q : Reg) (v : Word) :
    (f.set r v).get q = if q = r then v else f.get q := by
  by_cases h : q = r
  · subst h; simp
  · simp [h, get_set_other]

@[simp] theorem set_get_self (f : RegFile) (r : Reg) : f.set r (f.get r) = f := by cases r <;> rfl

@[simp] theorem get_cr (f : RegFile) : f.get .cr = f.cr := rfl
@[simp] theorem get_cfgr (f : RegFile) : f.get .cfgr = f.cfgr := rfl

@[simp] theorem setReg_reg (s : State) (r : Reg) (v : Word) : (s.setReg r v).reg = s.reg.set r v := rfl
@[simp] theorem setReg_fsm (s : State) (r : Reg) (v : Word) : (s.setReg r v).fsm = s.fsm := rfl
@[simp] theorem setReg_op (s : State) (r : Reg) (v : Word) : (s.setReg r v).op = s.op := rfl
@[simp] theorem setReg_cfgLatch (s : State) (r : Reg) (v : Word) : (s.setReg r v).cfgLatch = s.cfgLatch := rfl
@[simp] theorem setReg_rstReg (s : State) (r : Reg) (v : Word) : (s.setReg r v).rstReg = s.rstReg := rfl
@[simp] theorem setReg_rstMask (s : State) (r : Reg) (v : Word) : (s.setReg r v).rstMask = s.rstMask := rfl
@[simp] theorem setReg_prescVal (s : State) (r : Reg) (v : Word) : (s.setReg r v).prescVal = s.prescVal := rfl
@[simp] theorem setReg_rspData (s : State) (r : Reg) (v : Word) : (s.setReg r v).rspData = s.rspData := rfl
@[simp] theorem setReg_faulted (s : State) (r : Reg) (v : Word) : (s.setReg r v).faulted = s.faulted := rfl
@[simp] theorem setReg_faultCode (s : State) (r : Reg) (v : Word) : (s.setReg r v).faultCode = s.faultCode := rfl
@[simp] theorem setReg_faultCw (s : State) (r : Reg) (v : Word) : (s.setReg r v).faultCw = s.faultCw := rfl
@[simp] theorem setReg_faultDw (s : State) (r : Reg) (v : Word) : (s.setReg r v).faultDw = s.faultDw := rfl
@[simp] theorem setReg_trace (s : State) (r : Reg) (v : Word) : (s.setReg r v).trace = s.trace := rfl
@[simp] theorem setReg_cfg (s : State) (r : Reg) (v : Word) : (s.setReg r v).cfg = s.cfg := rfl
@[simp] theorem setReg_agenda (s : State) (r : Reg) (v : Word) : (s.setReg r v).agenda = s.agenda := rfl
@[simp] theorem setReg_draws (s : State) (r : Reg) (v : Word) : (s.setReg r v).draws = s.draws := rfl

@[simp] theorem log_reg (s : State) (e : Event) : (s.log e).reg = s.reg := rfl
@[simp] theorem log_fsm (s : State) (e : Event) : (s.log e).fsm = s.fsm := rfl
@[simp] theorem log_op (s : State) (e : Event) : (s.log e).op = s.op := rfl
@[simp] theorem log_cfgLatch (s : State) (e : Event) : (s.log e).cfgLatch = s.cfgLatch := rfl
@[simp] theorem log_rstReg (s : State) (e : Event) : (s.log e).rstReg = s.rstReg := rfl
@[simp] theorem log_rstMask (s : State) (e : Event) : (s.log e).rstMask = s.rstMask := rfl
@[simp] theorem log_prescVal (s : State) (e : Event) : (s.log e).prescVal = s.prescVal := rfl
@[simp] theorem log_rspData (s : State) (e : Event) : (s.log e).rspData = s.rspData := rfl
@[simp] theorem log_faulted (s : State) (e : Event) : (s.log e).faulted = s.faulted := rfl
@[simp] theorem log_faultCode (s : State) (e : Event) : (s.log e).faultCode = s.faultCode := rfl
@[simp] theorem log_faultCw (s : State) (e : Event) : (s.log e).faultCw = s.faultCw := rfl
@[simp] theorem log_faultDw (s : State) (e : Event) : (s.log e).faultDw = s.faultDw := rfl
@[simp] theorem log_trace (s : State) (e : Event) : (s.log e).trace = s.trace ++ [e] := rfl
@[simp] theorem log_cfg (s : State) (e : Event) : (s.log e).cfg = s.cfg := rfl
@[simp] theorem log_agenda (s : State) (e : Event) : (s.log e).agenda = s.agenda := rfl
@[simp] theorem log_draws (s : State) (e : Event) : (s.log e).draws = s.draws := rfl

@[simp] theorem faultEntry_reg (cw : Word) (f : Raised) (s : State) : (faultEntry cw f s).reg = s.reg := rfl
@[simp] theorem faultEntry_fsm (cw : Word) (f : Raised) (s : State) : (faultEntry cw f s).fsm = s.fsm := rfl
@[simp] theorem faultEntry_op (cw : Word) (f : Raised) (s : State) : (faultEntry cw f s).op = s.op := rfl
@[simp] theorem faultEntry_cfgLatch (cw : Word) (f : Raised) (s : State) :
    (faultEntry cw f s).cfgLatch = s.cfgLatch := rfl
@[simp] theorem faultEntry_rstReg (cw : Word) (f : Raised) (s : State) :
    (faultEntry cw f s).rstReg = s.rstReg := rfl
@[simp] theorem faultEntry_rstMask (cw : Word) (f : Raised) (s : State) :
    (faultEntry cw f s).rstMask = s.rstMask := rfl
@[simp] theorem faultEntry_prescVal (cw : Word) (f : Raised) (s : State) :
    (faultEntry cw f s).prescVal = s.prescVal := rfl
@[simp] theorem faultEntry_rspData (cw : Word) (f : Raised) (s : State) :
    (faultEntry cw f s).rspData = s.rspData := rfl
@[simp] theorem faultEntry_faulted (cw : Word) (f : Raised) (s : State) :
    (faultEntry cw f s).faulted = true := rfl
@[simp] theorem faultEntry_faultCode (cw : Word) (f : Raised) (s : State) :
    (faultEntry cw f s).faultCode = f.cause.code := rfl
@[simp] theorem faultEntry_faultCw (cw : Word) (f : Raised) (s : State) : (faultEntry cw f s).faultCw = cw := rfl
@[simp] theorem faultEntry_faultDw (cw : Word) (f : Raised) (s : State) :
    (faultEntry cw f s).faultDw = f.info := rfl
@[simp] theorem faultEntry_trace (cw : Word) (f : Raised) (s : State) : (faultEntry cw f s).trace = s.trace := rfl
@[simp] theorem faultEntry_cfg (cw : Word) (f : Raised) (s : State) : (faultEntry cw f s).cfg = s.cfg := rfl
@[simp] theorem faultEntry_agenda (cw : Word) (f : Raised) (s : State) :
    (faultEntry cw f s).agenda = s.agenda := rfl
@[simp] theorem faultEntry_draws (cw : Word) (f : Raised) (s : State) : (faultEntry cw f s).draws = s.draws := rfl

@[simp] theorem blockReset_cfg (h : Byte) (s : State) : (blockReset h s).cfg = s.cfg := rfl
@[simp] theorem blockReset_agenda (h : Byte) (s : State) : (blockReset h s).agenda = s.agenda := rfl
@[simp] theorem blockReset_draws (h : Byte) (s : State) : (blockReset h s).draws = s.draws := rfl
@[simp] theorem blockReset_reg (h : Byte) (s : State) : (blockReset h s).reg = RegFile.reset s.cfg h := rfl
@[simp] theorem blockReset_fsm (h : Byte) (s : State) : (blockReset h s).fsm = .internalClock := rfl
@[simp] theorem blockReset_op (h : Byte) (s : State) : (blockReset h s).op = .idle := rfl
@[simp] theorem blockReset_faulted (h : Byte) (s : State) : (blockReset h s).faulted = false := rfl
@[simp] theorem blockReset_trace (h : Byte) (s : State) : (blockReset h s).trace = [] := rfl

@[simp] theorem afterChoice_cfg (s : State) : (afterChoice s).cfg = s.cfg := by
  unfold afterChoice; split <;> rfl
@[simp] theorem afterChoice_reg (s : State) : (afterChoice s).reg = s.reg := by
  unfold afterChoice; split <;> rfl

end Sys2Proof.Machine
end

