-- ==== Sys2Proof/Laws/Ops.lean ====
section
/-! SUPPORT. What the write filter stores, field by field, and what each shared operation can answer. -/

namespace Sys2Proof.Machine

theorem getLsbD_filtered (c : Config) (r : Reg) (old v : Word) (i : Nat) :
    (filtered c r old v).getLsbD i = if (c.wm r).getLsbD i then v.getLsbD i else old.getLsbD i := by
  by_cases hi : i < 32
  · cases hw : (c.wm r).getLsbD i <;>
      simp only [filtered, BitVec.getLsbD_or, BitVec.getLsbD_and, BitVec.getLsbD_not, hw, hi] <;> simp
  · have h : ∀ x : Word, x.getLsbD i = false := fun x => BitVec.getLsbD_of_ge x i (by omega)
    rw [h, h, h, h]
    simp

/-- Inside `WM` the filter stores the value. -/
theorem filtered_and_of_subset (c : Config) (r : Reg) (old v : Word) {m : Word} (h : m &&& c.wm r = m) :
    filtered c r old v &&& m = v &&& m := by
  refine BitVec.eq_of_getLsbD_eq fun i _ => ?_
  rw [BitVec.getLsbD_and, BitVec.getLsbD_and, getLsbD_filtered]
  cases hm : m.getLsbD i
  · simp
  · simp [subset_bits h hm]

/-- Outside `WM` the filter keeps the old value. -/
theorem filtered_and_of_disjoint (c : Config) (r : Reg) (old v : Word) {m : Word}
    (h : m &&& c.wm r = 0#32) : filtered c r old v &&& m = old &&& m := by
  refine BitVec.eq_of_getLsbD_eq fun i _ => ?_
  rw [BitVec.getLsbD_and, BitVec.getLsbD_and, getLsbD_filtered]
  cases hm : m.getLsbD i
  · simp
  · have := disjoint_bits h i
    rw [hm, Bool.true_and] at this
    simp [this]

/-- Setting bits of `WM` stores exactly the OR. -/
theorem filtered_or (c : Config) (r : Reg) (old : Word) {m : Word} (h : m &&& c.wm r = m) :
    filtered c r old (old ||| m) = old ||| m := by
  refine BitVec.eq_of_getLsbD_eq fun i _ => ?_
  rw [getLsbD_filtered, BitVec.getLsbD_or]
  cases hm : m.getLsbD i
  · simp
  · simp [subset_bits h hm]

/-- Clearing bits of `WM` stores exactly the AND with the complement. -/
theorem filtered_and_not (c : Config) (r : Reg) (old : Word) {m : Word} (h : m &&& c.wm r = m) :
    filtered c r old (old &&& ~~~ m) = old &&& ~~~ m := by
  refine BitVec.eq_of_getLsbD_eq fun i hi => ?_
  rw [getLsbD_filtered, BitVec.getLsbD_and, BitVec.getLsbD_not]
  cases hm : m.getLsbD i
  · simp [hi]
  · simp [subset_bits h hm]

theorem changesUnmodelled_or (c : Config) (r : Reg) (old : Word) {m : Word} (h : m &&& c.wm r = m) :
    changesUnmodelled c r old (old ||| m) = false := by
  have hd := Config.disjoint_of_subset h (Config.wm_un c r)
  simp only [changesUnmodelled, bne_eq_false_iff_eq, and_eq_zero_iff]
  intro i
  have := disjoint_bits hd i
  rw [BitVec.getLsbD_xor, BitVec.getLsbD_or]
  cases hm : m.getLsbD i <;> simp_all

theorem changesUnmodelled_and_not (c : Config) (r : Reg) (old : Word) {m : Word} (h : m &&& c.wm r = m) :
    changesUnmodelled c r old (old &&& ~~~ m) = false := by
  have hd := Config.disjoint_of_subset h (Config.wm_un c r)
  simp only [changesUnmodelled, bne_eq_false_iff_eq, and_eq_zero_iff]
  intro i
  have := disjoint_bits hd i
  by_cases hi : i < 32
  · rw [BitVec.getLsbD_xor, BitVec.getLsbD_and, BitVec.getLsbD_not]
    cases hm : m.getLsbD i <;> simp_all
  · simp [BitVec.getLsbD_of_ge _ i (by omega : 32 ≤ i)]

/-- The state after a bus write that the filter accepts (40_register_access.md R101). -/
def stored (a : Agent) (r : Reg) (v : Word) (kind : EventKind) (operand : Word) (s : State) : State :=
  (s.setReg r (filtered s.cfg r (s.reg.get r) v)).log
    ⟨a, r, kind, operand, filtered s.cfg r (s.reg.get r) v⟩

/-- `busWrite` answers in exactly two ways. -/
theorem busWrite_eq (a : Agent) (r : Reg) (v : Word) (kind : EventKind) (operand : Word) (s : State) :
    busWrite a r v kind operand s =
      if writeRefused s r v then .error ⟨.unmodelledWrite, v⟩ else .ok (stored a r v kind operand s) := rfl

theorem busWrite_ok {a : Agent} {r : Reg} {v : Word} {kind : EventKind} {operand : Word} {s t : State}
    (h : busWrite a r v kind operand s = .ok t) :
    writeRefused s r v = false ∧ t = stored a r v kind operand s := by
  rw [busWrite_eq] at h
  split at h
  · cases h
  · cases h
    exact ⟨by simp_all, rfl⟩

theorem busWrite_error {a : Agent} {r : Reg} {v : Word} {kind : EventKind} {operand : Word} {s : State}
    {f : Raised} (h : busWrite a r v kind operand s = .error f) :
    writeRefused s r v = true ∧ f = ⟨.unmodelledWrite, v⟩ := by
  rw [busWrite_eq] at h
  split at h
  · cases h
    exact ⟨‹_›, rfl⟩
  · cases h

/-- `CheckReg` answers the register of the index or one of its two faults (20_memory.md R62). -/
theorem checkReg_ok {c : Config} {idx : Byte} {r : Reg} :
    checkReg c idx = .ok r ↔ regOfIndex c idx.toNat = some r := by
  unfold checkReg
  constructor
  · intro h
    split at h
    · cases h; assumption
    · split at h <;> cases h
  · intro h
    rw [h]

/-- The fault of an index that no register has: the slot is inside the window or beyond it. -/
def indexFault (c : Config) (idx : Byte) : Raised :=
  ⟨if idx.toNat < c.nRegIdx then .unmodelledRegister else .badRegister, idx.setWidth 32⟩

theorem checkReg_none {c : Config} {idx : Byte} (h : regOfIndex c idx.toNat = none) :
    checkReg c idx = .error (indexFault c idx) := by
  simp only [checkReg, indexFault, h]
  split <;> rfl

@[simp] theorem settle_ok (cw : Word) (t s : State) : settle cw (.ok t) s = t := rfl

@[simp] theorem settle_error (cw : Word) (f : Raised) (s : State) :
    settle cw (.error f) s = faultEntry cw f s := rfl

theorem regOfIndex_some {c : Config} {n : Nat} {r : Reg} (h : regOfIndex c n = some r) : c.index r = n := by
  have := List.find?_some h
  simpa using this

/-- Under distinct indices the lookup finds the register. -/
theorem regOfIndex_index {c : Config} (h : c.wf = true) (r : Reg) : regOfIndex c (c.index r) = some r := by
  cases hr : regOfIndex c (c.index r) with
  | none =>
    rw [regOfIndex, List.find?_eq_none] at hr
    exact absurd (by simp) (hr r (by cases r <;> simp [Reg.all]))
  | some q => rw [Config.index_inj h (regOfIndex_some hr)]

/-- An index that no register has finds none. -/
theorem regOfIndex_none {c : Config} {n : Nat} (h : ∀ r, n ≠ c.index r) : regOfIndex c n = none := by
  cases hr : regOfIndex c n with
  | none => rfl
  | some r => exact absurd (regOfIndex_some hr).symm (h r)

theorem lookup_ok {c : Config} {id : Byte} {p : PeriphDesc} :
    lookup c id = .ok p ↔ c.registry[id.toNat]? = some p := by
  unfold lookup
  cases c.registry[id.toNat]? <;> simp

/-- The register at a byte address is the one whose four bytes hold it (20_memory.md R61). -/
theorem windowRegAt_some {c : Config} (h : c.wf = true) {w : WindowReg} {addr : Nat} :
    windowRegAt c addr = some w ↔ c.address w ≤ addr ∧ addr < c.address w + 4 := by
  unfold windowRegAt
  constructor
  · intro he
    simpa using List.find?_some he
  · intro hw
    have hmem : w ∈ WindowReg.all := by
      rcases w with r | u
      · cases r <;> decide
      · cases u <;> decide
    cases hf : WindowReg.all.find? fun w => decide (c.address w ≤ addr) && decide (addr < c.address w + 4) with
    | none => simpa [hw] using List.find?_eq_none.1 hf w hmem
    | some v =>
      have hv : c.address v ≤ addr ∧ addr < c.address v + 4 := by simpa using List.find?_some hf
      simp only [Config.address] at hv hw
      exact congrArg some (Config.off_unique h (d := addr - c.rccBase.toNat) (by omega) (by omega))

theorem accept_eq (cw : Word) (body : State → Result) (s : State) :
    accept cw body s = .next (if s.faulted then s else if s.op ≠ .idle then
      faultEntry cw ⟨.busyViolation, cw⟩ s else settle cw (body s) s) := by
  unfold accept
  split
  · rfl
  · split <;> rfl

@[simp] theorem stored_fsm (a : Agent) (r : Reg) (v : Word) (k : EventKind) (m : Word) (s : State) :
    (stored a r v k m s).fsm = s.fsm := rfl
@[simp] theorem stored_op (a : Agent) (r : Reg) (v : Word) (k : EventKind) (m : Word) (s : State) :
    (stored a r v k m s).op = s.op := rfl
@[simp] theorem stored_cfg (a : Agent) (r : Reg) (v : Word) (k : EventKind) (m : Word) (s : State) :
    (stored a r v k m s).cfg = s.cfg := rfl
@[simp] theorem stored_reg (a : Agent) (r : Reg) (v : Word) (k : EventKind) (m : Word) (s : State) :
    (stored a r v k m s).reg = s.reg.set r (filtered s.cfg r (s.reg.get r) v) := rfl
@[simp] theorem stored_faulted (a : Agent) (r : Reg) (v : Word) (k : EventKind) (m : Word) (s : State) :
    (stored a r v k m s).faulted = s.faulted := rfl
@[simp] theorem stored_trace (a : Agent) (r : Reg) (v : Word) (k : EventKind) (m : Word) (s : State) :
    (stored a r v k m s).trace =
      s.trace ++ [⟨a, r, k, m, filtered s.cfg r (s.reg.get r) v⟩] := rfl

end Sys2Proof.Machine
end

