-- ==== Sys2Proof/Laws/PerInstr.lean ====
section
/-! SUPPORT. The per-instruction family RowMatch: the command word of an instruction is selected by the
row of its own mnemonic in the opcode map (30_encoding.md R84). -/

namespace Sys2Proof.Laws.RowMatch

open Sys2Proof

/-- The mnemonic of an instruction. -/
def mnemonicOf : Instr → Mnemonic
  | .rd _ => .rd
  | .wr _ _ => .wr
  | .set _ _ => .set
  | .clr _ _ => .clr
  | .clkInit _ _ _ => .clkInit
  | .periphEnable _ => .periphEnable
  | .periphReset _ => .periphReset
  | .prescalerSet _ _ => .prescalerSet

/-- The row of the instruction's mnemonic selects its command word. -/
def Statement (i : Instr) : Prop :=
  ∃ row ∈ opcodeRows, row.mnemonic = mnemonicOf i ∧ row.selects (encodeCw i) = true

theorem rd (idx : Byte) : Statement (.rd idx) :=
  ⟨⟨.rd, 0xFFFF00FF#32, 0x00000001#32⟩, by simp [opcodeRows], rfl,
    by simp [OpcodeRow.selects, encodeCw, wordRPS_under_mask]⟩

theorem wr (idx : Byte) (value : Word) : Statement (.wr idx value) :=
  ⟨⟨.wr, 0xFFFF00FF#32, 0x00000002#32⟩, by simp [opcodeRows], rfl,
    by simp [OpcodeRow.selects, encodeCw, wordRPS_under_mask]⟩

theorem set (idx : Byte) (mask : Word) : Statement (.set idx mask) :=
  ⟨⟨.set, 0xFFFF00FF#32, 0x00000003#32⟩, by simp [opcodeRows], rfl,
    by simp [OpcodeRow.selects, encodeCw, wordRPS_under_mask]⟩

theorem clr (idx : Byte) (mask : Word) : Statement (.clr idx mask) :=
  ⟨⟨.clr, 0xFFFF00FF#32, 0x00000004#32⟩, by simp [opcodeRows], rfl,
    by simp [OpcodeRow.selects, encodeCw, wordRPS_under_mask]⟩

theorem clkInit (src pllSrc : Byte) (mul : BitVec 4) : Statement (.clkInit src pllSrc mul) :=
  ⟨⟨.clkInit, 0xF00000FF#32, 0x00000008#32⟩, by simp [opcodeRows], rfl,
    by simp [OpcodeRow.selects, encodeCw, wordI_under_mask]⟩

theorem periphEnable (id : Byte) : Statement (.periphEnable id) :=
  ⟨⟨.periphEnable, 0xFFFF00FF#32, 0x00000009#32⟩, by simp [opcodeRows], rfl,
    by simp [OpcodeRow.selects, encodeCw, wordRPS_under_mask]⟩

theorem periphReset (id : Byte) : Statement (.periphReset id) :=
  ⟨⟨.periphReset, 0xFFFF00FF#32, 0x0000000A#32⟩, by simp [opcodeRows], rfl,
    by simp [OpcodeRow.selects, encodeCw, wordRPS_under_mask]⟩

theorem prescalerSet (sel : Byte) (divider : Word) : Statement (.prescalerSet sel divider) :=
  ⟨⟨.prescalerSet, 0xFFFF00FF#32, 0x0000000B#32⟩, by simp [opcodeRows], rfl,
    by simp [OpcodeRow.selects, encodeCw, wordRPS_under_mask]⟩

end Sys2Proof.Laws.RowMatch
end

