-- ==== Sys2Proof/Laws/Turn.lean ====
section
/-! SUPPORT. Everything that one turn can do, said once: each effect with the conditions under which the
rules give it, and that every turn has one. Claims about steps are proved from `takeTurn_effect` instead
of unfolding the machine. -/

namespace Sys2Proof.Machine

/-- The effects of a turn taken in state `s`. -/
inductive TurnEffect (s : State) : Turn → State → Prop where
  | pass (t : Turn) (ht : ∀ h, t ≠ .blockReset h) : TurnEffect s t s
  | hostFault {cw dw : Word} (cwRec : Word) (f : Raised) (hf : s.faulted = false) :
      TurnEffect s (.host cw dw) (faultEntry cwRec f s)
  | read {cw dw : Word} (idx : Byte) (r : Reg) (hd : decode cw dw = .ok (.rd idx))
      (hr : regOfIndex s.cfg idx.toNat = some r) :
      TurnEffect s (.host cw dw) { s with rspData := s.reg.get r }
  | hostWrite {cw dw : Word} (idx : Byte) (r : Reg) (v : Word) (k : EventKind) (m : Word)
      (hd : (decode cw dw = .ok (.wr idx m) ∧ k = .write ∧ v = m) ∨
        (decode cw dw = .ok (.set idx m) ∧ k = .set ∧ v = s.reg.get r ||| m) ∨
        (decode cw dw = .ok (.clr idx m) ∧ k = .clear ∧ v = s.reg.get r &&& ~~~ m))
      (hr : regOfIndex s.cfg idx.toNat = some r) (hf : s.faulted = false)
      (hop : s.op = .idle) (hw : writeRefused s r v = false) :
      TurnEffect s (.host cw dw) (stored .host r v k m s)
  | clkInit {cw dw : Word} (src pllSrc : Byte) (mul : BitVec 4)
      (hd : decode cw dw = .ok (.clkInit src pllSrc mul)) (hf : s.faulted = false)
      (hop : s.op = .idle) (hq : clockRequestOk s.cfg src pllSrc = true) (hfsm : s.fsm = .internalClock)
      (hw : writeRefused s .cfgr (compose s.cfg.layout pllSrc mul) = false) :
      TurnEffect s (.host cw dw)
        { stored .ctrl .cfgr (compose s.cfg.layout pllSrc mul) .write (compose s.cfg.layout pllSrc mul) s with
          cfgLatch := compose s.cfg.layout pllSrc mul, op := .init, fsm := .cfgPrimed }
  | periphEnable {cw dw : Word} (id : Byte) (p : PeriphDesc) (hd : decode cw dw = .ok (.periphEnable id))
      (hp : s.cfg.registry[id.toNat]? = some p) (hf : s.faulted = false)
      (hop : s.op = .idle)
      (hw : writeRefused s p.domain.enableReg (s.reg.get p.domain.enableReg ||| bit p.line) = false) :
      TurnEffect s (.host cw dw) (stored .ctrl p.domain.enableReg
        (s.reg.get p.domain.enableReg ||| bit p.line) .set (bit p.line) s)
  | periphReset {cw dw : Word} (id : Byte) (p : PeriphDesc) (r : Reg)
      (hd : decode cw dw = .ok (.periphReset id)) (hp : s.cfg.registry[id.toNat]? = some p)
      (hr : p.domain.resetReg = some r) (hf : s.faulted = false) (hop : s.op = .idle)
      (hw : writeRefused s r (s.reg.get r ||| bit p.line) = false) :
      TurnEffect s (.host cw dw)
        { stored .ctrl r (s.reg.get r ||| bit p.line) .set (bit p.line) s with
          rstReg := r, rstMask := bit p.line, op := .resetClr }
  | prescaler {cw dw : Word} (code : Byte) (sel : PrescSel) (d : Word)
      (hd : decode cw dw = .ok (.prescalerSet code d)) (hsel : checkSel code = .ok sel)
      (hf : s.faulted = false) (hop : s.op = .idle) (hdiv : d &&& ~~~ s.cfg.prescMask sel = 0#32) :
      TurnEffect s (.host cw dw)
        { s with prescVal := (s.reg.cfgr &&& ~~~ s.cfg.prescMask sel) ||| d, op := .prescWr }
  | ctrlFault (f : Raised) (hf : s.faulted = false) (hb : ctrlBody s = .error f) :
      TurnEffect s .ctrl (faultEntry 0#32 f s)
  | enableOsc (hf : s.faulted = false) (hop : s.op = .init) (hfsm : s.fsm = .cfgPrimed)
      (hw : writeRefused s .cr (s.reg.cr ||| s.cfg.hseonMask) = false) :
      TurnEffect s .ctrl { stored .ctrl .cr (s.reg.cr ||| s.cfg.hseonMask) .set s.cfg.hseonMask s with
        fsm := .oscEnabling }
  | pollOsc (hf : s.faulted = false) (hop : s.op = .init) (hfsm : s.fsm = .oscEnabling)
      (hb : s.hserdy = true) : TurnEffect s .ctrl { s with fsm := .oscReady }
  | enablePll (hf : s.faulted = false) (hop : s.op = .init) (hfsm : s.fsm = .oscReady)
      (hw : writeRefused s .cr (s.reg.cr ||| s.cfg.pllonMask) = false) :
      TurnEffect s .ctrl { stored .ctrl .cr (s.reg.cr ||| s.cfg.pllonMask) .set s.cfg.pllonMask s with
        fsm := .pllEnabling }
  | pollPll (hf : s.faulted = false) (hop : s.op = .init) (hfsm : s.fsm = .pllEnabling)
      (hb : s.pllrdy = true) : TurnEffect s .ctrl { s with fsm := .pllReady }
  | switch (hf : s.faulted = false) (hop : s.op = .init) (hfsm : s.fsm = .pllReady)
      (hw : writeRefused s .cfgr (switchValue s.cfg s.cfgLatch) = false) :
      TurnEffect s .ctrl { stored .ctrl .cfgr (switchValue s.cfg s.cfgLatch) .write
        (switchValue s.cfg s.cfgLatch) s with fsm := .switching }
  | pollSwitch (hf : s.faulted = false) (hop : s.op = .init) (hfsm : s.fsm = .switching)
      (hb : s.sws = s.cfg.codes.srcPll) : TurnEffect s .ctrl { s with fsm := .pllActive, op := .idle }
  | resetClear (hf : s.faulted = false) (hop : s.op = .resetClr)
      (hw : writeRefused s s.rstReg (s.reg.get s.rstReg &&& ~~~ s.rstMask) = false) :
      TurnEffect s .ctrl { stored .ctrl s.rstReg (s.reg.get s.rstReg &&& ~~~ s.rstMask) .clear
        s.rstMask s with op := .idle }
  | prescWrite (hf : s.faulted = false) (hop : s.op = .prescWr)
      (hw : writeRefused s .cfgr s.prescVal = false) :
      TurnEffect s .ctrl { stored .ctrl .cfgr s.prescVal .write s.prescVal s with op := .idle }
  | env (k : EnvKind) (he : envEnabled k s = true) : TurnEffect s (.env k) (envEffect k s)
  | reset (h : Byte) : TurnEffect s (.blockReset h) (blockReset h s)

/-- A command other than RD: no effect, a fault, or its acceptance step in an idle block. -/
theorem accept_effect {cw : Word} {body : State → Result} {s s' : State} {t : Turn}
    (h : accept cw body s = .next s') (hpass : TurnEffect s t s)
    (hfault : ∀ w f, s.faulted = false → TurnEffect s t (faultEntry w f s))
    (hok : ∀ u, s.faulted = false → s.op = .idle → body s = .ok u → TurnEffect s t u) :
    TurnEffect s t s' := by
  rw [accept_eq] at h
  injection h with h
  subst h
  cases hf : s.faulted
  · by_cases hop : s.op = .idle
    · simp only [hop, ne_eq, not_true_eq_false, if_false, Bool.false_eq_true]
      cases hb : body s with
      | ok u => exact hok u hf hop hb
      | error f => exact hfault _ f hf
    · simp only [hop, ne_eq, not_false_eq_true, if_true, Bool.false_eq_true, if_false]
      exact hfault _ _ hf
  · simpa using hpass

theorem exec_effect {cw dw : Word} {i : Instr} {s s' : State} (hd : decode cw dw = .ok i)
    (h : exec i s = .next s') : TurnEffect s (.host cw dw) s' := by
  have hpass : TurnEffect s (.host cw dw) s := .pass _ nofun
  have hfault : ∀ w f, s.faulted = false → TurnEffect s (.host cw dw) (faultEntry w f s) :=
    fun w f hf => .hostFault w f hf
  cases i with
  | rd idx =>
    simp only [exec, execRd, acceptRead] at h
    have hbody : ∀ u, readBody idx s = .ok u → TurnEffect s (.host cw dw) u := by
      intro u hu
      simp only [readBody] at hu
      split at hu
      · cases hu
      · cases hu
        exact .read idx _ hd (checkReg_ok.1 ‹_›)
    split at h
    · split at h
      · cases h; exact hbody _ ‹_›
      · cases h; exact hpass
    · injection h with h
      subst h
      cases hb : readBody idx s with
      | ok u => exact hbody u hb
      | error f => exact hfault _ f (by simp_all)
  | wr idx v =>
    simp only [exec, execWr] at h
    refine accept_effect h hpass hfault fun u hf hop hu => ?_
    simp only [writeBody] at hu
    split at hu
    · cases hu
    · obtain ⟨hw, rfl⟩ := busWrite_ok hu
      exact .hostWrite idx _ _ _ _ (.inl ⟨hd, rfl, rfl⟩) (checkReg_ok.1 ‹_›) hf hop hw
  | set idx m =>
    simp only [exec, execSet] at h
    refine accept_effect h hpass hfault fun u hf hop hu => ?_
    simp only [setBody, busSet] at hu
    split at hu
    · cases hu
    · obtain ⟨hw, rfl⟩ := busWrite_ok hu
      exact .hostWrite idx _ _ _ _ (.inr (.inl ⟨hd, rfl, rfl⟩)) (checkReg_ok.1 ‹_›) hf hop hw
  | clr idx m =>
    simp only [exec, execClr] at h
    refine accept_effect h hpass hfault fun u hf hop hu => ?_
    simp only [clearBody, busClear] at hu
    split at hu
    · cases hu
    · obtain ⟨hw, rfl⟩ := busWrite_ok hu
      exact .hostWrite idx _ _ _ _ (.inr (.inr ⟨hd, rfl, rfl⟩)) (checkReg_ok.1 ‹_›) hf hop hw
  | clkInit src pllSrc mul =>
    simp only [exec, execClkInit] at h
    refine accept_effect h hpass hfault fun u hf hop hu => ?_
    simp only [clkInitBody] at hu
    split at hu
    · cases hu
    · split at hu
      · cases hu
      · split at hu
        · cases hu
        · rename_i hq hfsm _ t hb
          obtain ⟨hw, rfl⟩ := busWrite_ok hb
          cases hu
          exact .clkInit src pllSrc mul hd hf hop (by simpa using hq) (by simpa using hfsm) hw
  | periphEnable id =>
    simp only [exec, execPeriphEnable] at h
    refine accept_effect h hpass hfault fun u hf hop hu => ?_
    simp only [periphEnableBody, busSet] at hu
    split at hu
    · cases hu
    · obtain ⟨hw, rfl⟩ := busWrite_ok hu
      exact .periphEnable id _ hd (lookup_ok.1 ‹_›) hf hop hw
  | periphReset id =>
    simp only [exec, execPeriphReset] at h
    refine accept_effect h hpass hfault fun u hf hop hu => ?_
    simp only [periphResetBody, busSet] at hu
    split at hu
    · cases hu
    · split at hu
      · cases hu
      · split at hu
        · cases hu
        · rename_i hl _ r hr _ t hb
          obtain ⟨hw, rfl⟩ := busWrite_ok hb
          cases hu
          exact .periphReset id _ r hd (lookup_ok.1 hl) hr hf hop hw
  | prescalerSet sel d =>
    simp only [exec, execPrescalerSet] at h
    refine accept_effect h hpass hfault fun u hf hop hu => ?_
    simp only [prescalerBody] at hu
    split at hu
    · cases hu
    · split at hu
      · cases hu
      · cases hu
        exact .prescaler sel _ d hd ‹_› hf hop (not_not.1 ‹¬_›)

theorem ctrlInit_effect {s u : State} (hf : s.faulted = false) (hop : s.op = .init)
    (h : ctrlInit s = .ok u) : TurnEffect s .ctrl u := by
  unfold ctrlInit at h
  split at h
  · cases h; exact .pass _ nofun
  · simp only [initEnableOsc, busSet] at h
    split at h
    · cases h
    · obtain ⟨hw, rfl⟩ := busWrite_ok ‹_›
      cases h
      exact .enableOsc hf hop ‹_› hw
  · simp only [initPollOsc] at h
    split at h <;> cases h
    · exact .pollOsc hf hop ‹_› ‹_›
    · exact .pass _ nofun
  · simp only [initEnablePll, busSet] at h
    split at h
    · cases h
    · obtain ⟨hw, rfl⟩ := busWrite_ok ‹_›
      cases h
      exact .enablePll hf hop ‹_› hw
  · simp only [initPollPll] at h
    split at h <;> cases h
    · exact .pollPll hf hop ‹_› ‹_›
    · exact .pass _ nofun
  · simp only [initSwitch] at h
    split at h
    · cases h
    · obtain ⟨hw, rfl⟩ := busWrite_ok ‹_›
      cases h
      exact .switch hf hop ‹_› hw
  · simp only [initPollSwitch] at h
    split at h <;> cases h
    · exact .pollSwitch hf hop ‹_› ‹_›
    · exact .pass _ nofun
  · cases h; exact .pass _ nofun

theorem ctrlTurn_effect (s : State) : TurnEffect s .ctrl (ctrlTurn s) := by
  unfold ctrlTurn
  split
  · rename_i he
    have hf : s.faulted = false := by
      simp only [ctrlEnabled, Bool.and_eq_true, Bool.not_eq_true'] at he
      exact he.1
    cases hb : ctrlBody s with
    | error f => exact .ctrlFault f hf hb
    | ok u =>
      simp only [settle]
      unfold ctrlBody at hb
      split at hb
      · cases hb; exact .pass _ nofun
      · exact ctrlInit_effect hf ‹_› hb
      · simp only [ctrlResetClear, busClear] at hb
        split at hb
        · cases hb
        · obtain ⟨hw, rfl⟩ := busWrite_ok ‹_›
          cases hb
          exact .resetClear hf ‹_› hw
      · simp only [ctrlPrescalerWrite] at hb
        split at hb
        · cases hb
        · obtain ⟨hw, rfl⟩ := busWrite_ok ‹_›
          cases hb
          exact .prescWrite hf ‹_› hw
  · exact .pass _ nofun

theorem hostIssue_effect {cw dw : Word} {s s' : State} (h : hostIssue cw dw s = .next s') :
    TurnEffect s (.host cw dw) s' := by
  unfold hostIssue at h
  split at h
  · exact exec_effect ‹_› h
  · injection h with h
    subst h
    unfold rejectIllegal
    split
    · exact .pass _ nofun
    · exact .hostFault _ _ (by simp_all)

/-- Every turn has one of the listed effects. -/
theorem takeTurn_effect {t : Turn} {s s' : State} (h : takeTurn t s = .next s') : TurnEffect s t s' := by
  cases t with
  | host cw dw => exact hostIssue_effect h
  | ctrl =>
    simp only [takeTurn, Host.Outcome.next.injEq] at h
    exact h ▸ ctrlTurn_effect s
  | env k =>
    simp only [takeTurn, Host.Outcome.next.injEq] at h
    subst h
    unfold envTurn
    split
    · exact .env k ‹_›
    · exact .pass _ nofun
  | blockReset hsical0 =>
    simp only [takeTurn, Host.Outcome.next.injEq] at h
    exact h ▸ .reset hsical0

theorem exec_next (i : Instr) (s : State) : ∃ s', exec i s = .next s' := by
  cases i with
  | rd idx =>
    simp only [exec, execRd, acceptRead]
    split
    · split <;> exact ⟨_, rfl⟩
    · exact ⟨_, rfl⟩
  | wr idx v => exact ⟨_, accept_eq _ _ _⟩
  | set idx m => exact ⟨_, accept_eq _ _ _⟩
  | clr idx m => exact ⟨_, accept_eq _ _ _⟩
  | clkInit src pllSrc mul => exact ⟨_, accept_eq _ _ _⟩
  | periphEnable id => exact ⟨_, accept_eq _ _ _⟩
  | periphReset id => exact ⟨_, accept_eq _ _ _⟩
  | prescalerSet sel d => exact ⟨_, accept_eq _ _ _⟩

/-- No turn stops the machine. -/
theorem takeTurn_next (t : Turn) (s : State) : ∃ s', takeTurn t s = .next s' := by
  cases t with
  | host cw dw =>
    simp only [takeTurn, hostIssue]
    split
    · exact exec_next _ _
    · exact ⟨_, rfl⟩
  | ctrl => exact ⟨_, rfl⟩
  | env k => exact ⟨_, rfl⟩
  | blockReset h => exact ⟨_, rfl⟩

end Sys2Proof.Machine
end

