-- ==== Sys2Proof/Tests/Slice0.lean ====
section
/-! SUPPORT. Tests with expected values from spec/95_test_vectors.md and spec/30_encoding.md R90, the
refusals of each well-formedness check, and for every statement with hypotheses a state and operands
that meet them. -/

namespace Sys2Proof.Tests.Slice0

open Sys2Proof Sys2Proof.Machine

/-- The configuration of the test vectors: the defaults, with a working oscillator and PLL. -/
def cfg0 : Config := Config.default true true

/-- `S0` of 95_test_vectors.md, with `hh` = A5. -/
def s0 : State := State.ofReset cfg0 0xA5#8

/-- The state of an outcome that is a next state. -/
def nextOf : Host.Outcome State Fault Refusal → Option State
  | .next s => some s
  | .fault _ => none
  | .refused _ => none

/-- The state after a turn. -/
def after (t : Turn) (s : State) : State := (nextOf (takeTurn t s)).getD s

/-- The states of the run that takes the given turns. -/
def statesOf (turns : Nat → Turn) (s : State) : Nat → State
  | 0 => s
  | n + 1 => after (turns n) (statesOf turns s n)

/-- The state after the turns of a list. -/
def afterAll : List Turn → State → State
  | [], s => s
  | t :: ts, s => afterAll ts (after t s)

theorem after_next (t : Turn) (s : State) : takeTurn t s = .next (after t s) := by
  obtain ⟨s', h⟩ := takeTurn_next t s
  simp [after, h, nextOf]

theorem statesOf_isRun (turns : Nat → Turn) (s : State) : IsRun turns (statesOf turns s) :=
  fun n => after_next (turns n) (statesOf turns s n)

/-- HOST issues CLK_INIT PLL, HSE, MUL9. -/
def hostInit : Turn := .host 0x07010208#32 0#32

/-- The turns V-CI1 to V-CI11, with the failed polls. -/
def initTurns : List Turn :=
  [hostInit, .ctrl, .ctrl, .env .hseStart, .ctrl, .ctrl, .ctrl, .env .pllLock, .ctrl, .ctrl, .ctrl,
    .env .clockSwitch, .ctrl]

/-- `SA` of 95_test_vectors.md. -/
def sA : State := afterAll initTurns s0

/-- The state in which PERIPH_RESET USART2 has set its bit (V-PG10). -/
def sReset : State := after (.host 0x0000080A#32 0#32) s0

/-- The state in which PRESCALER_SET APB1, APB1_DIV2 has read CFGR. -/
def sPresc : State := after (.host 0x0000010B#32 0x400#32) s0

/-- The state of V-CI9, at PLL_READY. -/
def sPllReady : State := afterAll (initTurns.take 9) s0

/-- The state in which the switch to the PLL has completed and the last poll is to come. -/
def sSwitched : State := afterAll (initTurns.take 12) s0

/-- The faulted state of V-DC9. -/
def sFaulted : State := after (.host 0x00000009#32 0#32) (after hostInit s0)

/-! ### Decoding: words written out bit by bit from 30_encoding.md R83 and R84 -/

theorem test_decode_rd : decode 0b00000000_00000000_00000101_0000_0001#32 7#32 = .ok (.rd 5#8) := by decide
theorem test_decode_wr :
    decode 0b00000000_00000000_00000111_0000_0010#32 0x20000#32 = .ok (.wr 7#8 0x20000#32) := by decide
theorem test_decode_set :
    decode 0b00000000_00000000_00000000_0000_0011#32 0x10000#32 = .ok (.set 0#8 0x10000#32) := by decide
theorem test_decode_clr :
    decode 0b00000000_00000000_00000110_0000_0100#32 4#32 = .ok (.clr 6#8 4#32) := by decide
theorem test_decode_clkInit :
    decode 0b00000111_00000001_00000010_0000_1000#32 0#32 = .ok (.clkInit 2#8 1#8 7#4) := by decide
theorem test_decode_periphEnable :
    decode 0b00000000_00000000_00001000_0000_1001#32 0xFFFFFFFF#32 = .ok (.periphEnable 8#8) := by decide
theorem test_decode_periphReset :
    decode 0b00000000_00000000_00010000_0000_1010#32 0#32 = .ok (.periphReset 16#8) := by decide
theorem test_decode_prescalerSet :
    decode 0b00000000_00000000_00000001_0000_1011#32 0x400#32 = .ok (.prescalerSet 1#8 0x400#32) := by decide

/-- V-DC1 to V-DC8, one for each case of R85. -/
theorem test_decode_rejects :
    decode 0x00000000#32 0#32 = .error .unassignedOpcode ∧
    decode 0x00000005#32 0#32 = .error .unassignedOpcode ∧
    decode 0x00000011#32 0#32 = .error .reservedNonzero ∧
    decode 0x07010218#32 0#32 = .error .reservedNonzero ∧
    decode 0x00010001#32 0#32 = .error .mustBeZeroNonzero ∧
    decode 0x01000009#32 0#32 = .error .mustBeZeroNonzero ∧
    decode 0x17010208#32 0#32 = .error .mustBeZeroNonzero := by decide

theorem test_decodeTableWord :
    decodeTableWord 32 0x07010208 = some (.clkInit 2#8 1#8 7#4) ∧
    decodeTableWord 64 0x00020000_00000702 = some (.wr 7#8 0x20000#32) ∧
    decodeTableWord 32 0x0000000F = none := by decide

/-! ### Well-formedness: a term that each check refuses -/

theorem test_wf_default : (Config.default true false).wf = true := by decide

/-- A line of 32 (10_state.md R34). -/
theorem test_wf_linesInRange :
    Config.linesInRange { cfg0 with registry := [⟨"X", .apb1, 31⟩, ⟨"Y", .apb1, 32⟩] } = false := by decide
/-- Two peripherals on one control bit (R34). -/
theorem test_wf_linesUnique :
    Config.linesUnique { cfg0 with registry := [⟨"X", .apb1, 3⟩, ⟨"Y", .apb2, 3⟩, ⟨"Z", .apb1, 3⟩] } = false := by
  decide
theorem test_wf_indices_distinct :
    Config.indicesOk { cfg0 with indices := { cfg0.indices with cr := 1 } } = false := by decide
theorem test_wf_indices_in_window : Config.indicesOk { cfg0 with nRegIdx := 7 } = false := by decide
theorem test_wf_indices_in_operand :
    Config.indicesOk { cfg0 with nRegIdx := 300, indices := { RegIndices.default with cr := 256 } } = false := by
  decide
theorem test_wf_offsets_apart :
    Config.offsetsOk { cfg0 with offsets := { RegOffsets.default with cir := 6 } } = false := by decide
theorem test_wf_layout_inRange : Layout.inRange { Layout.default with cfgrPllmul := 29 } = false := by decide
theorem test_wf_cr_fieldsDisjoint :
    Config.fieldsDisjoint { cfg0 with layout := { Layout.default with crHserdy := 16 } } = false := by decide
theorem test_wf_cfgr_fieldsDisjoint :
    Config.fieldsDisjoint { cfg0 with prescMasks := { PrescMasks.default with adc := 0x3000#32 } } = false := by
  decide
theorem test_wf_codesOk :
    Config.codesOk { cfg0 with codes := { ClockCodes.default with srcPll := 3#2 } } = false := by decide
theorem test_wf_resetCrOk : Config.resetCrOk { cfg0 with resetCr := 0x00010083#32 } = false := by decide

theorem test_wf_asmReg : AsmLine.wf (.rd (.code 256)) = false := by decide
theorem test_wf_asmImm : AsmLine.wf (.wr (.name .cr) 0x100000000) = false := by decide
theorem test_wf_asmSrc : AsmLine.wf (.clkInit (.code 256) .hse (.times 9)) = false := by decide
theorem test_wf_asmPllSrc : AsmLine.wf (.clkInit .pll (.code 256) (.times 9)) = false := by decide
theorem test_wf_asmMul :
    AsmLine.wf (.clkInit .pll .hse (.times 17)) = false ∧ AsmLine.wf (.clkInit .pll .hse (.times 1)) = false ∧
    AsmLine.wf (.clkInit .pll .hse (.code 16)) = false := by decide
theorem test_wf_asmPeriph : AsmLine.wf (.periphEnable (.code 256)) = false := by decide
theorem test_wf_asmSel : AsmLine.wf (.prescalerSet (.code 256) (.imm 0)) = false := by decide
theorem test_wf_asmDiv : AsmLine.wf (.prescalerSet (.name .adc) (.imm 0x100000000)) = false := by decide

/-- An unknown name is an assembly error (30_encoding.md R89). -/
theorem test_assemble_unknown_name : assemble cfg0 (.periphEnable (.name "GPIOX")) = none := by decide

/-! ### Each command, from the vectors of 95_test_vectors.md -/

/-- V-RA2. -/
theorem test_rd : ((nextOf (exec (.rd 5#8) s0)).map State.rspData) = some 0x14#32 := by decide
/-- V-RA3 and V-RA5. -/
theorem test_rd_index_faults :
    ((nextOf (exec (.rd 2#8) s0)).map State.statusPort) = some ⟨false, true, 0x04#8, 0x201#32, 2#32, 0#32⟩ ∧
    ((nextOf (exec (.rd 10#8) s0)).map State.statusPort) = some ⟨false, true, 0x03#8, 0xA01#32, 10#32, 0#32⟩ := by
  decide
/-- V-RA9: HSICAL is read-only. -/
theorem test_wr_keeps_readOnly :
    ((nextOf (exec (.wr 0#8 0x83#32) s0)).map fun s => (s.reg.cr, s.trace)) =
      some (0xA583#32, [⟨.host, .cr, .write, 0x83#32, 0xA583#32⟩]) := by decide
/-- V-RA13: SW = 11. -/
theorem test_wr_refused :
    ((nextOf (exec (.wr 1#8 3#32) s0)).map State.statusPort) = some ⟨false, true, 0x05#8, 0x102#32, 3#32, 0#32⟩ := by
  decide
/-- V-RA21: U bits set to their own value. -/
theorem test_set_own_value :
    ((nextOf (exec (.set 5#8 0x14#32) s0)).map fun s => (s.reg.ahbenr, s.trace.length)) = some (0x14#32, 1) := by
  decide
/-- V-RA17: SW would be 11. -/
theorem test_set_refused :
    ((nextOf (exec (.set 1#8 1#32) sA)).map fun s => (s.faultCode, s.faultDw)) = some (0x05#8, 0x001D000B#32) := by
  decide
/-- V-RA19: a raw switch back, and CLOCK_SWITCH after it. -/
theorem test_clr_switches_back :
    ((nextOf (exec (.clr 1#8 3#32) sA)).map fun s =>
      (s.reg.cfgr, (after (.env .clockSwitch) s).reg.cfgr, s.fsm)) =
      some (0x001D0008#32, 0x001D0000#32, .pllActive) := by decide
/-- V-RA11: HSEON cannot be cleared. -/
theorem test_clr_clock_stop :
    ((nextOf (exec (.clr 0#8 0x10000#32) (after (.host 3#32 0x10000#32) s0))).map fun s =>
      (s.faultCode, s.faultCw, s.faultDw)) = some (0x05#8, 4#32, 0xA583#32) := by decide
/-- V-CI1. -/
theorem test_clkInit :
    ((nextOf (exec (.clkInit 2#8 1#8 7#4) s0)).map fun s => (s.reg.cfgr, s.cfgLatch, s.op, s.fsm, s.busy)) =
      some (0x001D0000#32, 0x001D0000#32, .init, .cfgPrimed, true) := by decide
/-- V-CI14 and V-CI15. -/
theorem test_clkInit_faults :
    ((nextOf (exec (.clkInit 0x82#8 1#8 7#4) s0)).map fun s => (s.faultCode, s.faultDw)) =
      some (0x06#8, 0x07018208#32) ∧
    ((nextOf (exec (.clkInit 2#8 1#8 7#4) sA)).map fun s => (s.faultCode, s.faultDw)) =
      some (0x07#8, 0x07010208#32) := by decide
/-- V-PG3. -/
theorem test_periphEnable : ((nextOf (exec (.periphEnable 16#8) s0)).map fun s => s.reg.ahbenr) = some 0x15#32 := by
  decide
/-- V-PG4. -/
theorem test_periphEnable_unknown :
    ((nextOf (exec (.periphEnable 21#8) s0)).map fun s => (s.faultCode, s.faultCw, s.faultDw)) =
      some (0x08#8, 0x1509#32, 0x15#32) := by decide
/-- V-PG10. -/
theorem test_periphReset :
    (sReset.reg.apb1rstr, sReset.rstReg, sReset.rstMask, sReset.op) = (0x20000#32, .apb1rstr, 0x20000#32, .resetClr) ∧
    ((after .ctrl sReset).reg.apb1rstr, (after .ctrl sReset).op) = (0#32, .idle) := by decide
/-- DMA1 has no reset register (42_peripheral_gating.md R161). -/
theorem test_periphReset_ahb :
    ((nextOf (exec (.periphReset 16#8) s0)).map fun s => (s.faultCode, s.faultCw, s.faultDw)) =
      some (0x09#8, 0x100A#32, 0x10#32) := by decide
/-- PRESCALER_SET APB1, APB1_DIV2: the read half and the write half (43_prescaler.md R180, R181). -/
theorem test_prescalerSet :
    (sPresc.reg.cfgr, sPresc.prescVal, sPresc.op) = (0#32, 0x400#32, .prescWr) ∧
    ((after .ctrl sPresc).reg.cfgr, (after .ctrl sPresc).op) = (0x400#32, .idle) := by decide
/-- A divider bit outside the field, and a selector of 5 (R180). -/
theorem test_prescalerSet_faults :
    ((nextOf (exec (.prescalerSet 1#8 0x800#32) s0)).map fun s => (s.faultCode, s.faultDw)) =
      some (0x0B#8, 0x800#32) ∧
    ((nextOf (exec (.prescalerSet 5#8 0#32) s0)).map fun s => (s.faultCode, s.faultDw)) =
      some (0x0A#8, 5#32) := by decide
/-- V-DC9 to V-DC16: a fault while busy, what it leaves, and block reset. -/
theorem test_fault_state :
    sFaulted.statusPort = ⟨false, true, 0x02#8, 0x9#32, 0x9#32, 0#32⟩ ∧ sFaulted.fsm = .cfgPrimed ∧
    after .ctrl sFaulted = sFaulted ∧ after (.host 0x201#32 0#32) sFaulted = sFaulted ∧
    (after (.host 0x101#32 0#32) sFaulted).rspData = 0x001D0000#32 ∧
    after (.blockReset 0xA5#8) sFaulted = s0 := by decide
/-- RCC_BASE + 0x14 is AHBENR (20_memory.md R61). -/
theorem test_window :
    windowByte s0 0x40021014 = some 0x14#8 ∧ windowByte s0 0x40021001 = some 0xA5#8 ∧
    windowByte s0 0x40021008 = none ∧ windowByte s0 0x40021024 = none ∧ windowByte s0 0x40021028 = none := by
  decide
/-- OFF is a parameter: with CR moved to 0x40 its bytes are there, and no longer at 0 (00_scope.md R9). -/
theorem test_window_offset :
    let s := State.ofReset { cfg0 with offsets := { RegOffsets.default with cr := 0x40 } } 0xA5#8
    s.cfg.wf = true ∧ windowByte s 0x40021040 = some 0x83#8 ∧ windowByte s 0x40021000 = none := by decide
/-- Codes 14 and 15 both mean x16, and the assembler writes 14 (00_scope.md R9, 10_state.md R29). -/
theorem test_mulCode :
    cfg0.multiplier 14#4 = some 16 ∧ cfg0.multiplier 15#4 = some 16 ∧ cfg0.multiplier 0#4 = some 2 ∧
    cfg0.mulCode 16 = some 14#4 ∧ cfg0.mulCode 9 = some 7#4 ∧ cfg0.mulCode 17 = none := by decide
/-- Spaces and separators of a line's text (30_encoding.md R87; the choices of log 18). -/
theorem test_parse_spaces :
    parseLine "RD C R" = none ∧ parseLine "RD  CR " = some (.rd (.name .cr)) ∧
    parseLine "WR CR, 1 2" = none ∧ parseLine "WR CR,1__2" = none ∧ parseLine "WR CR, 12_" = none ∧
    parseLine "WR CR,1_2" = some (.wr (.name .cr) 12) := by decide
/-- The first step after reset with a command placed runs it. -/
theorem test_step_placed :
    ((nextOf (step (State.reset.withFetchWord 64 0x00020000_00000702))).map fun s => s.reg.apb1enr) =
      some 0x20000#32 := by decide

/-! ### Witnesses: a state and operands that meet the hypotheses of each statement, clause by clause -/

theorem witness_EncodeOfDecodeIsTheCommandWord :
    decode 0x0F010208#32 5#32 = .ok (.clkInit 2#8 1#8 15#4) ∧ decode 0xFF02#32 5#32 = .ok (.wr 255#8 5#32) := by
  decide

/-- One word for each row's clause, the operand byte at its ends. -/
theorem witness_OpcodeMapSelectsTheCommand :
    0x0000FF01#32 &&& 0xFFFF00FF#32 = 0x00000001#32 ∧ 0x00000002#32 &&& 0xFFFF00FF#32 = 0x00000002#32 ∧
    0x0000FF03#32 &&& 0xFFFF00FF#32 = 0x00000003#32 ∧ 0x00000004#32 &&& 0xFFFF00FF#32 = 0x00000004#32 ∧
    0x0FFFFF08#32 &&& 0xF00000FF#32 = 0x00000008#32 ∧ 0x0000FF09#32 &&& 0xFFFF00FF#32 = 0x00000009#32 ∧
    0x0000000A#32 &&& 0xFFFF00FF#32 = 0x0000000A#32 ∧ 0x0000FF0B#32 &&& 0xFFFF00FF#32 = 0x0000000B#32 ∧
    decode 0x0000FF01#32 0#32 = .ok (.rd 255#8) := by decide

theorem witness_IllegalCommandsFault :
    (0x0000FF05#32).extractLsb' 0 4 = 0x5#4 ∧ (0x00000011#32).extractLsb' 4 4 ≠ 0#4 ∧
    (0x17010208#32).extractLsb' 28 4 ≠ 0#4 ∧ (0x01000009#32).extractLsb' 24 8 ≠ 0#8 ∧
    s0.faulted = false ∧ decode 0x17010208#32 0#32 = .error .mustBeZeroNonzero := by decide

theorem witness_OpcodeRowsDoNotOverlap :
    ∃ a ∈ opcodeRows, ∃ b ∈ opcodeRows, a.selects 0x0FFFFF08#32 = true ∧ b.selects 0x0FFFFF08#32 = true := by
  decide

theorem witness_PeriphDisableExpandsToClear :
    cfg0.registry[20]? = some ⟨"I2C2", .apb1, 22⟩ ∧ cfg0.registry.length ≤ 21 ∧
    (∀ j, j < 20 → ∀ q, cfg0.registry[j]? = some q → q.name ≠ "I2C2") ∧
    ∀ p ∈ cfg0.registry, p.name ≠ "GPIOX" := by
  refine ⟨by decide, by decide, fun j hj q hq => ?_, by decide⟩
  have hmem : ∀ q ∈ cfg0.registry.take 20, q.name ≠ "I2C2" := by decide
  refine hmem q (List.mem_of_getElem? (i := j) ?_)
  rw [List.getElem?_take_of_lt hj, hq]

theorem witness_StepRunsTheIssuedCommand :
    ({ s0 with agenda := [hostInit, .ctrl] } : State).cfg.wf = true ∧
    decode 0x07010208#32 0#32 = .ok (.clkInit 2#8 1#8 7#4) ∧
    decodeTableWord 32 0x0000010B = some (.prescalerSet 1#8 0#32) := by decide

theorem witness_StepTakesTheNextTurn :
    s0.cfg.wf = true ∧ s0.agenda = [] ∧ ({ s0 with agenda := [.ctrl] } : State).agenda = .ctrl :: [] := by
  decide

/-- A registry with one bit twice, and one with line 32. -/
theorem witness_IllFormedRegistryHasNoRun :
    let c : Config := { cfg0 with registry := [⟨"X", .ahb, 32⟩, ⟨"Y", .apb1, 31⟩, ⟨"Z", .apb1, 31⟩] }
    c.registry[1]? = some ⟨"Y", .apb1, 31⟩ ∧ c.registry[2]? = some ⟨"Z", .apb1, 31⟩ ∧
    (⟨"X", .ahb, 32⟩ : PeriphDesc) ∈ c.registry := by decide

theorem witness_StepKeepsLaunchParameters :
    nextOf (step { s0 with agenda := [.ctrl] }) = some s0 ∧
    nextOf (takeTurn (.blockReset 1#8) s0) = some (State.ofReset cfg0 1#8) := by decide

/-- A faulted block with a legal read and with another command; an idle and a busy one. -/
theorem witness_IssueChecksInOrder :
    sFaulted.faulted = true ∧ decode 0x101#32 0#32 = .ok (.rd 1#8) ∧ regOfIndex sFaulted.cfg 1 = some .cfgr ∧
    regOfIndex sFaulted.cfg 2 = none ∧ s0.faulted = false ∧ s0.op = .idle ∧ sReset.faulted = false ∧
    sReset.op ≠ .idle ∧ decode 0x9#32 0#32 = .ok (.periphEnable 0#8) ∧
    decode 0x0#32 0#32 = .error .unassignedOpcode := by decide

/-- Faulted with HSEON set, so that an ENV step is enabled. -/
theorem witness_EffectOfTheFaultState :
    let s := { after (.host 3#32 0x10000#32) s0 with faulted := true }
    s.faulted = true ∧ isScopedRead s.cfg 0x9#32 0#32 = false ∧ decode 0x101#32 0#32 = .ok (.rd 1#8) ∧
    regOfIndex s.cfg 1 = some .cfgr ∧ envEnabled .hseStart s = true ∧
    nextOf (takeTurn (.env .hseStart) s) ≠ some s := by decide

theorem witness_OnlyBlockResetClearsAFault :
    sFaulted.faulted = true ∧ nextOf (takeTurn (.blockReset 0xA5#8) sFaulted) = some s0 ∧
    nextOf (takeTurn .ctrl sFaulted) = some sFaulted := by decide

/-- A fault of HOST, and one of CTRL in a state that no run reaches. -/
theorem witness_FaultEntryIsPrecise :
    let bad := { sPllReady with cfgLatch := 0xFFFFFFFF#32 }
    s0.faulted = false ∧ (after (.host 0x201#32 0#32) s0).faulted = true ∧ bad.faulted = false ∧
    (after .ctrl bad).faulted = true := by decide

/-- The last register, the last slot that no register has, and the first index outside the window. -/
theorem witness_ReadAnswersTheStoredWord :
    s0.cfg.wf = true ∧ (7#8).toNat = s0.cfg.index .apb1enr ∧ (∀ r, (9#8).toNat ≠ s0.cfg.index r) ∧
    (9#8).toNat < s0.cfg.nRegIdx ∧ (∀ r, (10#8).toNat ≠ s0.cfg.index r) ∧ s0.cfg.nRegIdx ≤ (10#8).toNat ∧
    s0.faulted = false ∧ sFaulted.faulted = true := by
  refine ⟨by decide, by decide, ?_, by decide, ?_, by decide, by decide, by decide⟩
  all_goals intro r; cases r <;> decide

theorem witness_WriteStoresTheWritableBits :
    s0.cfg.wf = true ∧ s0.faulted = false ∧ s0.op = .idle ∧ (7#8).toNat = s0.cfg.index .apb1enr ∧
    WriteAllowed s0 .apb1enr 0x18664007#32 ∧ ¬ WriteAllowed s0 .apb1enr 0x80000000#32 ∧
    (∀ r, (9#8).toNat ≠ s0.cfg.index r) ∧ ∀ r, (10#8).toNat ≠ s0.cfg.index r := by
  unfold WriteAllowed
  refine ⟨by decide, by decide, by decide, by decide, by decide, by decide, ?_, ?_⟩
  all_goals intro r; cases r <;> decide

theorem witness_SetRaisesTheWritableBitsOfTheMask :
    s0.cfg.wf = true ∧ s0.faulted = false ∧ s0.op = .idle ∧ (0#8).toNat = s0.cfg.index .cr ∧
    WriteAllowed s0 .cr (s0.reg.get .cr ||| 0x01010000#32) ∧
    ¬ WriteAllowed s0 .cr (s0.reg.get .cr ||| 0x00040000#32) ∧ ∀ r, (255#8).toNat ≠ s0.cfg.index r := by
  unfold WriteAllowed
  refine ⟨by decide, by decide, by decide, by decide, by decide, by decide, ?_⟩
  intro r; cases r <;> decide

theorem witness_ClearLowersTheWritableBitsOfTheMask :
    sA.cfg.wf = true ∧ sA.faulted = false ∧ sA.op = .idle ∧ (1#8).toNat = sA.cfg.index .cfgr ∧
    WriteAllowed sA .cfgr (sA.reg.get .cfgr &&& ~~~ 3#32) ∧
    ¬ WriteAllowed sA .cfgr (sA.reg.get .cfgr &&& ~~~ 0x10000#32) ∧ ∀ r, (2#8).toNat ≠ sA.cfg.index r := by
  unfold WriteAllowed
  refine ⟨by decide, by decide, by decide, by decide, by decide, by decide, ?_⟩
  intro r; cases r <;> decide

theorem witness_WriteFilterOfEveryBusWrite :
    WriteAllowed sA .cfgr 0x001D00F2#32 ∧ ¬ WriteAllowed sA .cfgr 0x001C0002#32 ∧
    ¬ WriteAllowed sA .cr 0x0200A583#32 := by
  unfold WriteAllowed
  exact ⟨by decide, by decide, by decide⟩

/-- Whether a write goes through. -/
def goesThrough (r : Result) : Bool :=
  match r with
  | .ok _ => true
  | .error _ => false

theorem witness_LawsOfThePrimitives :
    goesThrough (busSet .host .cr 0x10000#32 s0) = true ∧
    goesThrough (busSet .host .cr 0x10000#32 (after (.host 3#32 0x10000#32) s0)) = true ∧
    goesThrough (busClear .host .cfgr 3#32 sA) = true ∧
    goesThrough (busWrite .host .cfgr 0x007DFFF0#32 .write 0#32 s0) = true ∧
    (∀ r, s0.reg.get r &&& s0.cfg.un r = (RegFile.reset s0.cfg 0#8).get r &&& s0.cfg.un r) ∧
    (nextOf (step { s0 with agenda := [hostInit] })).isSome = true := by
  refine ⟨by decide, by decide, by decide, by decide, ?_, by decide⟩
  intro r; cases r <;> decide

/-- The four clauses: another source, a repeated request, a PLL that runs from HSI, and an accepted
request. -/
theorem witness_ClkInitAcceptsThePllRequest :
    let sPll := after (.host 3#32 0x01000000#32) s0
    let c := 0x001D0000#32
    s0.faulted = false ∧ s0.op = .idle ∧ sA.faulted = false ∧ sA.op = .idle ∧
    (0x82#8) ≠ s0.cfg.codes.srcPll.setWidth 8 ∧ 2#8 = s0.cfg.codes.srcPll.setWidth 8 ∧
    1#8 = s0.cfg.codes.pllsrcHse.setWidth 8 ∧ sA.fsm ≠ .internalClock ∧
    sPll.faulted = false ∧ sPll.op = .idle ∧ sPll.fsm = .internalClock ∧ ¬ WriteAllowed sPll .cfgr c ∧
    s0.fsm = .internalClock ∧ WriteAllowed s0 .cfgr c ∧
    c = ((1#8 &&& 1#8).setWidth 32 <<< s0.cfg.layout.cfgrPllsrc) |||
      ((7#4).setWidth 32 <<< s0.cfg.layout.cfgrPllmul) := by
  unfold WriteAllowed; decide

theorem witness_ComposeSetsOnlyThePllFields :
    cfg0.wf = true ∧ (nextOf (exec (.clkInit 2#8 1#8 15#4) s0)).isSome = true ∧ s0.op = .idle ∧
    ((nextOf (exec (.clkInit 2#8 1#8 15#4) s0)).map State.op) = some .init := by decide

theorem witness_InitializerEnableSteps :
    let a := after hostInit s0
    let b := afterAll (initTurns.take 5) s0
    a.cfg.wf = true ∧ a.faulted = false ∧ a.op = .init ∧ a.fsm = .cfgPrimed ∧
    b.cfg.wf = true ∧ b.faulted = false ∧ b.op = .init ∧ b.fsm = .oscReady := by decide

theorem witness_InitializerPolls :
    let a := afterAll (initTurns.take 2) s0
    let b := afterAll (initTurns.take 6) s0
    let c := afterAll (initTurns.take 10) s0
    (a.faulted, a.op, a.fsm) = (false, .init, .oscEnabling) ∧ (b.faulted, b.op, b.fsm) = (false, .init, .pllEnabling) ∧
    (c.faulted, c.op, c.fsm) = (false, .init, .switching) := by decide

/-- The register invariant of a concrete state, from its decidable parts. -/
theorem registerInv_of {s : State} (hcfg : s.cfg = cfg0)
    (hun : (Reg.all.all fun r => s.reg.get r &&& s.cfg.un r == (RegFile.reset s.cfg 0#8).get r &&& s.cfg.un r) = true)
    (hbits : s.hsirdy = true ∧ s.sw ≠ 3#2 ∧ s.sws ≠ 3#2 ∧ (s.hserdy = true → s.hseon = true) ∧
      (s.pllrdy = true → s.pllon = true)) : RegisterInv s where
  cfgWf := by rw [hcfg]; decide
  unmodelled := by
    intro r
    rw [List.all_eq_true] at hun
    exact beq_iff_eq.1 (hun r (by cases r <;> decide))
  hsirdy := hbits.1
  sw := hbits.2.1
  sws := hbits.2.2.1
  hserdy := hbits.2.2.2.1
  pllrdy := hbits.2.2.2.2

theorem witness_RegisterInv : RegisterInv sA := registerInv_of (by decide) (by decide) (by decide)

theorem witness_ControlInv : ControlInv sFaulted where
  opInit := by decide
  noRecord := by decide
  record := fun _ => ⟨.busyViolation, by decide⟩

/-- The whole invariant, with the initializer at PLL_READY. -/
theorem witness_SequencerInv_pllReady :
    SequencerInv sPllReady ∧ sPllReady.faulted = false ∧ sPllReady.op = .init ∧ sPllReady.fsm = .pllReady where
  left := {
    control := { opInit := by decide, noRecord := by decide, record := fun h => absurd h (by decide) }
    registers := registerInv_of (by decide) (by decide) (by decide)
    progress := {
      latch := fun _ => ⟨7#4, by decide⟩
      primed := by decide
      switched := by decide
      hseon := by decide
      hserdy := by decide
      pllon := by decide
      pllrdy := by decide }
    pending := { reset := fun h => absurd h (by decide), presc := fun h => absurd h (by decide) } }
  right := by decide

/-- The whole invariant, with the clear of USART2's reset pending. -/
theorem witness_SequencerInv_resetClr : SequencerInv sReset ∧ sReset.faulted = false ∧ sReset.op = .resetClr where
  left := {
    control := { opInit := by decide, noRecord := by decide, record := fun h => absurd h (by decide) }
    registers := registerInv_of (by decide) (by decide) (by decide)
    progress := {
      latch := fun h => absurd h (by decide)
      primed := by decide
      switched := by decide
      hseon := by decide
      hserdy := by decide
      pllon := by decide
      pllrdy := by decide }
    pending := {
      reset := fun _ => ⟨⟨"USART2", .apb1, 17⟩, by decide, by decide, by decide⟩
      presc := fun h => absurd h (by decide) } }
  right := by decide

/-- The whole invariant, with a prescaler write pending. -/
theorem witness_SequencerInv_prescWr : SequencerInv sPresc ∧ sPresc.faulted = false ∧ sPresc.op = .prescWr where
  left := {
    control := { opInit := by decide, noRecord := by decide, record := fun h => absurd h (by decide) }
    registers := registerInv_of (by decide) (by decide) (by decide)
    progress := {
      latch := fun h => absurd h (by decide)
      primed := by decide
      switched := by decide
      hseon := by decide
      hserdy := by decide
      pllon := by decide
      pllrdy := by decide }
    pending := {
      reset := fun h => absurd h (by decide)
      presc := fun _ => ⟨.apb1, by decide⟩ } }
  right := by decide

/-- CTRL moves in a state of the invariant (CtrlNeverFaults), and a step leaves one
(StepKeepsSequencerInvariant and the other step invariants). -/
theorem witness_CtrlNeverFaults :
    nextOf (takeTurn .ctrl sPllReady) ≠ some sPllReady ∧
    (nextOf (step { sPllReady with agenda := [.ctrl] })).isSome = true := by decide

theorem witness_StepKeepsTraceMirror : TraceMirrors sA :=
  ⟨0xA5#8, fun r => by cases r <;> decide⟩

theorem witness_StepKeepsControlInvariant :
    let s := { sReset with agenda := [.host 0x9#32 0#32] }
    s.faulted = false ∧ ((nextOf (step s)).map State.faulted) = some true := by decide

theorem witness_FsmMovesOnlyAlongTheTable :
    (after hostInit s0).fsm = .cfgPrimed ∧ (after .ctrl sPllReady).fsm = .switching := by decide

theorem witness_PllActiveIsTerminal :
    sA.fsm = .pllActive ∧ sA.faulted = false ∧ sA.op = .idle ∧ (after (.blockReset 0#8) sA).fsm = .internalClock := by
  decide

/-- The turns of the whole initialization, then CTRL's for ever. -/
def initRun (n : Nat) : Turn := initTurns.getD n .ctrl

/-- The run from S0 in which the initializer is at PLL_READY after nine turns. -/
theorem witness_SwitchOnlyAfterPllLock :
    IsRun initRun (statesOf initRun s0) ∧ (statesOf initRun s0 0).fsm = .internalClock ∧
    (statesOf initRun s0 9).fsm = .pllReady ∧ (statesOf initRun s0 10).fsm = .switching :=
  ⟨statesOf_isRun _ _, by decide, by decide, by decide⟩

/-- The turns after the acceptance of CLK_INIT. -/
def fairRun (n : Nat) : Turn := (initTurns.drop 1).getD n .ctrl

/-- S0 after the acceptance of CLK_INIT. -/
def sStarted : State := after hostInit s0

theorem fairRun_settled (k : Nat) : statesOf fairRun sStarted (12 + k) = statesOf fairRun sStarted 12 := by
  induction k with
  | zero => rfl
  | succ k ih =>
    have hturn : fairRun (12 + k) = .ctrl := by
      simp [fairRun, initTurns, List.getD]
    show after (fairRun (12 + k)) (statesOf fairRun sStarted (12 + k)) = _
    rw [hturn, ih]
    decide

theorem fairRun_fair : WeaklyFair fairRun (statesOf fairRun sStarted) := by
  intro t n h
  have hlast := h (12 + n) (by omega)
  rw [fairRun_settled] at hlast
  cases t with
  | host cw dw => exact absurd hlast (by simp [enabledTurn])
  | blockReset b => exact absurd hlast (by simp [enabledTurn])
  | env k =>
    have hnone : ∀ k, enabledTurn (.env k) (statesOf fairRun sStarted 12) = false := by
      intro k; cases k <;> decide
    rw [hnone] at hlast
    cases hlast
  | ctrl =>
    have hnone : enabledTurn .ctrl (statesOf fairRun sStarted 12) = false := by decide
    rw [hnone] at hlast
    cases hlast

theorem fairRun_quiet (n : Nat) : quietTurn cfg0 (fairRun n) = true := by
  by_cases hn : n < 12
  · have hall : ((List.range 12).all fun n => quietTurn cfg0 (fairRun n)) = true := by decide
    exact List.all_eq_true.1 hall n (List.mem_range.2 hn)
  · obtain ⟨k, rfl⟩ := Nat.exists_eq_add_of_le (Nat.le_of_not_lt hn)
    have hturn : fairRun (12 + k) = .ctrl := by simp [fairRun, initTurns, List.getD]
    rw [hturn]; rfl

theorem statesOf_cfg (turns : Nat → Turn) (s : State) (n : Nat) : (statesOf turns s n).cfg = s.cfg := by
  induction n with
  | zero => rfl
  | succ n ih =>
    rw [← ih]
    have he := takeTurn_effect (after_next (turns n) (statesOf turns s n))
    show (after (turns n) (statesOf turns s n)).cfg = _
    generalize turns n = t at he ⊢
    generalize after t (statesOf turns s n) = u at he ⊢
    cases he with
    | env k _ => cases k <;> rfl
    | _ => rfl

/-- Every premise of FairRunsReachPllActive holds of this run from S0. -/
theorem witness_FairRunsReachPllActive :
    s0.cfg.hseWorks = true ∧ s0.cfg.pllLocks = true ∧ s0.faulted = false ∧ s0.op = .idle ∧
    exec (.clkInit 2#8 1#8 7#4) s0 = .next (statesOf fairRun sStarted 0) ∧
    (statesOf fairRun sStarted 0).op = .init ∧ IsRun fairRun (statesOf fairRun sStarted) ∧
    WeaklyFair fairRun (statesOf fairRun sStarted) ∧
    ∀ n, quietWhileBusy (fairRun n) (statesOf fairRun sStarted n) = true := by
  refine ⟨by decide, by decide, by decide, by decide, ?_, by decide, statesOf_isRun _ _, fairRun_fair, ?_⟩
  · exact after_next hostInit s0
  · intro n
    have hcfg : (statesOf fairRun sStarted n).cfg = cfg0 := by
      rw [statesOf_cfg]; decide
    simp [quietWhileBusy, hcfg, fairRun_quiet]

/-- S0 meets the whole invariant, so the run above has its first premise too. -/
theorem witness_SequencerInv_reset : SequencerInv s0 where
  control := { opInit := by decide, noRecord := by decide, record := fun h => absurd h (by decide) }
  registers := registerInv_of (by decide) (by decide) (by decide)
  progress := {
    latch := fun h => absurd h (by decide)
    primed := by decide
    switched := by decide
    hseon := by decide
    hserdy := by decide
    pllon := by decide
    pllrdy := by decide }
  pending := { reset := fun h => absurd h (by decide), presc := fun h => absurd h (by decide) }

/-- A poll that never ends: a state that CTRL's turn leaves as it is. -/
theorem isRun_stuck {s : State} (h : after .ctrl s = s) : IsRun (fun _ => .ctrl) (fun _ => s) := by
  intro n
  have hs := after_next .ctrl s
  rwa [h] at hs

/-- V-CI22 and V-CI23: the dead oscillator and the PLL that never locks. -/
theorem witness_DeadClockPollsForever :
    let a := afterAll (initTurns.take 2) (State.ofReset (Config.default false true) 0xA5#8)
    let b := afterAll (initTurns.take 6) (State.ofReset (Config.default true false) 0xA5#8)
    (IsRun (fun _ => .ctrl) (fun _ => a) ∧ DeadClockInv a ∧ a.cfg.wf = true ∧ a.faulted = false ∧
      a.op = .init ∧ quietWhileBusy .ctrl a = true ∧ a.fsm = .oscEnabling ∧ a.cfg.hseWorks = false) ∧
    (IsRun (fun _ => .ctrl) (fun _ => b) ∧ DeadClockInv b ∧ b.cfg.wf = true ∧ b.faulted = false ∧
      b.op = .init ∧ quietWhileBusy .ctrl b = true ∧ b.fsm = .pllEnabling ∧ b.cfg.pllLocks = false) ∧
    a.busy = true ∧ decode 0x0000010B#32 0x400#32 = .ok (.prescalerSet 1#8 0x400#32) :=
  ⟨⟨isRun_stuck (by decide), ⟨by decide, by decide⟩, by decide⟩,
    ⟨isRun_stuck (by decide), ⟨by decide, by decide⟩, by decide⟩, by decide⟩

/-- The sequence X7 of 95_test_vectors.md: the premises hold, and this is its trace. -/
theorem witness_TraceOfOneClkInit :
    cfg0.wf = true ∧ nextOf (exec (.clkInit 2#8 1#8 7#4) s0) = some sStarted ∧
    (∀ t ∈ initTurns.drop 1, quietTurn cfg0 t = true) ∧
    nextOf (runTurns (initTurns.drop 1) sStarted) = some sA ∧ sA.fsm = .pllActive ∧ sA.reg.cfgr = 0x001D000A#32 ∧
    sA.trace =
      [ ⟨.ctrl, .cfgr, .write, 0x001D0000#32, 0x001D0000#32⟩,
        ⟨.ctrl, .cr, .set, 0x00010000#32, 0x0001A583#32⟩,
        ⟨.env, .cr, .status, 0#32, 0x0003A583#32⟩,
        ⟨.ctrl, .cr, .set, 0x01000000#32, 0x0103A583#32⟩,
        ⟨.env, .cr, .status, 0#32, 0x0303A583#32⟩,
        ⟨.ctrl, .cfgr, .write, 0x001D0002#32, 0x001D0002#32⟩,
        ⟨.env, .cfgr, .status, 0#32, 0x001D000A#32⟩ ] := by decide

theorem witness_HseStartStep :
    let s := after (.host 3#32 0x10000#32) s0
    (s.cfg.hseWorks = true ∧ s.hseon = true ∧ s.hserdy = false) ∧ s0.hseon = false ∧
    (Config.default false true).hseWorks = false ∧ sA.hserdy = true := by decide

/-- The PLL from HSI (V-RA26) and from HSE; and with its input not ready. -/
theorem witness_PllLockStep :
    let s := after (.host 3#32 0x01000000#32) s0
    let u := after (.host 3#32 0x01000000#32) (after (.host 0x102#32 0x10000#32) s0)
    (s.cfg.wf = true ∧ s.cfg.pllLocks = true ∧ s.pllon = true ∧ s.pllrdy = false ∧
      s.pllsrc = s.cfg.codes.pllsrcHsiDiv2 ∧ s.hsirdy = true) ∧
    (u.pllon = true ∧ u.pllsrc = u.cfg.codes.pllsrcHse ∧ u.hserdy = false) ∧ s0.pllon = false := by decide

/-- A switch back to HSI (V-RA19), and a switch to HSE that waits. -/
theorem witness_ClockSwitchStep :
    let s := after (.host 0x104#32 3#32) sA
    let u := after (.host 0x102#32 1#32) s0
    (s.cfg.wf = true ∧ s.sw = s.cfg.codes.srcHsi ∧ s.hsirdy = true ∧ s.sws ≠ s.sw) ∧
    (u.sw = u.cfg.codes.srcHse ∧ u.hserdy = false ∧ u.sws ≠ u.sw) ∧ s0.sws = s0.sw := by decide

theorem witness_CommonPropertiesOfEnv :
    let s := after (.host 3#32 0x10000#32) s0
    s.cfg.wf = true ∧ envEnabled .hseStart s = true ∧
    envEnabled .clockSwitch (after (.host 0x104#32 3#32) sA) = true ∧
    sA.hserdy = true ∧ sA.pllrdy = true := by decide

/-- The last identifier and the first one outside the registry. -/
theorem witness_PeriphEnableSetsTheGatingBit :
    s0.cfg.wf = true ∧ s0.faulted = false ∧ s0.op = .idle ∧
    s0.cfg.registry[(20#8).toNat]? = some ⟨"I2C2", .apb1, 22⟩ ∧ s0.cfg.registry.length ≤ (21#8).toNat := by decide

theorem witness_PeriphResetAssertsTheResetBit :
    s0.cfg.wf = true ∧ s0.faulted = false ∧ s0.op = .idle ∧
    s0.cfg.registry[(20#8).toNat]? = some ⟨"I2C2", .apb1, 22⟩ ∧
    s0.cfg.registry[(0#8).toNat]? = some ⟨"GPIOA", .apb2, 2⟩ ∧
    s0.cfg.registry[(16#8).toNat]? = some ⟨"DMA1", .ahb, 0⟩ ∧ s0.cfg.registry.length ≤ (21#8).toNat := by decide

/-- A reset pulse with an ENV step and a read between its halves, and two peripherals of one domain. -/
theorem witness_LawsOfGatingAndReset :
    let s := after (.host 3#32 0x10000#32) s0
    let mid : List Turn := [.env .hseStart, .host 1#32 0#32]
    s.cfg.wf = true ∧ s.faulted = false ∧ s.op = .idle ∧
    s.cfg.registry[(8#8).toNat]? = some ⟨"USART2", .apb1, 17⟩ ∧
    (PeriphDesc.domain ⟨"USART2", .apb1, 17⟩).resetReg = some .apb1rstr ∧
    (nextOf (exec (.periphEnable 8#8) s)).isSome = true ∧
    ((nextOf (exec (.periphReset 8#8) s)).bind fun s1 => (nextOf (runTurns mid s1)).bind fun s2 =>
      (nextOf (takeTurn .ctrl s2)).map fun s3 => s3.trace.length) = some 4 ∧
    (∀ t ∈ mid, betweenTurn s.cfg t = true) ∧
    s.cfg.registry[9]? = some ⟨"USART3", .apb1, 18⟩ := by decide

/-- The last selector and the first one outside; a divider in its field and one outside. -/
theorem witness_PrescalerReadHalf :
    s0.faulted = false ∧ s0.op = .idle ∧ 5 ≤ (5#8).toNat ∧ (4#8).toNat = PrescSel.adc.code ∧
    0xC000#32 &&& ~~~ s0.cfg.prescMask .adc = 0#32 ∧ 0x10000#32 &&& ~~~ s0.cfg.prescMask .adc ≠ 0#32 := by decide

/-- CLOCK_SWITCH and a read between the two halves. -/
theorem witness_PrescalerChangesOnlyItsField :
    let s := after (.host 0x104#32 3#32) sA
    let mid : List Turn := [.env .clockSwitch, .host 0x101#32 0#32]
    s.faulted = false ∧ s.op = .idle ∧ (1#8).toNat = PrescSel.apb1.code ∧
    0x400#32 &&& ~~~ s.cfg.prescMask .apb1 = 0#32 ∧ (∀ t ∈ mid, betweenTurn s.cfg t = true) ∧
    ((nextOf (exec (.prescalerSet 1#8 0x400#32) s)).bind fun s1 => (nextOf (runTurns mid s1)).bind fun s2 =>
      (nextOf (takeTurn .ctrl s2)).map fun s3 => s3.reg.cfgr) = some 0x001D0400#32 := by decide

theorem witness_PrescalerChangesOnlyItsField_invariant : RegisterInv (after (.host 0x104#32 3#32) sA) :=
  registerInv_of (by decide) (by decide) (by decide)

theorem witness_OnlyReadsWriteRspData :
    (after (.host 0x501#32 0#32) s0).rspData = 0x14#32 ∧ (after hostInit s0).rspData = 0#32 := by decide

/-- A HOST write, a CTRL write of a HOST command, and an ENV event. -/
theorem witness_EveryRegisterChangeIsInTheTrace :
    (after (.host 3#32 0x10000#32) s0).trace = [⟨.host, .cr, .set, 0x10000#32, 0x0001A583#32⟩] ∧
    (after (.host 9#32 0#32) s0).trace = [⟨.ctrl, .apb2enr, .set, 4#32, 4#32⟩] ∧
    (after (.env .hseStart) (after (.host 3#32 0x10000#32) s0)).trace.length = 2 := by decide

theorem witness_ResetMeetsEveryInvariant : cfg0.wf = true ∧ (Config.default false false).wf = true := by decide

theorem witness_FinalStateIsStable : quiescent sA = true := by decide

theorem witness_WindowHoldsTheRegisters : s0.cfg.wf = true ∧ 3 < 4 ∧
    s0.cfg.off (.modelled .apb1enr) = 4 * 7 ∧ windowByte s0 (0x40021000 + 4 * 7 + 3) = some 0#8 ∧
    s0.cfg.off (.unmodelled .csr) = 4 * 9 := by decide

/-- A dead oscillator that is enabled, and a step of its ENV turn. -/
theorem witness_StepKeepsDeadClockInvariant :
    let s := after (.host 3#32 0x10000#32) (State.ofReset (Config.default false false) 0#8)
    DeadClockInv s ∧ s.hseon = true ∧ s.cfg.hseWorks = false ∧
    (nextOf (step { s with agenda := [.env .hseStart] })).isSome = true :=
  ⟨⟨by decide, by decide⟩, by decide⟩

/-- A legal and an illegal command while busy, and two turns that keep the duty and fault: an RD of an
index with no register while busy, and a selector of 5 when idle. -/
theorem witness_OnlyABreachOfDutyIsABusyViolation :
    let s := after hostInit s0
    keepsDuty (.host 9#32 0#32) s = false ∧ decode 9#32 0#32 = .ok (.periphEnable 0#8) ∧
    keepsDuty (.host 5#32 0#32) s = false ∧ (∀ i, decode 5#32 0#32 ≠ .ok i) ∧ s.faulted = false ∧
    keepsDuty (.host 0xA01#32 0#32) s = true ∧ (after (.host 0xA01#32 0#32) s).faulted = true ∧
    s0.faulted = false ∧ keepsDuty (.host 0x50B#32 0#32) s0 = true ∧
    (after (.host 0x50B#32 0#32) s0).faulted = true := by
  refine ⟨by decide, by decide, by decide, ?_, by decide⟩
  intro i h
  have : (decode 5#32 0#32).isOk = false := by decide
  simp [h, Except.isOk, Except.toBool] at this

/-- A run that ends in SA, a final state that goes on with a turn of CTRL, and the invariant at SWITCHING
just before the last poll. -/
theorem witness_EndOfARunIsFinal :
    let s := { sA with agenda := [.ctrl] }
    RunEndsAt (fun _ => .ctrl) (fun _ => sA) 0 ∧ finalState s = true ∧ byHost (nextTurn s) = false ∧
    (nextOf (step s)).isSome = true ∧ SequencerInv sSwitched ∧ sSwitched.fsm = .switching ∧
    (after .ctrl sSwitched).fsm = .pllActive :=
  ⟨⟨isRun_stuck (by decide), by decide, fun _ _ => rfl⟩, by decide, by decide, by decide,
    { control := { opInit := by decide, noRecord := by decide, record := fun h => absurd h (by decide) }
      registers := registerInv_of (by decide) (by decide) (by decide)
      progress := {
        latch := fun _ => ⟨7#4, by decide⟩
        primed := by decide
        switched := by decide
        hseon := by decide
        hserdy := by decide
        pllon := by decide
        pllrdy := by decide }
      pending := { reset := fun h => absurd h (by decide), presc := fun h => absurd h (by decide) } },
    by decide⟩

end Sys2Proof.Tests.Slice0
end

section
/-! PROOFS. The statements of 10_state.md: an ill-formed registry has no run (R34), and block reset sets
the whole record (R45). -/

namespace Sys2Proof.Machine

/-- An ill-formed configuration has no run (10_state.md R34). -/
theorem step_of_not_wf {s : State} (h : ¬ s.cfg.wf = true) : step s = .refused .illFormedConfig :=
  if_neg h

/-- The default parameters are well-formed, whichever clocks work (10_state.md R43). -/
theorem default_wf (hw pl : Bool) : (Config.default hw pl).wf = true := by
  cases hw <;> cases pl <;> decide

/-- Settles O10: a shared control bit contradicts `Config.line_unique` and a line of 32 or more
`Config.line_lt`, so the configuration is not well-formed. -/
theorem illFormedRegistryHasNoRun : Obligations.IllFormedRegistryHasNoRun := by
  refine ⟨fun s i j p q hij hp hq hdomain hline => ?_, fun s p hp hline => ?_, fun hw pl => ?_⟩
  · exact step_of_not_wf fun hwf => hij (Config.line_unique hwf hp hq hdomain hline)
  · exact step_of_not_wf fun hwf => absurd (Config.line_lt hwf hp) (Nat.not_lt.2 hline)
  · obtain ⟨hrange, hunique, -⟩ := Config.wf_parts (default_wf hw pl)
    exact ⟨hrange, hunique⟩

/-- The turn of block reset is `State.ofReset`, with the order of the agents kept (10_state.md R45). -/
theorem takeTurn_blockReset (h : Byte) (s : State) :
    takeTurn (.blockReset h) s =
      .next { State.ofReset s.cfg h with agenda := s.agenda, draws := s.draws } := rfl

/-- Settles O46: `State.ofReset` and `RegFile.reset` write every component, and none depends on what was
in progress. -/
theorem blockResetSetsEveryComponent : Obligations.BlockResetSetsEveryComponent := by
  refine ⟨fun h s => ?_, fun hw pl => ⟨rfl, rfl, rfl⟩⟩
  rw [takeTurn_blockReset, State.ofReset, RegFile.reset, placeField]

end Sys2Proof.Machine
end

section
/-! PROOFS. The statements of 30_encoding.md: a row of the opcode map selects a command word by its fields
(R81, R83, R84), so the decoder answers that row's command, and the words that no row selects are the three
cases of R85. -/

namespace Sys2Proof

/-- CW[31:28], the bits of the third operand that format I requires to be zero (30_encoding.md R83). -/
def fieldTop (cw : Word) : BitVec 4 := cw.extractLsb' 28 4

@[simp] theorem fieldOp_and (v m : Word) : fieldOp (v &&& m) = fieldOp v &&& fieldOp m :=
  BitVec.extractLsb'_and

@[simp] theorem fieldRsv_and (v m : Word) : fieldRsv (v &&& m) = fieldRsv v &&& fieldRsv m :=
  BitVec.extractLsb'_and

@[simp] theorem fieldA_and (v m : Word) : fieldA (v &&& m) = fieldA v &&& fieldA m :=
  BitVec.extractLsb'_and

@[simp] theorem fieldB_and (v m : Word) : fieldB (v &&& m) = fieldB v &&& fieldB m :=
  BitVec.extractLsb'_and

@[simp] theorem fieldMul_and (v m : Word) : fieldMul (v &&& m) = fieldMul v &&& fieldMul m :=
  BitVec.extractLsb'_and

@[simp] theorem fieldTop_and (v m : Word) : fieldTop (v &&& m) = fieldTop v &&& fieldTop m :=
  BitVec.extractLsb'_and

/-- The six fields make up the whole command word (30_encoding.md R81, R82). -/
theorem word_eq_iff_fields (v w : Word) :
    v = w ↔ fieldOp v = fieldOp w ∧ fieldRsv v = fieldRsv w ∧ fieldA v = fieldA w ∧
      fieldB v = fieldB w ∧ fieldMul v = fieldMul w ∧ fieldTop v = fieldTop w := by
  refine ⟨fun h => by simp [h], fun ⟨ho, hr, ha, hb, hm, ht⟩ => ?_⟩
  simp only [fieldOp, fieldRsv, fieldA, fieldB, fieldMul, fieldTop, ← BitVec.toNat_inj,
    BitVec.extractLsb'_toNat, Nat.shiftRight_eq_div_pow] at *
  omega

theorem fieldC_eq_zero_iff (cw : Word) : fieldC cw = 0#8 ↔ fieldMul cw = 0#4 ∧ fieldTop cw = 0#4 := by
  simp only [fieldC, fieldMul, fieldTop, ← BitVec.toNat_inj, BitVec.extractLsb'_toNat,
    Nat.shiftRight_eq_div_pow, BitVec.toNat_ofNat]
  omega

/-- The operand fields that the format of CW's opcode requires to be zero are zero: the top four bits in
format I, the second and third operand in the other formats (30_encoding.md R83). -/
def unusedFieldsZero (cw : Word) : Prop :=
  (fieldOp cw = 0x8#4 → fieldTop cw = 0#4) ∧
    (fieldOp cw ≠ 0x8#4 → fieldB cw = 0#8 ∧ fieldC cw = 0#8)

/-- Every row masks OP and RSV, leaves the first operand free, and matches OP alone. -/
theorem opcodeRows_fields : ∀ row ∈ opcodeRows,
    (fieldOp row.mask = 0xF#4 ∧ fieldRsv row.mask = 0xF#4 ∧ fieldA row.mask = 0#8) ∧
      (fieldRsv row.pattern = 0#4 ∧ fieldA row.pattern = 0#8 ∧ fieldB row.pattern = 0#8 ∧
        fieldMul row.pattern = 0#4 ∧ fieldTop row.pattern = 0#4) := by decide

/-- CLK_INIT, the row of format I, leaves free the operands that the other rows mask. -/
theorem opcodeRows_operandMasks : ∀ row ∈ opcodeRows,
    (fieldOp row.pattern = 0x8#4 →
      fieldB row.mask = 0#8 ∧ fieldMul row.mask = 0#4 ∧ fieldTop row.mask = 0xF#4) ∧
    (fieldOp row.pattern ≠ 0x8#4 →
      fieldB row.mask = 0xFF#8 ∧ fieldMul row.mask = 0xF#4 ∧ fieldTop row.mask = 0xF#4) := by decide

/-- The two masks of the map with their matches (30_encoding.md R84). -/
theorem opcodeRows_literals : ∀ row ∈ opcodeRows,
    (row.mask = 0xFFFF00FF#32 ∧ row.pattern ∈ [0x00000001#32, 0x00000002#32, 0x00000003#32,
      0x00000004#32, 0x00000009#32, 0x0000000A#32, 0x0000000B#32]) ∨
    (row.mask = 0xF00000FF#32 ∧ row.pattern = 0x00000008#32) := by decide

/-- No two rows have the same opcode (30_encoding.md R84). -/
theorem opcodeRows_op_inj : ∀ a ∈ opcodeRows, ∀ b ∈ opcodeRows,
    fieldOp a.pattern = fieldOp b.pattern → a = b := by decide

/-- A row selects the words with its opcode and zeros in RSV and in the unused fields. -/
theorem OpcodeRow.selects_iff {row : OpcodeRow} (hrow : row ∈ opcodeRows) (cw : Word) :
    row.selects cw = true ↔
      fieldOp cw = fieldOp row.pattern ∧ fieldRsv cw = 0#4 ∧ unusedFieldsZero cw := by
  obtain ⟨⟨hop, hrsv, ha⟩, prsv, pa, pb, pmul, ptop⟩ := opcodeRows_fields row hrow
  obtain ⟨hinit, hother⟩ := opcodeRows_operandMasks row hrow
  have hones4 (x : BitVec 4) : x &&& 0xF#4 = x := BitVec.and_allOnes
  have hones8 (x : BitVec 8) : x &&& 0xFF#8 = x := BitVec.and_allOnes
  simp only [selects, beq_iff_eq, word_eq_iff_fields (cw &&& row.mask), fieldOp_and, fieldRsv_and, fieldA_and,
    fieldB_and, fieldMul_and, fieldTop_and, hop, hrsv, ha, prsv, pa, pb, pmul, ptop, hones4,
    BitVec.and_zero, true_and]
  refine and_congr_right fun hcw => and_congr_right fun _ => ?_
  rw [unusedFieldsZero, hcw]
  by_cases h8 : fieldOp row.pattern = 0x8#4
  · obtain ⟨hb, hmul, htop⟩ := hinit h8
    simp [h8, hb, hmul, htop, hones4]
  · obtain ⟨hb, hmul, htop⟩ := hother h8
    simp [h8, hb, hmul, htop, hones4, hones8, fieldC_eq_zero_iff]

/-- The decoder answers the command of a row that selects CW: it is the only one that does (R84). -/
theorem decode_of_selects {row : OpcodeRow} (hrow : row ∈ opcodeRows) {cw : Word}
    (hsel : row.selects cw = true) (dw : Word) : decode cw dw = .ok (operandsOf row.mnemonic cw dw) := by
  obtain ⟨found, hfind⟩ : ∃ found, opcodeRows.find? (fun row => row.selects cw) = some found :=
    Option.isSome_iff_exists.1 (List.find?_isSome.2 ⟨row, hrow, hsel⟩)
  have hmem := List.mem_of_find?_eq_some hfind
  have hfsel : found.selects cw = true := List.find?_some (p := (OpcodeRow.selects · cw)) hfind
  obtain ⟨hfound, -⟩ := (found.selects_iff hmem cw).1 hfsel
  obtain ⟨hop, -⟩ := (row.selects_iff hrow cw).1 hsel
  have heq : found = row := opcodeRows_op_inj found hmem row hrow (hfound.symm.trans hop)
  rw [decode, hfind, heq]

/-- A command decodes when some row of the opcode map selects its CW (30_encoding.md R84, R85). -/
theorem exists_decode_iff (cw dw : Word) :
    (∃ i, decode cw dw = .ok i) ↔ ∃ row ∈ opcodeRows, row.selects cw = true := by
  constructor
  · rintro ⟨i, hi⟩
    by_contra hnone
    have hfind : opcodeRows.find? (fun row => row.selects cw) = none :=
      List.find?_eq_none.2 fun row hrow hsel => hnone ⟨row, hrow, hsel⟩
    simp [decode, hfind] at hi
  · rintro ⟨row, hrow, hsel⟩
    exact ⟨_, decode_of_selects hrow hsel dw⟩

/-- `decode_of_selects` with the row written out as mnemonic, mask and match. -/
theorem decode_of_masked {m : Mnemonic} {mask pattern cw : Word} (hrow : ⟨m, mask, pattern⟩ ∈ opcodeRows)
    (h : cw &&& mask = pattern) (dw : Word) : decode cw dw = .ok (operandsOf m cw dw) :=
  decode_of_selects hrow (beq_iff_eq.2 h) dw

/-- Settles O3: each clause is one row of the map, and a command that decodes has a row that selects it. -/
theorem opcodeMapSelectsTheCommand : Obligations.OpcodeMapSelectsTheCommand := by
  intro cw dw
  refine ⟨fun h => decode_of_masked (m := .rd) (by decide) h dw,
    fun h => decode_of_masked (m := .wr) (by decide) h dw,
    fun h => decode_of_masked (m := .set) (by decide) h dw,
    fun h => decode_of_masked (m := .clr) (by decide) h dw,
    fun h => decode_of_masked (m := .clkInit) (by decide) h dw,
    fun h => decode_of_masked (m := .periphEnable) (by decide) h dw,
    fun h => decode_of_masked (m := .periphReset) (by decide) h dw,
    fun h => decode_of_masked (m := .prescalerSet) (by decide) h dw, fun hok => ?_⟩
  obtain ⟨row, hrow, hsel⟩ := (exists_decode_iff cw dw).1 hok
  have hmasked : cw &&& row.mask = row.pattern := beq_iff_eq.1 hsel
  obtain ⟨hmask, hpattern⟩ | ⟨hmask, hpattern⟩ := opcodeRows_literals row hrow
  · exact .inl (by rwa [← hmask, hmasked])
  · exact .inr (by rw [← hmask, hmasked, hpattern])

/-- The opcodes that no row has (30_encoding.md R85). -/
theorem unassigned_op_iff : ∀ op : BitVec 4,
    (¬ ∃ row ∈ opcodeRows, fieldOp row.pattern = op) ↔
      op ∈ [0x0#4, 0x5#4, 0x6#4, 0x7#4, 0xC#4, 0xD#4, 0xE#4, 0xF#4] := by decide

/-- A command decodes when its opcode is assigned and RSV and the unused fields are zero. -/
theorem exists_decode_iff_fields (cw dw : Word) :
    (∃ i, decode cw dw = .ok i) ↔
      (∃ row ∈ opcodeRows, fieldOp row.pattern = fieldOp cw) ∧ fieldRsv cw = 0#4 ∧ unusedFieldsZero cw := by
  rw [exists_decode_iff]
  constructor
  · rintro ⟨row, hrow, hsel⟩
    obtain ⟨hop, hzero⟩ := (row.selects_iff hrow cw).1 hsel
    exact ⟨⟨row, hrow, hop.symm⟩, hzero⟩
  · rintro ⟨⟨row, hrow, hop⟩, hzero⟩
    exact ⟨row, hrow, (row.selects_iff hrow cw).2 ⟨hop.symm, hzero⟩⟩

/-- A format requires a field to be zero that is not. -/
theorem not_unusedFieldsZero_iff (cw : Word) :
    ¬ unusedFieldsZero cw ↔
      (fieldOp cw = 0x8#4 ∧ fieldTop cw ≠ 0#4) ∨
        (fieldOp cw ≠ 0x8#4 ∧ (fieldB cw ≠ 0#8 ∨ fieldC cw ≠ 0#8)) := by
  rw [unusedFieldsZero, not_and_or, Classical.not_imp, Classical.not_imp, not_and_or]

/-- The three cases of 30_encoding.md R85. -/
theorem illegal_iff (cw dw : Word) :
    (∀ i, decode cw dw ≠ .ok i) ↔
      fieldOp cw ∈ [0x0#4, 0x5#4, 0x6#4, 0x7#4, 0xC#4, 0xD#4, 0xE#4, 0xF#4] ∨ fieldRsv cw ≠ 0#4 ∨
        (fieldOp cw = 0x8#4 ∧ fieldTop cw ≠ 0#4) ∨
        (fieldOp cw ≠ 0x8#4 ∧ (fieldB cw ≠ 0#8 ∨ fieldC cw ≠ 0#8)) := by
  rw [← not_exists, exists_decode_iff_fields, not_and_or, not_and_or, unassigned_op_iff,
    not_unusedFieldsZero_iff]

namespace Machine

/-- HOST's issue of a command word that does not decode (60_exceptions.md R194, R195). -/
theorem hostIssue_of_illegal {cw dw : Word} (h : ∀ i, decode cw dw ≠ .ok i) (s : State) :
    hostIssue cw dw s = .next (rejectIllegal cw s) := by
  rw [hostIssue]
  cases hd : decode cw dw with
  | ok i => exact absurd hd (h i)
  | error _ => rfl

/-- Outside the fault state an illegal command word is fault entry with that word (30_encoding.md R85). -/
theorem rejectIllegal_of_not_faulted {s : State} (hf : s.faulted = false) (cw : Word) :
    rejectIllegal cw s = faultEntry cw ⟨.illegalCommand, cw⟩ s := by
  simp [rejectIllegal, hf]

/-- Settles O4: `illegal_iff` gives the three cases, and fault entry writes the fault record alone. -/
theorem illegalCommandsFault : Obligations.IllegalCommandsFault := by
  refine fun cw dw => ⟨illegal_iff cw dw, fun s hf hillegal => ?_⟩
  rw [hostIssue_of_illegal hillegal, rejectIllegal_of_not_faulted hf]
  rfl

end Machine

end Sys2Proof
end

section
/-! PROOFS. The statement of 40_register_access.md about the write filter (R101, R103, R104): the filter's
three Boolean checks say together what `WriteAllowed` says. -/

namespace Sys2Proof.Machine

theorem changesUnmodelled_eq_false_iff (c : Config) (r : Reg) (old v : Word) :
    changesUnmodelled c r old v = false ↔ (v ^^^ old) &&& c.un r = 0#32 :=
  bne_eq_false_iff_eq

/-- `CheckCR` accepts a value that keeps the clock requests that are set (40_register_access.md R103). -/
theorem stopsClock_eq_false_iff (l : Layout) (old v : Word) :
    stopsClock l old v = false ↔
      (flag l.crHseon old = true → flag l.crHseon v = true) ∧
        (flag l.crPllon old = true → flag l.crPllon v = true) := by
  simp only [stopsClock, Bool.or_eq_false_iff, Bool.and_eq_false_imp, Bool.not_eq_false']

/-- `CheckCFGR` accepts a defined SW and, while PLLON = 1, the PLL fields of the old value (R104). -/
theorem badClockConfig_eq_false_iff (l : Layout) (cr old v : Word) :
    badClockConfig l cr old v = false ↔
      getField l.cfgrSw 2 v ≠ 3#2 ∧
        (flag l.crPllon cr = true →
          getField l.cfgrPllsrc 1 v = getField l.cfgrPllsrc 1 old ∧
            getField l.cfgrPllmul 4 v = getField l.cfgrPllmul 4 old) := by
  simp only [badClockConfig, Bool.or_eq_false_iff, Bool.and_eq_false_imp, beq_eq_false_iff_ne,
    bne_eq_false_iff_eq]

/-- The write filter accepts exactly the values that `WriteAllowed` allows: the U check holds for every
register, the check of CR or CFGR for that register alone (R101). -/
theorem writeRefused_eq_false_iff (s : State) (r : Reg) (v : Word) :
    writeRefused s r v = false ↔ WriteAllowed s r v := by
  rw [writeRefused.eq_def, Bool.or_eq_false_iff, changesUnmodelled_eq_false_iff, WriteAllowed]
  refine and_congr_right fun _ => ?_
  cases r with
  | cr => simp [stopsClock_eq_false_iff, State.hseon, State.pllon]
  | cfgr => simp [badClockConfig_eq_false_iff, State.pllon, State.pllsrc, State.pllmul]
  | apb2rstr | apb1rstr | ahbenr | apb2enr | apb1enr => simp

theorem writeRefused_of_not_allowed {s : State} {r : Reg} {v : Word} (h : ¬ WriteAllowed s r v) :
    writeRefused s r v = true :=
  Bool.eq_true_of_not_eq_false (mt (writeRefused_eq_false_iff s r v).1 h)

/-- An allowed write stores the filtered value and logs it (R101). -/
theorem busWrite_of_allowed {s : State} {r : Reg} {v : Word} (h : WriteAllowed s r v)
    (a : Agent) (k : EventKind) (operand : Word) :
    busWrite a r v k operand s = .ok (stored a r v k operand s) := by
  simp [busWrite_eq, (writeRefused_eq_false_iff s r v).2 h]

/-- A write that is not allowed faults with the refused value (R101, R103, R104). -/
theorem busWrite_of_not_allowed {s : State} {r : Reg} {v : Word} (h : ¬ WriteAllowed s r v)
    (a : Agent) (k : EventKind) (operand : Word) :
    busWrite a r v k operand s = .error ⟨.unmodelledWrite, v⟩ := by
  simp [busWrite_eq, writeRefused_of_not_allowed h]

/-- Settles O22: `stored`, the answer to an allowed write, is the statement's record of the filtered value
and its event. -/
theorem writeFilterOfEveryBusWrite : Obligations.WriteFilterOfEveryBusWrite := by
  intro a r v k operand s
  exact ⟨fun h => busWrite_of_allowed h a k operand, fun h => busWrite_of_not_allowed h a k operand⟩

end Sys2Proof.Machine
end

section
/-! PROOFS. The statements of 41_clock_tree_init.md about the acceptance of CLK_INIT (R121), the polls of
the initializer (R124, R126, R128) and its terminal state (R129). -/

namespace Sys2Proof

/-- Format I as its shifted operands (30_encoding.md R83). -/
theorem wordI_eq_or (op : BitVec 4) (a b : Byte) (m : BitVec 4) :
    wordI op a b m =
      op.setWidth 32 ||| a.setWidth 32 <<< 8 ||| b.setWidth 32 <<< 16 ||| m.setWidth 32 <<< 24 := by
  refine BitVec.eq_of_getLsbD_eq fun i hi => ?_
  simp only [getLsbD_wordI, BitVec.getLsbD_or, BitVec.getLsbD_shiftLeft, BitVec.getLsbD_setWidth]
  grind

/-- The command word of CLK_INIT (30_encoding.md R83, R84). -/
theorem encodeCw_clkInit (src pllSrc : Byte) (mul : BitVec 4) :
    encodeCw (.clkInit src pllSrc mul) =
      0x00000008#32 ||| src.setWidth 32 <<< 8 ||| pllSrc.setWidth 32 <<< 16 ||| mul.setWidth 32 <<< 24 :=
  wordI_eq_or 0x8#4 src pllSrc mul

/-- Bit 0 of an operand, cut out or masked out. -/
theorem setWidth_extractLsb'_one (x : Byte) :
    (x.extractLsb' 0 1).setWidth 32 = (x &&& 1#8).setWidth 32 := by
  rw [BitVec.and_one_eq_setWidth_ofBool_getLsbD, ← BitVec.setWidth_one,
    ← BitVec.setWidth_eq_extractLsb' (w := 1) (by decide), BitVec.setWidth_setWidth (v := 8) (by decide)]

namespace Machine

/-- The step-1 value as the formula of the rule, at the field positions of the layout (R122). -/
theorem compose_eq (l : Layout) (pllSrc : Byte) (mul : BitVec 4) :
    compose l pllSrc mul =
      (pllSrc &&& 1#8).setWidth 32 <<< l.cfgrPllsrc ||| mul.setWidth 32 <<< l.cfgrPllmul := by
  rw [compose, placeField, placeField, setWidth_extractLsb'_one]

/-! ### The acceptance of CLK_INIT -/

/-- In an idle block a command other than RD takes its acceptance step (60_exceptions.md R195). -/
theorem accept_of_idle {s : State} (hf : s.faulted = false) (hop : s.op = .idle) (cw : Word)
    (body : State → Result) : accept cw body s = .next (settle cw (body s) s) := by
  simp [accept_eq, hf, hop]

theorem exec_clkInit_of_idle {s : State} (hf : s.faulted = false) (hop : s.op = .idle) (src pllSrc : Byte)
    (mul : BitVec 4) : exec (.clkInit src pllSrc mul) s =
      .next (settle (encodeCw (.clkInit src pllSrc mul)) (clkInitBody src pllSrc mul s) s) :=
  accept_of_idle hf hop _ _

/-- The accepted request is the PLL fed by HSE (R121). -/
theorem clockRequestOk_iff (c : Config) (src pllSrc : Byte) :
    clockRequestOk c src pllSrc = true ↔
      src = c.codes.srcPll.setWidth 8 ∧ pllSrc = c.codes.pllsrcHse.setWidth 8 := by
  simp only [clockRequestOk, Bool.and_eq_true, beq_iff_eq]

/-- The first check of R121. -/
theorem clkInitBody_of_other_request {s : State} {src pllSrc : Byte}
    (hq : ¬ clockRequestOk s.cfg src pllSrc = true) (mul : BitVec 4) :
    clkInitBody src pllSrc mul s = .error ⟨.assertClksrc, encodeCw (.clkInit src pllSrc mul)⟩ := by
  simp [clkInitBody, hq]

/-- The second check of R121. -/
theorem clkInitBody_of_repeated {s : State} {src pllSrc : Byte}
    (hq : clockRequestOk s.cfg src pllSrc = true) (hfsm : s.fsm ≠ .internalClock) (mul : BitVec 4) :
    clkInitBody src pllSrc mul s = .error ⟨.initRepeated, encodeCw (.clkInit src pllSrc mul)⟩ := by
  simp [clkInitBody, hq, hfsm]

/-- The write of step 1 is refused (R121). -/
theorem clkInitBody_of_not_allowed {s : State} {src pllSrc : Byte} {mul : BitVec 4}
    (hq : clockRequestOk s.cfg src pllSrc = true) (hfsm : s.fsm = .internalClock)
    (hw : ¬ WriteAllowed s .cfgr (compose s.cfg.layout pllSrc mul)) :
    clkInitBody src pllSrc mul s = .error ⟨.unmodelledWrite, compose s.cfg.layout pllSrc mul⟩ := by
  simp [clkInitBody, hq, hfsm, busWrite_of_not_allowed hw]

/-- The accepted request performs step 1 and latches its value (R121). -/
theorem clkInitBody_of_allowed {s : State} {src pllSrc : Byte} {mul : BitVec 4}
    (hq : clockRequestOk s.cfg src pllSrc = true) (hfsm : s.fsm = .internalClock)
    (hw : WriteAllowed s .cfgr (compose s.cfg.layout pllSrc mul)) :
    clkInitBody src pllSrc mul s = .ok
      { stored .ctrl .cfgr (compose s.cfg.layout pllSrc mul) .write (compose s.cfg.layout pllSrc mul) s with
        cfgLatch := compose s.cfg.layout pllSrc mul, op := .init, fsm := .cfgPrimed } := by
  simp [clkInitBody, hq, hfsm, busWrite_of_allowed hw]

/-- Settles O24: the four clauses are the four answers of `clkInitBody`, with the command word and the
step-1 value written out by `encodeCw_clkInit` and `compose_eq`. -/
theorem clkInitAcceptsThePllRequest : Obligations.ClkInitAcceptsThePllRequest := by
  intro s src pllSrc mul c cw hf hop hc hcw
  rw [← compose_eq] at hc
  rw [← encodeCw_clkInit] at hcw
  subst hc hcw
  rw [exec_clkInit_of_idle hf hop]
  refine ⟨fun hother => ?_, fun hsrc hpll => ?_⟩
  · have hq : ¬ clockRequestOk s.cfg src pllSrc = true := by rwa [clockRequestOk_iff, not_and_or]
    rw [clkInitBody_of_other_request hq]
    rfl
  · have hq : clockRequestOk s.cfg src pllSrc = true := (clockRequestOk_iff _ _ _).2 ⟨hsrc, hpll⟩
    refine ⟨fun hfsm => ?_, fun hfsm hw => ?_, fun hfsm hw => ?_⟩
    · rw [clkInitBody_of_repeated hq hfsm]
      rfl
    · rw [clkInitBody_of_not_allowed hq hfsm hw]
      rfl
    · rw [clkInitBody_of_allowed hq hfsm hw]
      rfl

/-! ### The terminal state -/

@[simp] theorem envEffect_fsm (k : EnvKind) (s : State) : (envEffect k s).fsm = s.fsm := by
  cases k <;> rfl

/-- No effect of a turn but block reset leaves PLL_ACTIVE: CLK_INIT starts from INTERNAL_CLOCK, every step
of the initializer from another state, and the other effects keep `fsm` (R120, R129). -/
theorem TurnEffect.fsm_of_pllActive {s s' : State} {t : Turn} (h : TurnEffect s t s')
    (hactive : s.fsm = .pllActive) :
    s'.fsm = .pllActive ∨ (s'.fsm = .internalClock ∧ ∃ b, t = .blockReset b) := by
  cases h with
  | reset b => exact .inr ⟨rfl, b, rfl⟩
  | clkInit _ _ _ _ _ _ _ hfsm | enableOsc _ _ hfsm | pollOsc _ _ hfsm | enablePll _ _ hfsm
  | pollPll _ _ hfsm | switch _ _ hfsm | pollSwitch _ _ hfsm =>
    exact absurd (hactive.symm.trans hfsm) (by decide)
  | pass | hostFault | read | hostWrite | periphEnable | periphReset | prescaler | ctrlFault
  | resetClear | prescWrite | env => exact .inl (by simpa using hactive)

/-- Settles O30: `TurnEffect.fsm_of_pllActive` for the turns, and the second check of CLK_INIT for the
repeated request. -/
theorem pllActiveIsTerminal : Obligations.PllActiveIsTerminal := by
  refine ⟨fun t s s' hactive h => (takeTurn_effect h).fsm_of_pllActive hactive,
    fun s mul hactive hf hop => ?_⟩
  have hq := (clockRequestOk_iff s.cfg _ _).2 ⟨rfl, rfl⟩
  have hfsm : s.fsm ≠ .internalClock := by simp [hactive]
  rw [exec_clkInit_of_idle hf hop, clkInitBody_of_repeated hq hfsm]
  rfl

/-! ### The polls -/

/-- A turn of CTRL while CLK_INIT is in progress is the initializer's step (R120). -/
theorem takeTurn_ctrl_of_init {s : State} (hf : s.faulted = false) (hop : s.op = .init)
    (hstart : s.fsm ≠ .internalClock) (hend : s.fsm ≠ .pllActive) :
    takeTurn .ctrl s = .next (settle 0#32 (ctrlInit s) s) := by
  simp [takeTurn, ctrlTurn, ctrlEnabled, ctrlBody, hf, hop, hstart, hend]

/-- The poll of HSERDY (R124). -/
theorem ctrlInit_of_oscEnabling {s : State} (hfsm : s.fsm = .oscEnabling) :
    ctrlInit s = .ok (if s.hserdy then { s with fsm := .oscReady } else s) := by
  simp only [ctrlInit, hfsm]
  exact (apply_ite Except.ok _ _ _).symm

/-- The poll of PLLRDY (R126). -/
theorem ctrlInit_of_pllEnabling {s : State} (hfsm : s.fsm = .pllEnabling) :
    ctrlInit s = .ok (if s.pllrdy then { s with fsm := .pllReady } else s) := by
  simp only [ctrlInit, hfsm]
  exact (apply_ite Except.ok _ _ _).symm

/-- The poll of SWS, which ends the command (R128). -/
theorem ctrlInit_of_switching {s : State} (hfsm : s.fsm = .switching) :
    ctrlInit s =
      .ok (if s.sws = s.cfg.codes.srcPll then { s with fsm := .pllActive, op := .idle } else s) := by
  simp only [ctrlInit, hfsm]
  exact (apply_ite Except.ok _ _ _).symm

/-- Settles O27: at each polling state the CTRL turn is the initializer's step, which is that poll. -/
theorem initializerPolls : Obligations.InitializerPolls := by
  refine ⟨fun s hf hop => ⟨fun hfsm => ?_, fun hfsm => ?_, fun hfsm => ?_⟩, rfl, rfl, rfl, rfl⟩
  · rw [takeTurn_ctrl_of_init hf hop (by simp [hfsm]) (by simp [hfsm]), ctrlInit_of_oscEnabling hfsm]
    rfl
  · rw [takeTurn_ctrl_of_init hf hop (by simp [hfsm]) (by simp [hfsm]), ctrlInit_of_pllEnabling hfsm]
    rfl
  · rw [takeTurn_ctrl_of_init hf hop (by simp [hfsm]) (by simp [hfsm]), ctrlInit_of_switching hfsm]
    rfl

end Machine

end Sys2Proof
end

section
/-! PROOFS. The statements of 42_peripheral_gating.md about the acceptance of PERIPH_ENABLE (R160) and of
PERIPH_RESET (R161): a registered line is writable in its register, so the set stores exactly the OR. -/

namespace Sys2Proof

/-- Formats R, P and S as their shifted operand (30_encoding.md R83). -/
theorem wordRPS_eq_or (op : BitVec 4) (a : Byte) :
    wordRPS op a = op.setWidth 32 ||| a.setWidth 32 <<< 8 := by
  refine BitVec.eq_of_getLsbD_eq fun i hi => ?_
  simp only [getLsbD_wordRPS, BitVec.getLsbD_or, BitVec.getLsbD_shiftLeft, BitVec.getLsbD_setWidth]
  grind

/-- The command word of PERIPH_ENABLE (30_encoding.md R83, R84). -/
theorem encodeCw_periphEnable (id : Byte) :
    encodeCw (.periphEnable id) = 0x00000009#32 ||| id.setWidth 32 <<< 8 :=
  wordRPS_eq_or 0x9#4 id

/-- The command word of PERIPH_RESET (R83, R84). -/
theorem encodeCw_periphReset (id : Byte) :
    encodeCw (.periphReset id) = 0x0000000A#32 ||| id.setWidth 32 <<< 8 :=
  wordRPS_eq_or 0xA#4 id

theorem Domain.enableReg_ne_clock (d : Domain) : d.enableReg ≠ .cr ∧ d.enableReg ≠ .cfgr := by
  cases d <;> decide

theorem Domain.resetReg_ne_clock {d : Domain} {r : Reg} (h : d.resetReg = some r) : r ≠ .cr ∧ r ≠ .cfgr := by
  cases d <;> cases h <;> decide

/-- The two domains that have a reset register, with their registers (10_state.md R36). -/
theorem Domain.resetReg_eq_some_iff (d : Domain) (r : Reg) :
    d.resetReg = some r ↔ (d = .apb1 ∧ r = .apb1rstr) ∨ (d = .apb2 ∧ r = .apb2rstr) := by
  cases d <;> simp [resetReg, eq_comm]

namespace Machine

/-- An identifier beyond the registry faults (10_state.md R35). -/
theorem lookup_of_length_le {c : Config} {id : Byte} (h : c.registry.length ≤ id.toNat) :
    lookup c id = .error ⟨.assertPeriphId, id.setWidth 32⟩ := by
  rw [lookup, List.getElem?_eq_none h]

/-- `reg[r] |= m` by one SET event of CTRL: what a bus set of writable bits leaves
(40_register_access.md R105). -/
def ctrlSet (r : Reg) (m : Word) (s : State) : State :=
  { s with
    reg := s.reg.set r (s.reg.get r ||| m)
    trace := s.trace ++ [⟨.ctrl, r, .set, m, s.reg.get r ||| m⟩] }

/-- Outside CR and CFGR the filter allows every set of writable bits (R101). -/
theorem writeAllowed_or {s : State} {r : Reg} {m : Word} (hm : m &&& s.cfg.wm r = m)
    (hr : r ≠ .cr ∧ r ≠ .cfgr) : WriteAllowed s r (s.reg.get r ||| m) := by
  obtain ⟨hcr, hcfgr⟩ := hr
  exact ⟨(changesUnmodelled_eq_false_iff _ _ _ _).1 (changesUnmodelled_or _ _ _ hm),
    fun h => absurd h hcr, fun h => absurd h hcfgr⟩

/-- So such a set succeeds and stores exactly the OR (R101, R105). -/
theorem busSet_of_writable {s : State} {r : Reg} {m : Word} (hm : m &&& s.cfg.wm r = m)
    (hr : r ≠ .cr ∧ r ≠ .cfgr) : busSet .ctrl r m s = .ok (ctrlSet r m s) := by
  rw [busSet, busWrite_of_allowed (writeAllowed_or hm hr), stored, filtered_or _ _ _ hm]
  rfl

/-! ### PERIPH_ENABLE -/

theorem exec_periphEnable_of_idle {s : State} (hf : s.faulted = false) (hop : s.op = .idle) (id : Byte) :
    exec (.periphEnable id) s =
      .next (settle (encodeCw (.periphEnable id)) (periphEnableBody id s) s) :=
  accept_of_idle hf hop _ _

/-- A registered peripheral's gating bit is set (R160). -/
theorem periphEnableBody_of_registered {s : State} {id : Byte} {p : PeriphDesc}
    (hp : s.cfg.registry[id.toNat]? = some p) :
    periphEnableBody id s = .ok (ctrlSet p.domain.enableReg (bit p.line) s) := by
  have hm := Config.line_enable_wm (List.mem_of_getElem? hp)
  simp [periphEnableBody, lookup_ok.2 hp, busSet_of_writable hm p.domain.enableReg_ne_clock]

theorem periphEnableBody_of_unregistered {s : State} {id : Byte}
    (h : s.cfg.registry.length ≤ id.toNat) :
    periphEnableBody id s = .error ⟨.assertPeriphId, id.setWidth 32⟩ := by
  simp [periphEnableBody, lookup_of_length_le h]

/-- Settles O39: the two answers of `periphEnableBody`, with the command word written out. -/
theorem periphEnableSetsTheGatingBit : Obligations.PeriphEnableSetsTheGatingBit := by
  intro s id _ hf hop
  rw [← encodeCw_periphEnable, exec_periphEnable_of_idle hf hop]
  refine ⟨fun p hp => ?_, fun hout => ?_⟩
  · rw [periphEnableBody_of_registered hp]
    rfl
  · rw [periphEnableBody_of_unregistered hout]
    rfl

/-! ### PERIPH_RESET -/

theorem exec_periphReset_of_idle {s : State} (hf : s.faulted = false) (hop : s.op = .idle) (id : Byte) :
    exec (.periphReset id) s =
      .next (settle (encodeCw (.periphReset id)) (periphResetBody id s) s) :=
  accept_of_idle hf hop _ _

/-- The set half of the pulse, with the clear half pending (R161). -/
theorem periphResetBody_of_resettable {s : State} {id : Byte} {p : PeriphDesc} {r : Reg}
    (hp : s.cfg.registry[id.toNat]? = some p) (hr : p.domain.resetReg = some r) :
    periphResetBody id s =
      .ok { ctrlSet r (bit p.line) s with rstReg := r, rstMask := bit p.line, op := .resetClr } := by
  have hm := Config.line_reset_wm (List.mem_of_getElem? hp) hr
  simp [periphResetBody, lookup_ok.2 hp, hr, busSet_of_writable hm (Domain.resetReg_ne_clock hr)]

/-- A peripheral whose domain has no reset register faults (R161). -/
theorem periphResetBody_of_no_resetReg {s : State} {id : Byte} {p : PeriphDesc}
    (hp : s.cfg.registry[id.toNat]? = some p) (hr : p.domain.resetReg = none) :
    periphResetBody id s = .error ⟨.assertNoResetReg, id.setWidth 32⟩ := by
  simp [periphResetBody, lookup_ok.2 hp, hr]

theorem periphResetBody_of_unregistered {s : State} {id : Byte}
    (h : s.cfg.registry.length ≤ id.toNat) :
    periphResetBody id s = .error ⟨.assertPeriphId, id.setWidth 32⟩ := by
  simp [periphResetBody, lookup_of_length_le h]

/-- Settles O40: the three answers of `periphResetBody`, with the command word written out; the high-speed
bus has no reset register. -/
theorem periphResetAssertsTheResetBit : Obligations.PeriphResetAssertsTheResetBit := by
  intro s id _ hf hop
  rw [← encodeCw_periphReset, exec_periphReset_of_idle hf hop]
  refine ⟨fun p r hp hdomain => ?_, fun p hp hahb => ?_, fun hout => ?_⟩
  · rw [periphResetBody_of_resettable hp ((Domain.resetReg_eq_some_iff _ _).2 hdomain)]
    rfl
  · rw [periphResetBody_of_no_resetReg hp (by rw [hahb]; rfl)]
    rfl
  · rw [periphResetBody_of_unregistered hout]
    rfl

end Machine

end Sys2Proof
end

section
/-! PROOFS. The statement of 43_prescaler.md about the acceptance of PRESCALER_SET (R180): the two checks
in their order, and the read half. -/

namespace Sys2Proof

/-- The command word of PRESCALER_SET (30_encoding.md R83, R84). -/
theorem encodeCw_prescalerSet (sel : Byte) (divider : Word) :
    encodeCw (.prescalerSet sel divider) = 0x0000000B#32 ||| sel.setWidth 32 <<< 8 :=
  wordRPS_eq_or 0xB#4 sel

namespace Machine

@[simp] theorem prescSelOfCode_code (q : PrescSel) : prescSelOfCode q.code = some q := by
  cases q <;> rfl

/-- There are five selectors (10_state.md R37). -/
theorem prescSelOfCode_of_five_le : ∀ {n : Nat}, 5 ≤ n → prescSelOfCode n = none
  | _ + 5, _ => rfl

theorem checkSel_of_code {sel : Byte} {q : PrescSel} (h : sel.toNat = q.code) : checkSel sel = .ok q := by
  rw [checkSel, h, prescSelOfCode_code]

theorem checkSel_of_five_le {sel : Byte} (h : 5 ≤ sel.toNat) :
    checkSel sel = .error ⟨.assertPrescalerSel, sel.setWidth 32⟩ := by
  rw [checkSel, prescSelOfCode_of_five_le h]

theorem exec_prescalerSet_of_idle {s : State} (hf : s.faulted = false) (hop : s.op = .idle) (sel : Byte)
    (divider : Word) : exec (.prescalerSet sel divider) s =
      .next (settle (encodeCw (.prescalerSet sel divider)) (prescalerBody sel divider s) s) :=
  accept_of_idle hf hop _ _

/-- The first check of R180, whatever the divider is. -/
theorem prescalerBody_of_bad_selector {sel : Byte} (h : 5 ≤ sel.toNat) (divider : Word) (s : State) :
    prescalerBody sel divider s = .error ⟨.assertPrescalerSel, sel.setWidth 32⟩ := by
  simp [prescalerBody, checkSel_of_five_le h]

/-- The second check of R180. -/
theorem prescalerBody_of_divider_outside {s : State} {sel : Byte} {q : PrescSel} {divider : Word}
    (hq : sel.toNat = q.code) (hd : divider &&& ~~~ s.cfg.prescMask q ≠ 0#32) :
    prescalerBody sel divider s = .error ⟨.prescalerDividerRange, divider⟩ := by
  simp [prescalerBody, checkSel_of_code hq, hd]

/-- The read half: the new value is latched, with its write pending (R180). -/
theorem prescalerBody_of_divider_inside {s : State} {sel : Byte} {q : PrescSel} {divider : Word}
    (hq : sel.toNat = q.code) (hd : divider &&& ~~~ s.cfg.prescMask q = 0#32) :
    prescalerBody sel divider s =
      .ok { s with prescVal := (s.reg.cfgr &&& ~~~ s.cfg.prescMask q) ||| divider, op := .prescWr } := by
  simp [prescalerBody, checkSel_of_code hq, hd, busRead]

/-- Settles O43: the three answers of `prescalerBody`, with the command word written out. -/
theorem prescalerReadHalf : Obligations.PrescalerReadHalf := by
  intro s sel d hf hop
  rw [← encodeCw_prescalerSet sel d, exec_prescalerSet_of_idle hf hop]
  refine ⟨fun hsel => ?_, fun q hq => ⟨fun hd => ?_, fun hd => ?_⟩⟩
  · rw [prescalerBody_of_bad_selector hsel]
    rfl
  · rw [prescalerBody_of_divider_outside hq hd]
    rfl
  · rw [prescalerBody_of_divider_inside hq hd]
    rfl

end Machine

end Sys2Proof
end

section
/-! PROOFS. The statements of 60_exceptions.md about HOST's issue (R195), fault entry (R193) and the fault
state (R197). A decoded command has the command word it came from, and `exec` is the pre-checks around the
command's acceptance step, which keeps `faulted` where it succeeds. -/

namespace Sys2Proof

/-! ### The command word of a decoded command -/

/-- The six fields in their order make up the command word (30_encoding.md R81, R82). -/
theorem fields_append (cw : Word) :
    fieldTop cw ++ fieldMul cw ++ fieldB cw ++ fieldA cw ++ fieldRsv cw ++ fieldOp cw = cw := by
  simp only [fieldTop, fieldMul, fieldB, fieldA, fieldRsv, fieldOp]
  rw [BitVec.extractLsb'_append_extractLsb'_eq_extractLsb' (show 28 = 24 + 4 from rfl),
    BitVec.extractLsb'_append_extractLsb'_eq_extractLsb' (show 24 = 16 + 8 from rfl),
    BitVec.extractLsb'_append_extractLsb'_eq_extractLsb' (show 16 = 8 + 8 from rfl),
    BitVec.extractLsb'_append_extractLsb'_eq_extractLsb' (show 8 = 4 + 4 from rfl),
    BitVec.extractLsb'_append_extractLsb'_eq_extractLsb' (show 4 = 0 + 4 from rfl)]
  exact BitVec.extractLsb'_eq_self

/-- Formats R, P and S are format I with the last two operands 0 (30_encoding.md R83). -/
theorem wordRPS_eq_wordI (op : BitVec 4) (a : Byte) : wordRPS op a = wordI op a 0#8 0#4 := rfl

theorem wordI_of_fields {cw : Word} (hrsv : fieldRsv cw = 0#4) (htop : fieldTop cw = 0#4) :
    wordI (fieldOp cw) (fieldA cw) (fieldB cw) (fieldMul cw) = cw := by
  have h := fields_append cw
  rwa [hrsv, htop] at h

theorem wordRPS_of_fields {cw : Word} (hrsv : fieldRsv cw = 0#4) (hb : fieldB cw = 0#8)
    (hc : fieldC cw = 0#8) : wordRPS (fieldOp cw) (fieldA cw) = cw := by
  obtain ⟨hmul, htop⟩ := (fieldC_eq_zero_iff cw).1 hc
  have h := wordI_of_fields hrsv htop
  rwa [hb, hmul, ← wordRPS_eq_wordI] at h

/-- Only CLK_INIT's row has format I; the words of the others are in the formats R, P and S (R83, R84). -/
theorem encodeCw_operandsOf (cw dw : Word) : ∀ row ∈ opcodeRows,
    encodeCw (operandsOf row.mnemonic cw dw) =
      if fieldOp row.pattern = 0x8#4 then
        wordI (fieldOp row.pattern) (fieldA cw) (fieldB cw) (fieldMul cw)
      else wordRPS (fieldOp row.pattern) (fieldA cw) := by
  simp only [opcodeRows, List.forall_mem_cons]
  exact ⟨rfl, rfl, rfl, rfl, rfl, rfl, rfl, rfl, nofun⟩

/-- A decoded command has the command word it came from (30_encoding.md R81 to R84). -/
theorem encodeCw_of_decode {cw dw : Word} {i : Instr} (h : decode cw dw = .ok i) : encodeCw i = cw := by
  obtain ⟨row, hrow, hsel⟩ := (exists_decode_iff cw dw).1 ⟨i, h⟩
  obtain ⟨hop, hrsv, hinit, hother⟩ := (row.selects_iff hrow cw).1 hsel
  obtain rfl : operandsOf row.mnemonic cw dw = i :=
    Except.ok.inj ((decode_of_selects hrow hsel dw).symm.trans h)
  rw [encodeCw_operandsOf cw dw row hrow, ← hop]
  split
  · next h8 => exact wordI_of_fields hrsv (hinit h8)
  · next h8 =>
    obtain ⟨hb, hc⟩ := hother h8
    exact wordRPS_of_fields hrsv hb hc

namespace Machine

/-! ### The pre-checks of a command -/

/-- The acceptance step of each command, without the pre-checks of 60_exceptions.md R195. -/
def acceptanceStep : Instr → State → Result
  | .rd idx => readBody idx
  | .wr idx value => writeBody idx value
  | .set idx mask => setBody idx mask
  | .clr idx mask => clearBody idx mask
  | .clkInit src pllSrc mul => clkInitBody src pllSrc mul
  | .periphEnable id => periphEnableBody id
  | .periphReset id => periphResetBody id
  | .prescalerSet sel divider => prescalerBody sel divider

theorem exec_rd (idx : Byte) (s : State) :
    exec (.rd idx) s = acceptRead (encodeCw (.rd idx)) (readBody idx) s := rfl

/-- Every command but RD goes through the same pre-checks (R194, R195). -/
theorem exec_of_not_rd {i : Instr} (h : ∀ idx, i ≠ .rd idx) (s : State) :
    exec i s = accept (encodeCw i) (acceptanceStep i) s := by
  cases i with
  | rd idx => exact absurd rfl (h idx)
  | wr | set | clr | clkInit | periphEnable | periphReset | prescalerSet => rfl

theorem hostIssue_of_decode {cw dw : Word} {i : Instr} (h : decode cw dw = .ok i) (s : State) :
    hostIssue cw dw s = exec i s := by
  rw [hostIssue, h]

/-- A command other than RD while another is in progress (R195). -/
theorem exec_of_busy {i : Instr} (hi : ∀ idx, i ≠ .rd idx) {s : State} (hf : s.faulted = false)
    (hop : s.op ≠ .idle) : exec i s = .next (faultEntry (encodeCw i) ⟨.busyViolation, encodeCw i⟩ s) := by
  simp [exec_of_not_rd hi, accept_eq, hf, hop]

/-- A command that passes the pre-checks: any in an idle block, and RD in a busy one too (R195). -/
theorem exec_of_accepted {i : Instr} {s : State} (hf : s.faulted = false)
    (h : s.op = .idle ∨ ∃ idx, i = .rd idx) :
    exec i s = .next (settle (encodeCw i) (acceptanceStep i s) s) := by
  by_cases hi : ∃ idx, i = .rd idx
  · obtain ⟨idx, rfl⟩ := hi
    simp [exec_rd, acceptRead, hf, acceptanceStep]
  · rw [exec_of_not_rd (not_exists.1 hi)]
    exact accept_of_idle hf (h.resolve_right hi) _ _

theorem readBody_of_register {s : State} {idx : Byte} {r : Reg} (hr : regOfIndex s.cfg idx.toNat = some r) :
    readBody idx s = .ok { s with rspData := s.reg.get r } := by
  simp [readBody, checkReg_ok.2 hr, busRead]

theorem readBody_of_no_register {s : State} {idx : Byte} (h : regOfIndex s.cfg idx.toNat = none) :
    readBody idx s = .error (indexFault s.cfg idx) := by
  simp [readBody, checkReg_none h]

/-- While the block is faulted a legal read still answers (R194, R195). -/
theorem exec_rd_of_faulted {s : State} (hf : s.faulted = true) {idx : Byte} {r : Reg}
    (hr : regOfIndex s.cfg idx.toNat = some r) :
    exec (.rd idx) s = .next { s with rspData := s.reg.get r } := by
  simp [exec_rd, acceptRead, hf, readBody_of_register hr]

/-- While the block is faulted every command but a legal read has no effect (R194, R195). -/
theorem exec_of_faulted {s : State} (hf : s.faulted = true) {i : Instr}
    (h : ∀ idx, i = .rd idx → regOfIndex s.cfg idx.toNat = none) : exec i s = .next s := by
  by_cases hi : ∃ idx, i = .rd idx
  · obtain ⟨idx, rfl⟩ := hi
    simp [exec_rd, acceptRead, hf, readBody_of_no_register (h idx rfl)]
  · simp [exec_of_not_rd (not_exists.1 hi), accept_eq, hf]

theorem rejectIllegal_of_faulted {s : State} (hf : s.faulted = true) (cw : Word) :
    rejectIllegal cw s = s :=
  if_pos hf

/-- Settles O12: each clause is one pre-check, and the recorded word is the issued one by
`encodeCw_of_decode`. -/
theorem issueChecksInOrder : Obligations.IssueChecksInOrder := by
  refine fun cw dw s => ⟨fun hf => ⟨fun idx r hd hr => ?_, fun hnone => ?_⟩, fun hf => ⟨fun hillegal => ?_,
    fun i hd => ⟨fun hi hop => ?_, fun _ => hostIssue_of_decode hd s⟩⟩⟩
  · rw [hostIssue_of_decode hd, exec_rd_of_faulted hf hr]
  · by_cases hlegal : ∃ i, decode cw dw = .ok i
    · obtain ⟨i, hd⟩ := hlegal
      rw [hostIssue_of_decode hd]
      exact exec_of_faulted hf fun idx hi =>
        Option.eq_none_iff_forall_ne_some.2 fun r => hnone idx r (hi ▸ hd)
    · rw [hostIssue_of_illegal (not_exists.1 hlegal), rejectIllegal_of_faulted hf]
  · rw [hostIssue_of_illegal hillegal, rejectIllegal_of_not_faulted hf]
    rfl
  · rw [hostIssue_of_decode hd, exec_of_busy hi hf hop, encodeCw_of_decode hd]
    rfl

/-! ### The fault state -/

@[simp] theorem envEffect_faulted (k : EnvKind) (s : State) : (envEffect k s).faulted = s.faulted := by
  cases k <;> rfl
@[simp] theorem envEffect_faultCode (k : EnvKind) (s : State) :
    (envEffect k s).faultCode = s.faultCode := by cases k <;> rfl
@[simp] theorem envEffect_faultCw (k : EnvKind) (s : State) : (envEffect k s).faultCw = s.faultCw := by
  cases k <;> rfl
@[simp] theorem envEffect_faultDw (k : EnvKind) (s : State) : (envEffect k s).faultDw = s.faultDw := by
  cases k <;> rfl

@[simp] theorem blockReset_faultCode (h : Byte) (s : State) : (blockReset h s).faultCode = 0#8 := rfl
@[simp] theorem blockReset_faultCw (h : Byte) (s : State) : (blockReset h s).faultCw = 0#32 := rfl
@[simp] theorem blockReset_faultDw (h : Byte) (s : State) : (blockReset h s).faultDw = 0#32 := rfl

/-- In the fault state a turn is block reset or keeps the whole fault record: the effects that could
change it are those of a block that is not faulted (60_exceptions.md R194, R197). -/
theorem TurnEffect.of_faulted {s s' : State} {t : Turn} (h : TurnEffect s t s') (hf : s.faulted = true) :
    (∃ b, t = .blockReset b ∧ s' = blockReset b s) ∨
      ((∀ b, t ≠ .blockReset b) ∧ s'.faulted = true ∧ s'.faultCode = s.faultCode ∧
        s'.faultCw = s.faultCw ∧ s'.faultDw = s.faultDw) := by
  have hrunning : ¬ s.faulted = false := by simp [hf]
  cases h with
  | reset b => exact .inl ⟨b, rfl, rfl⟩
  | pass _ ht => exact .inr ⟨ht, hf, rfl, rfl, rfl⟩
  | read => exact .inr ⟨nofun, hf, rfl, rfl, rfl⟩
  | env k => exact .inr ⟨nofun, by simp [hf]⟩
  | hostFault | hostWrite | clkInit | periphEnable | periphReset | prescaler | ctrlFault | enableOsc
  | pollOsc | enablePll | pollPll | switch | pollSwitch | resetClear | prescWrite => contradiction

/-- Settles O14: the two cases of `TurnEffect.of_faulted`. -/
theorem onlyBlockResetClearsAFault : Obligations.OnlyBlockResetClearsAFault := by
  intro t s s' hf h
  obtain ⟨b, rfl, rfl⟩ | ⟨ht, hf', hrecord⟩ := (takeTurn_effect h).of_faulted hf
  · exact ⟨by simp, fun ht => absurd rfl (ht b), fun _ => by simp⟩
  · have hnot : ¬ ∃ b, t = .blockReset b := not_exists.2 ht
    exact ⟨by simp [hf', hnot], fun _ => hrecord, fun hreset => absurd hreset hnot⟩

/-! ### Fault entry -/

theorem busWrite_ok_faulted {a : Agent} {r : Reg} {v : Word} {k : EventKind} {m : Word} {s u : State}
    (h : busWrite a r v k m s = .ok u) : u.faulted = s.faulted := by
  obtain ⟨-, rfl⟩ := busWrite_ok h
  rfl

/-- An acceptance step that succeeds keeps `faulted`: a fault is raised, and entered by `settle` alone
(60_exceptions.md R192, R193). -/
theorem acceptanceStep_ok_faulted {i : Instr} {s u : State} (h : acceptanceStep i s = .ok u) :
    u.faulted = s.faulted := by
  cases i with
  | rd idx =>
    simp only [acceptanceStep, readBody] at h
    split at h <;> cases h
    rfl
  | wr | set | clr | periphEnable =>
    simp only [acceptanceStep, writeBody, setBody, clearBody, periphEnableBody, busSet, busClear] at h
    split at h
    · cases h
    · exact busWrite_ok_faulted h
  | clkInit src pllSrc mul =>
    simp only [acceptanceStep, clkInitBody] at h
    split_ifs at h
    split at h
    · cases h
    · next hw =>
      cases h
      exact (busWrite_ok_faulted hw :)
  | periphReset id =>
    simp only [acceptanceStep, periphResetBody, busSet] at h
    split at h
    · cases h
    split at h
    · cases h
    split at h
    · cases h
    · next hw =>
      cases h
      exact (busWrite_ok_faulted hw :)
  | prescalerSet sel divider =>
    simp only [acceptanceStep, prescalerBody] at h
    split at h
    · cases h
    split_ifs at h
    cases h
    rfl

/-- A command that leaves the block faulted has entered the fault state with its own command word. -/
theorem exec_enters_fault {i : Instr} {s s' : State} (hf : s.faulted = false)
    (h : exec i s = .next s') (hf' : s'.faulted = true) : ∃ f, s' = faultEntry (encodeCw i) f s := by
  by_cases haccepted : s.op = .idle ∨ ∃ idx, i = .rd idx
  · rw [exec_of_accepted hf haccepted, Host.Outcome.next.injEq] at h
    subst h
    cases hb : acceptanceStep i s with
    | error f => exact ⟨f, rfl⟩
    | ok u => simp [hb, acceptanceStep_ok_faulted hb, hf] at hf'
  · obtain ⟨hop, hi⟩ := not_or.1 haccepted
    rw [exec_of_busy (not_exists.1 hi) hf hop, Host.Outcome.next.injEq] at h
    exact ⟨_, h.symm⟩

/-- The recorded word is the issued one, whether it decodes or not (60_exceptions.md R192, R195). -/
theorem hostIssue_enters_fault {cw dw : Word} {s s' : State} (hf : s.faulted = false)
    (h : hostIssue cw dw s = .next s') (hf' : s'.faulted = true) : ∃ f, s' = faultEntry cw f s := by
  by_cases hlegal : ∃ i, decode cw dw = .ok i
  · obtain ⟨i, hd⟩ := hlegal
    rw [hostIssue_of_decode hd] at h
    rw [← encodeCw_of_decode hd]
    exact exec_enters_fault hf h hf'
  · rw [hostIssue_of_illegal (not_exists.1 hlegal), rejectIllegal_of_not_faulted hf,
      Host.Outcome.next.injEq] at h
    exact ⟨_, h.symm⟩

/-- A CTRL turn that leaves the block faulted is its fault entry, which records 0 (R192): the other effects
of CTRL keep `faulted`. -/
theorem TurnEffect.ctrl_enters_fault {s s' : State} (h : TurnEffect s .ctrl s') (hf : s.faulted = false)
    (hf' : s'.faulted = true) : ∃ f, s' = faultEntry 0#32 f s := by
  cases h with
  | ctrlFault f => exact ⟨f, rfl⟩
  | pass | enableOsc | pollOsc | enablePll | pollPll | switch | pollSwitch | resetClear | prescWrite =>
    simp [hf] at hf'

/-- Settles O15: a fault is entered by HOST's issue or by CTRL; ENV keeps `faulted` and block reset
clears it. -/
theorem faultEntryIsPrecise : Obligations.FaultEntryIsPrecise := by
  intro t s s' hf h hf'
  cases t with
  | host cw dw =>
    obtain ⟨f, rfl⟩ := hostIssue_enters_fault hf h hf'
    exact ⟨f.cause, f.info, rfl⟩
  | ctrl =>
    obtain ⟨f, rfl⟩ := (takeTurn_effect h).ctrl_enters_fault hf hf'
    exact ⟨f.cause, f.info, rfl⟩
  | env k => cases takeTurn_effect h <;> simp [hf] at hf'
  | blockReset b => cases takeTurn_effect h <;> simp [hf] at hf'

end Machine

end Sys2Proof
end

section
/-! PROOFS. The statements of 30_encoding.md about decoding what was encoded (R80 to R84), the rows of the
opcode map (R84), the pseudo-instruction PERIPH_DISABLE (R89) and the examples (R90). -/

namespace Sys2Proof

open Laws.RowMatch (mnemonicOf)

/-! ### Decoding and encoding -/

@[simp] theorem fieldA_wordI (op : BitVec 4) (a b : Byte) (m : BitVec 4) : fieldA (wordI op a b m) = a := by
  refine BitVec.eq_of_getLsbD_eq fun i hi => ?_
  have hlo : ¬ 8 + i < 4 ∧ ¬ 8 + i < 8 ∧ 8 + i < 16 := by omega
  simp [fieldA, getLsbD_wordI, hlo, hi]

@[simp] theorem fieldB_wordI (op : BitVec 4) (a b : Byte) (m : BitVec 4) : fieldB (wordI op a b m) = b := by
  refine BitVec.eq_of_getLsbD_eq fun i hi => ?_
  have hlo : ¬ 16 + i < 4 ∧ ¬ 16 + i < 8 ∧ ¬ 16 + i < 16 ∧ 16 + i < 24 := by omega
  simp [fieldB, getLsbD_wordI, hlo, hi]

@[simp] theorem fieldMul_wordI (op : BitVec 4) (a b : Byte) (m : BitVec 4) :
    fieldMul (wordI op a b m) = m := by
  refine BitVec.eq_of_getLsbD_eq fun i hi => ?_
  have hlo : ¬ 24 + i < 4 ∧ ¬ 24 + i < 8 ∧ ¬ 24 + i < 16 ∧ ¬ 24 + i < 24 ∧ 24 + i < 28 := by omega
  simp [fieldMul, getLsbD_wordI, hlo, hi]

@[simp] theorem fieldA_wordRPS (op : BitVec 4) (a : Byte) : fieldA (wordRPS op a) = a := by
  rw [wordRPS_eq_wordI, fieldA_wordI]

/-- The row of an instruction's mnemonic selects its command word (30_encoding.md R84). -/
theorem exists_row_of_instr : ∀ i : Instr, Laws.RowMatch.Statement i
  | .rd idx => Laws.RowMatch.rd idx
  | .wr idx value => Laws.RowMatch.wr idx value
  | .set idx mask => Laws.RowMatch.set idx mask
  | .clr idx mask => Laws.RowMatch.clr idx mask
  | .clkInit src pllSrc mul => Laws.RowMatch.clkInit src pllSrc mul
  | .periphEnable id => Laws.RowMatch.periphEnable id
  | .periphReset id => Laws.RowMatch.periphReset id
  | .prescalerSet sel divider => Laws.RowMatch.prescalerSet sel divider

/-- The operands of an instruction stand in its two words (30_encoding.md R82, R83). -/
theorem operandsOf_encode (i : Instr) : operandsOf (mnemonicOf i) (encodeCw i) (encodeDw i) = i := by
  cases i <;> simp [operandsOf, mnemonicOf, encodeCw, encodeDw]

/-- Settles O1: the row of the instruction's mnemonic selects its command word, and the operands of that row
are the instruction's. -/
theorem decodeOfEncodeIsTheInstruction : Obligations.DecodeOfEncodeIsTheInstruction := by
  intro i
  obtain ⟨row, hrow, hmnemonic, hsel⟩ := exists_row_of_instr i
  rw [decode_of_selects hrow hsel, hmnemonic, operandsOf_encode]

/-- What the decoder answers is the operands of some mnemonic. -/
theorem exists_mnemonic_of_decode {cw dw : Word} {i : Instr} (h : decode cw dw = .ok i) :
    ∃ m, i = operandsOf m cw dw := by
  obtain ⟨row, hrow, hsel⟩ := (exists_decode_iff cw dw).1 ⟨i, h⟩
  exact ⟨row.mnemonic, Except.ok.inj (h.symm.trans (decode_of_selects hrow hsel dw))⟩

/-- Settles O2: `encodeCw_of_decode` for CW; the data word of a mnemonic that takes one is DW. -/
theorem encodeOfDecodeIsTheCommandWord : Obligations.EncodeOfDecodeIsTheCommandWord := by
  intro cw dw i h
  refine ⟨encodeCw_of_decode h, ?_⟩
  obtain ⟨m, rfl⟩ := exists_mnemonic_of_decode h
  cases m with
  | wr | set | clr | prescalerSet => rfl
  | rd | clkInit | periphEnable | periphReset => trivial

/-- Settles O6: a row that selects a word has the word's opcode, and no two rows have the same. -/
theorem opcodeRowsDoNotOverlap : Obligations.OpcodeRowsDoNotOverlap := by
  intro cw a ha b hb hsela hselb
  obtain ⟨hopa, -⟩ := (a.selects_iff ha cw).1 hsela
  obtain ⟨hopb, -⟩ := (b.selects_iff hb cw).1 hselb
  exact opcodeRows_op_inj a ha b hb (hopa.symm.trans hopb)

/-! ### PERIPH_DISABLE -/

/-- The command word of CLR (30_encoding.md R83, R84). -/
theorem encodeCw_clr (idx : Byte) (mask : Word) :
    encodeCw (.clr idx mask) = 0x00000004#32 ||| idx.setWidth 32 <<< 8 :=
  wordRPS_eq_or 0x4#4 idx

/-- The expansion for an identifier of the registry (30_encoding.md R89). -/
theorem expandDisable_of_registered {c : Config} {id : Nat} {p : PeriphDesc}
    (hp : c.registry[id]? = some p) :
    expandDisable c id = some (.clr (BitVec.ofNat 8 (c.index p.domain.enableReg)) (bit p.line)) := by
  rw [expandDisable, hp]

theorem expandDisable_of_length_le {c : Config} {id : Nat} (h : c.registry.length ≤ id) :
    expandDisable c id = none := by
  rw [expandDisable, List.getElem?_eq_none h]

/-- PERIPH_DISABLE whose operand names an identifier of the registry (R89). -/
theorem assemble_periphDisable_of_registered {c : Config} {a : AsmPeriph} {id : Nat} {p : PeriphDesc}
    (hwf : a.wf = true) (hid : a.id c = some id) (hp : c.registry[id]? = some p) :
    assemble c (.periphDisable a) =
      some (0x00000004#32 ||| ((BitVec.ofNat 8 (c.index p.domain.enableReg)).setWidth 32 <<< 8),
        1#32 <<< p.line) := by
  simp [assemble, AsmLine.wf, hwf, AsmLine.instr, hid, expandDisable_of_registered hp, encode,
    encodeCw_clr, encodeDw, bit]

/-- PERIPH_DISABLE whose operand names no peripheral is an assembly error (R89). -/
theorem assemble_periphDisable_of_unknown {c : Config} {a : AsmPeriph}
    (h : (a.id c).bind (expandDisable c) = none) : assemble c (.periphDisable a) = none := by
  simp [assemble, AsmLine.instr, h]

/-- A name means its lowest identifier (log 25). -/
theorem periphIdOf_eq_some {c : Config} {name : String} {id : Nat} {p : PeriphDesc}
    (hp : c.registry[id]? = some p) (hname : p.name = name)
    (hfirst : ∀ j q, j < id → c.registry[j]? = some q → q.name ≠ name) : periphIdOf c name = some id := by
  obtain ⟨hlt, hget⟩ := List.getElem?_eq_some_iff.1 hp
  refine List.findIdx?_eq_some_iff_getElem.2 ⟨hlt, by simp [hget, hname], fun j hj => ?_⟩
  have hj' := hfirst j _ hj (List.getElem?_eq_getElem (hj.trans hlt))
  simpa using hj'

theorem periphIdOf_eq_none {c : Config} {name : String} (h : ∀ p ∈ c.registry, p.name ≠ name) :
    periphIdOf c name = none :=
  List.findIdx?_eq_none_iff.2 fun p hp => by simpa using h p hp

/-- Settles O7: an operand that names an identifier of the registry, by code or by name, and one that names
none; the last clause is an example. -/
theorem periphDisableExpandsToClear : Obligations.PeriphDisableExpandsToClear := by
  refine ⟨fun c id p hid hp => ?_, fun c name id p hp hname hfirst => ?_, fun c id hid => ?_,
    fun c name hname => ?_, by decide⟩
  · exact assemble_periphDisable_of_registered (by simpa [AsmPeriph.wf, byteOk] using hid) rfl hp
  · exact assemble_periphDisable_of_registered rfl (periphIdOf_eq_some hp hname hfirst) hp
  · exact assemble_periphDisable_of_unknown (expandDisable_of_length_le hid)
  · exact assemble_periphDisable_of_unknown (by simp [AsmPeriph.id, periphIdOf_eq_none hname])

/-- Settles O5: each line is parsed and assembled, and each word decoded, as the spec writes them. -/
theorem encodingExamplesOfTheSpec : Obligations.EncodingExamplesOfTheSpec := by
  refine ⟨?_, by decide, by decide, by decide, by decide⟩
  simp only [List.forall_mem_cons]
  exact ⟨by decide, by decide, by decide, by decide, by decide, by decide, by decide, by decide,
    by decide, by decide, by decide, by decide, nofun⟩

end Sys2Proof
end

section
/-! PROOFS. The statements about a step and its turn: the choice of the turn (log 1, 2, 20), the launch
parameters (70_reset_and_hazards.md R223), the fault state (60_exceptions.md R194), HOST's duty (R205, R206)
and what a turn leaves in registers, trace and `rsp_data` (10_state.md R41, R44). -/

namespace Sys2Proof.Machine

/-! ### Fields that an effect keeps -/

@[simp] theorem stored_cfgLatch (a : Agent) (r : Reg) (v : Word) (k : EventKind) (m : Word) (s : State) :
    (stored a r v k m s).cfgLatch = s.cfgLatch := rfl
@[simp] theorem stored_rstReg (a : Agent) (r : Reg) (v : Word) (k : EventKind) (m : Word) (s : State) :
    (stored a r v k m s).rstReg = s.rstReg := rfl
@[simp] theorem stored_rstMask (a : Agent) (r : Reg) (v : Word) (k : EventKind) (m : Word) (s : State) :
    (stored a r v k m s).rstMask = s.rstMask := rfl
@[simp] theorem stored_prescVal (a : Agent) (r : Reg) (v : Word) (k : EventKind) (m : Word) (s : State) :
    (stored a r v k m s).prescVal = s.prescVal := rfl
@[simp] theorem stored_rspData (a : Agent) (r : Reg) (v : Word) (k : EventKind) (m : Word) (s : State) :
    (stored a r v k m s).rspData = s.rspData := rfl
@[simp] theorem stored_faultCode (a : Agent) (r : Reg) (v : Word) (k : EventKind) (m : Word) (s : State) :
    (stored a r v k m s).faultCode = s.faultCode := rfl
@[simp] theorem stored_faultCw (a : Agent) (r : Reg) (v : Word) (k : EventKind) (m : Word) (s : State) :
    (stored a r v k m s).faultCw = s.faultCw := rfl
@[simp] theorem stored_faultDw (a : Agent) (r : Reg) (v : Word) (k : EventKind) (m : Word) (s : State) :
    (stored a r v k m s).faultDw = s.faultDw := rfl

@[simp] theorem envEffect_cfg (k : EnvKind) (s : State) : (envEffect k s).cfg = s.cfg := by cases k <;> rfl
@[simp] theorem envEffect_op (k : EnvKind) (s : State) : (envEffect k s).op = s.op := by cases k <;> rfl
@[simp] theorem envEffect_cfgLatch (k : EnvKind) (s : State) : (envEffect k s).cfgLatch = s.cfgLatch := by
  cases k <;> rfl
@[simp] theorem envEffect_rstReg (k : EnvKind) (s : State) : (envEffect k s).rstReg = s.rstReg := by
  cases k <;> rfl
@[simp] theorem envEffect_rstMask (k : EnvKind) (s : State) : (envEffect k s).rstMask = s.rstMask := by
  cases k <;> rfl
@[simp] theorem envEffect_prescVal (k : EnvKind) (s : State) : (envEffect k s).prescVal = s.prescVal := by
  cases k <;> rfl
@[simp] theorem envEffect_rspData (k : EnvKind) (s : State) : (envEffect k s).rspData = s.rspData := by
  cases k <;> rfl

/-! ### The step -/

/-- A step of a well-formed configuration is the turn of the next agent. -/
theorem step_of_wf {s : State} (h : s.cfg.wf = true) : step s = takeTurn (nextTurn s) (afterChoice s) :=
  if_pos h

/-- A step that leaves a next state is a turn under a well-formed configuration (10_state.md R34). -/
theorem turn_of_step {s s' : State} (h : step s = .next s') :
    s.cfg.wf = true ∧ takeTurn (nextTurn s) (afterChoice s) = .next s' := by
  by_cases hwf : s.cfg.wf = true
  · exact ⟨hwf, (step_of_wf hwf).symm.trans h⟩
  · rw [step_of_not_wf hwf] at h
    cases h

/-- The choice of who moves next is used up, and the block is as it was. -/
theorem exists_afterChoice (s : State) : ∃ a d, afterChoice s = { s with agenda := a, draws := d } := by
  unfold afterChoice
  split
  · exact ⟨_, _, rfl⟩
  · exact ⟨_, _, rfl⟩

/-- A property of the block that every turn keeps is kept by every step. -/
theorem step_keeps {P : State → Prop} (hchoice : ∀ s a d, P s → P { s with agenda := a, draws := d })
    (hturn : ∀ s t s', s.cfg.wf = true → P s → TurnEffect s t s' → P s') {s s' : State} (hs : P s)
    (h : step s = .next s') : P s' := by
  obtain ⟨hwf, ht⟩ := turn_of_step h
  refine hturn _ _ _ (by simpa using hwf) ?_ (takeTurn_effect ht)
  obtain ⟨a, d, ha⟩ := exists_afterChoice s
  rw [ha]
  exact hchoice s a d hs

/-- Settles O9: the two cases of `nextTurn` and `afterChoice`. -/
theorem stepTakesTheNextTurn : Obligations.StepTakesTheNextTurn := by
  intro s hwf
  refine ⟨fun t rest ht => ?_, fun hnil => ?_⟩
  · rw [step_of_wf hwf, nextTurn, afterChoice, ht]
  · rw [step_of_wf hwf, nextTurn, afterChoice, hnil]

theorem decode_of_decodeTableWord {nbits w : Nat} {i : Instr} (h : decodeTableWord nbits w = some i) :
    decode (tableCw nbits w) (tableDw nbits w) = .ok i := by
  unfold decodeTableWord at h
  split at h
  · next hd => rw [hd, Option.some.inj h]
  · cases h

/-- Settles O8: the first turn of the agenda is the command, and HOST's issue of a legal one is `exec`. -/
theorem stepRunsTheIssuedCommand : Obligations.StepRunsTheIssuedCommand := by
  have hrun : ∀ (s : State) (cw dw : Word) (rest : List Turn) (i : Instr), s.cfg.wf = true →
      s.agenda = .host cw dw :: rest → decode cw dw = .ok i → step s = exec i { s with agenda := rest } := by
    intro s cw dw rest i hwf hagenda hd
    rw [(stepTakesTheNextTurn s hwf).1 _ rest hagenda, takeTurn, hostIssue_of_decode hd]
  exact ⟨hrun, fun s w i hwf hw =>
    hrun (s.withFetchWord 32 w) _ _ s.agenda i hwf rfl (decode_of_decodeTableWord hw)⟩

/-- No turn changes the launch configuration (70_reset_and_hazards.md R223). -/
theorem TurnEffect.cfg_eq {s s' : State} {t : Turn} (h : TurnEffect s t s') : s'.cfg = s.cfg := by
  cases h with
  | env k => exact envEffect_cfg k s
  | pass | hostFault | read | hostWrite | clkInit | periphEnable | periphReset | prescaler | ctrlFault
  | enableOsc | pollOsc | enablePll | pollPll | switch | pollSwitch | resetClear | prescWrite | reset => rfl

/-- Settles O11: `TurnEffect.cfg_eq`, and the choice of the turn keeps `cfg` too. -/
theorem stepKeepsLaunchParameters : Obligations.StepKeepsLaunchParameters := by
  refine ⟨fun s s' h => ?_, fun b s s' h => (takeTurn_effect h).cfg_eq⟩
  obtain ⟨-, ht⟩ := turn_of_step h
  rw [(takeTurn_effect ht).cfg_eq, afterChoice_cfg]

/-! ### RD -/

/-- RD of a register in scope answers its stored word, faulted or not (40_register_access.md R106). -/
theorem exec_rd_of_register {s : State} {idx : Byte} {r : Reg} (hr : regOfIndex s.cfg idx.toNat = some r) :
    exec (.rd idx) s = .next { s with rspData := s.reg.get r } := by
  by_cases hf : s.faulted = true
  · exact exec_rd_of_faulted hf hr
  · rw [exec_of_accepted (Bool.eq_false_of_not_eq_true hf) (.inr ⟨idx, rfl⟩), acceptanceStep,
      readBody_of_register hr, settle_ok]

/-- A read of a register in scope is an RD with that register's index. -/
theorem isScopedRead_iff (c : Config) (cw dw : Word) :
    isScopedRead c cw dw = true ↔ ∃ idx r, decode cw dw = .ok (.rd idx) ∧ regOfIndex c idx.toNat = some r := by
  unfold isScopedRead
  split
  · next idx hd => simp [hd, Option.isSome_iff_exists]
  · next hd => simpa using fun idx h => absurd h (hd idx)

/-! ### Turns that leave the command in progress alone -/

/-- The effects of a turn that leaves the command in progress alone: an answer on the status port, or an ENV
step. -/
inductive SideEffect (s : State) : State → Prop where
  | answer (v : Word) : SideEffect s { s with rspData := v }
  | env (k : EnvKind) (he : envEnabled k s = true) : SideEffect s (envEffect k s)

namespace SideEffect

variable {s s' : State}

theorem cfg_eq (h : SideEffect s s') : s'.cfg = s.cfg := by cases h <;> simp
theorem faulted_eq (h : SideEffect s s') : s'.faulted = s.faulted := by cases h <;> simp
theorem op_eq (h : SideEffect s s') : s'.op = s.op := by cases h <;> simp
theorem fsm_eq (h : SideEffect s s') : s'.fsm = s.fsm := by cases h <;> simp
theorem cfgLatch_eq (h : SideEffect s s') : s'.cfgLatch = s.cfgLatch := by cases h <;> simp
theorem rstReg_eq (h : SideEffect s s') : s'.rstReg = s.rstReg := by cases h <;> simp
theorem rstMask_eq (h : SideEffect s s') : s'.rstMask = s.rstMask := by cases h <;> simp
theorem prescVal_eq (h : SideEffect s s') : s'.prescVal = s.prescVal := by cases h <;> simp

end SideEffect

theorem envTurn_of_enabled {k : EnvKind} {s : State} (h : envEnabled k s = true) :
    takeTurn (.env k) s = .next (envEffect k s) := by
  simp [takeTurn, envTurn, h]

theorem envTurn_of_disabled {k : EnvKind} {s : State} (h : envEnabled k s = false) :
    takeTurn (.env k) s = .next s := by
  simp [takeTurn, envTurn, h]

theorem sideEffect_of_env {k : EnvKind} {s s' : State} (h : takeTurn (.env k) s = .next s') :
    SideEffect s s' := by
  cases takeTurn_effect h with
  | pass => exact .answer s.rspData
  | env _ he => exact .env k he

theorem sideEffect_of_scopedRead {cw dw : Word} {s s' : State} (hread : isScopedRead s.cfg cw dw = true)
    (h : takeTurn (.host cw dw) s = .next s') : SideEffect s s' := by
  obtain ⟨idx, r, hd, hr⟩ := (isScopedRead_iff _ _ _).1 hread
  rw [takeTurn, hostIssue_of_decode hd, exec_rd_of_register hr, Host.Outcome.next.injEq] at h
  exact h ▸ .answer _

/-- What may come between two CTRL steps of a command leaves the command alone (42_peripheral_gating.md
R162). -/
theorem sideEffect_of_between {t : Turn} {s s' : State} (ht : betweenTurn s.cfg t = true)
    (h : takeTurn t s = .next s') : SideEffect s s' := by
  simp only [betweenTurn, Bool.and_eq_true, bne_iff_ne] at ht
  obtain ⟨hctrl, hquiet⟩ := ht
  cases t with
  | host cw dw => exact sideEffect_of_scopedRead hquiet h
  | ctrl => exact absurd rfl hctrl
  | env k => exact sideEffect_of_env h
  | blockReset b => cases hquiet

/-- A quiet turn is CTRL's or leaves the command in progress alone. -/
theorem ctrl_or_sideEffect_of_quiet {t : Turn} {s s' : State} (ht : quietTurn s.cfg t = true)
    (h : takeTurn t s = .next s') : t = .ctrl ∨ SideEffect s s' := by
  by_cases hctrl : t = .ctrl
  · exact .inl hctrl
  · exact .inr (sideEffect_of_between (by simp [betweenTurn, hctrl, ht]) h)

/-- A property that every admitted turn keeps holds after a list of admitted turns. -/
theorem runTurns_keeps {P : State → Prop} {admitted : Config → Turn → Bool}
    (hkeep : ∀ s t s', P s → admitted s.cfg t = true → takeTurn t s = .next s' → P s') {mid : List Turn}
    {s s' : State} (hs : P s) (hmid : ∀ t ∈ mid, admitted s.cfg t = true) (h : runTurns mid s = .next s') :
    P s' := by
  induction mid generalizing s with
  | nil =>
    cases h
    exact hs
  | cons t ts ih =>
    obtain ⟨u, hu⟩ := takeTurn_next t s
    rw [runTurns, hu] at h
    refine ih (hkeep s t u hs (hmid t List.mem_cons_self) hu) (fun t' ht' => ?_) h
    rw [(takeTurn_effect hu).cfg_eq]
    exact hmid t' (List.mem_cons_of_mem t ht')

/-! ### The fault state -/

theorem ctrlEnabled_of_faulted {s : State} (h : s.faulted = true) : ctrlEnabled s = false := by
  simp [ctrlEnabled, h]

theorem takeTurn_ctrl_of_disabled {s : State} (h : ctrlEnabled s = false) : takeTurn .ctrl s = .next s := by
  simp [takeTurn, ctrlTurn, h]

/-- In the fault state every command but a legal read has no effect (60_exceptions.md R194). -/
theorem hostIssue_of_faulted {s : State} (hf : s.faulted = true) {cw dw : Word}
    (h : isScopedRead s.cfg cw dw = false) : hostIssue cw dw s = .next s := by
  refine ((issueChecksInOrder cw dw s).1 hf).2 fun idx r hd hr => ?_
  have hread := (isScopedRead_iff s.cfg cw dw).2 ⟨idx, r, hd, hr⟩
  rw [h] at hread
  cases hread

/-- In the fault state a turn but block reset leaves the command in progress alone (R194). -/
theorem sideEffect_of_faulted {t : Turn} {s s' : State} (hf : s.faulted = true)
    (ht : ∀ b, t ≠ .blockReset b) (h : takeTurn t s = .next s') : SideEffect s s' := by
  cases t with
  | host cw dw =>
    cases hread : isScopedRead s.cfg cw dw with
    | true => exact sideEffect_of_scopedRead hread h
    | false =>
      rw [takeTurn, hostIssue_of_faulted hf hread, Host.Outcome.next.injEq] at h
      exact h ▸ .answer s.rspData
  | ctrl =>
    rw [takeTurn_ctrl_of_disabled (ctrlEnabled_of_faulted hf), Host.Outcome.next.injEq] at h
    exact h ▸ .answer s.rspData
  | env k => exact sideEffect_of_env h
  | blockReset b => exact absurd rfl (ht b)

/-- The conditions of the ENV steps look at registers and configuration alone (41_clock_tree_init.md
R140). -/
theorem envEnabled_control (k : EnvKind) (s : State) (f : Bool) (o : Op) :
    envEnabled k { s with faulted := f, op := o } = envEnabled k s := by
  cases k <;> rfl

/-- Settles O13: CTRL and the refused commands have no effect, a legal read and ENV have theirs, and every
turn but block reset leaves the command in progress alone. -/
theorem effectOfTheFaultState : Obligations.EffectOfTheFaultState := by
  intro s hf
  refine ⟨takeTurn_ctrl_of_disabled (ctrlEnabled_of_faulted hf), fun cw dw => hostIssue_of_faulted hf,
    fun cw dw idx r hd hr => ?_, fun k => (envEnabled_control k s false s.op).symm,
    fun k => envTurn_of_enabled, ?_, hf, fun t s' ht h => ?_⟩
  · rw [takeTurn, hostIssue_of_decode hd, exec_rd_of_register hr]
  · simp [State.statusPort, State.busy, hf]
  · have hside := sideEffect_of_faulted hf ht h
    exact ⟨hside.faulted_eq.trans hf, hside.op_eq, hside.fsm_eq, hside.cfgLatch_eq, hside.rstReg_eq,
      hside.rstMask_eq, hside.prescVal_eq⟩

/-! ### HOST's duty -/

/-- A command is RD when it decodes to one (60_exceptions.md R195). -/
theorem isRead_iff (cw dw : Word) : isRead cw dw = true ↔ ∃ idx, decode cw dw = .ok (.rd idx) := by
  unfold isRead
  split
  · next idx hd => simp [hd]
  · next hd => simpa using hd

theorem busy_iff (s : State) : s.busy = true ↔ s.op ≠ .idle ∧ s.faulted = false := by
  simp [State.busy]

/-- Settles O47: `busy_iff`; the other values are the stored ones. -/
theorem statusPortValues : Obligations.StatusPortValues := by
  exact fun s => ⟨busy_iff s, rfl, rfl, rfl, rfl, rfl⟩

/-- A command breaks HOST's duty when it is no RD and the block is busy (60_exceptions.md R206). -/
theorem keepsDuty_host_eq_false_iff (cw dw : Word) (s : State) :
    keepsDuty (.host cw dw) s = false ↔ s.busy = true ∧ isRead cw dw = false := by
  simp [keepsDuty]

/-- The pre-checks of a busy block: a legal command but RD (R195). -/
theorem hostIssue_of_busy {cw dw : Word} {i : Instr} {s : State} (hbusy : s.busy = true)
    (hd : decode cw dw = .ok i) (hi : ∀ idx, i ≠ .rd idx) :
    hostIssue cw dw s =
      .next { s with faulted := true, faultCode := 0x02#8, faultCw := cw, faultDw := cw } := by
  obtain ⟨hop, hf⟩ := (busy_iff s).1 hbusy
  exact (((issueChecksInOrder cw dw s).2 hf).2 i hd).1 hi hop

theorem busWrite_error_cause {a : Agent} {r : Reg} {v : Word} {k : EventKind} {m : Word} {s : State}
    {f : Raised} (h : busWrite a r v k m s = .error f) : f.cause ≠ .busyViolation := by
  obtain ⟨-, rfl⟩ := busWrite_error h
  nofun

theorem checkReg_error_cause {c : Config} {idx : Byte} {f : Raised} (h : checkReg c idx = .error f) :
    f.cause ≠ .busyViolation := by
  unfold checkReg at h
  split at h
  · cases h
  · split at h <;> cases h <;> nofun

theorem lookup_error_cause {c : Config} {id : Byte} {f : Raised} (h : lookup c id = .error f) :
    f.cause ≠ .busyViolation := by
  unfold lookup at h
  split at h <;> cases h
  nofun

theorem checkSel_error_cause {sel : Byte} {f : Raised} (h : checkSel sel = .error f) :
    f.cause ≠ .busyViolation := by
  unfold checkSel at h
  split at h <;> cases h
  nofun

/-- No acceptance step raises BUSY_VIOLATION: that is the pre-check's own fault (R195). -/
theorem acceptanceStep_error_cause {i : Instr} {s : State} {f : Raised}
    (h : acceptanceStep i s = .error f) : f.cause ≠ .busyViolation := by
  cases i with
  | rd idx =>
    simp only [acceptanceStep, readBody] at h
    split at h
    · next hc => cases h; exact checkReg_error_cause hc
    · cases h
  | wr idx v =>
    simp only [acceptanceStep, writeBody] at h
    split at h
    · next hc => cases h; exact checkReg_error_cause hc
    · exact busWrite_error_cause h
  | set idx m =>
    simp only [acceptanceStep, setBody] at h
    split at h
    · next hc => cases h; exact checkReg_error_cause hc
    · exact busWrite_error_cause h
  | clr idx m =>
    simp only [acceptanceStep, clearBody] at h
    split at h
    · next hc => cases h; exact checkReg_error_cause hc
    · exact busWrite_error_cause h
  | clkInit src pllSrc mul =>
    simp only [acceptanceStep, clkInitBody] at h
    split at h
    · cases h; nofun
    split at h
    · cases h; nofun
    split at h
    · next hw => cases h; exact busWrite_error_cause hw
    · cases h
  | periphEnable id =>
    simp only [acceptanceStep, periphEnableBody] at h
    split at h
    · next hl => cases h; exact lookup_error_cause hl
    · exact busWrite_error_cause h
  | periphReset id =>
    simp only [acceptanceStep, periphResetBody] at h
    split at h
    · next hl => cases h; exact lookup_error_cause hl
    split at h
    · cases h; nofun
    split at h
    · next hw => cases h; exact busWrite_error_cause hw
    · cases h
  | prescalerSet sel d =>
    simp only [acceptanceStep, prescalerBody] at h
    split at h
    · next hs => cases h; exact checkSel_error_cause hs
    split at h
    · cases h; nofun
    · cases h

/-- A fault of a CTRL step is a refused write (R192). -/
theorem ctrlBody_error_cause {s : State} {f : Raised} (h : ctrlBody s = .error f) :
    f.cause ≠ .busyViolation := by
  unfold ctrlBody at h
  split at h
  · cases h
  · unfold ctrlInit at h
    split at h
    case h_2 | h_4 | h_6 =>
      simp only [initEnableOsc, initEnablePll, initSwitch] at h
      split at h
      · next hw => cases h; exact busWrite_error_cause hw
      · cases h
    case h_3 | h_5 | h_7 =>
      simp only [initPollOsc, initPollPll, initPollSwitch] at h
      split at h <;> cases h
    case h_1 | h_8 => cases h
  · simp only [ctrlResetClear] at h
    split at h
    · next hw => cases h; exact busWrite_error_cause hw
    · cases h
  · simp only [ctrlPrescalerWrite] at h
    split at h
    · next hw => cases h; exact busWrite_error_cause hw
    · cases h

theorem code_ne_busyViolation {f : Fault} (h : f ≠ .busyViolation) : f.code ≠ 0x02#8 := by
  cases f with
  | busyViolation => exact absurd rfl h
  | illegalCommand | badRegister | unmodelledRegister | unmodelledWrite | assertClksrc | initRepeated
  | assertPeriphId | assertNoResetReg | assertPrescalerSel | prescalerDividerRange => decide

/-- A command that keeps HOST's duty raises no BUSY_VIOLATION (R206). -/
theorem hostIssue_of_keepsDuty {cw dw : Word} {s s' : State} (hf : s.faulted = false)
    (hduty : keepsDuty (.host cw dw) s = true) (h : hostIssue cw dw s = .next s') (hf' : s'.faulted = true) :
    s'.faultCode ≠ 0x02#8 := by
  by_cases hlegal : ∃ i, decode cw dw = .ok i
  · obtain ⟨i, hd⟩ := hlegal
    have haccepted : s.op = .idle ∨ ∃ idx, i = .rd idx := by
      by_contra hno
      obtain ⟨hop, hi⟩ := not_or.1 hno
      have hread : isRead cw dw = false :=
        Bool.eq_false_of_not_eq_true fun hr => by
          obtain ⟨idx, hidx⟩ := (isRead_iff cw dw).1 hr
          exact hi ⟨idx, Except.ok.inj (hd.symm.trans hidx)⟩
      rw [(keepsDuty_host_eq_false_iff cw dw s).2 ⟨(busy_iff s).2 ⟨hop, hf⟩, hread⟩] at hduty
      cases hduty
    rw [hostIssue_of_decode hd, exec_of_accepted hf haccepted, Host.Outcome.next.injEq] at h
    subst h
    cases hb : acceptanceStep i s with
    | error f => exact code_ne_busyViolation (acceptanceStep_error_cause hb)
    | ok u => simp [hb, acceptanceStep_ok_faulted hb, hf] at hf'
  · rw [hostIssue_of_illegal (not_exists.1 hlegal), rejectIllegal_of_not_faulted hf,
      Host.Outcome.next.injEq] at h
    subst h
    exact code_ne_busyViolation (f := .illegalCommand) nofun

/-- Settles O59: the pre-checks for a breach; a turn that keeps the duty and faults is an accepted or illegal
command or a CTRL step. -/
theorem onlyABreachOfDutyIsABusyViolation : Obligations.OnlyABreachOfDutyIsABusyViolation := by
  refine ⟨fun cw dw s hbreach => ?_, fun t s s' hf hduty h hf' => ?_⟩
  · obtain ⟨hbusy, hread⟩ := (keepsDuty_host_eq_false_iff cw dw s).1 hbreach
    refine ⟨fun ⟨i, hd⟩ => hostIssue_of_busy hbusy hd fun idx hi => ?_, fun hillegal => ?_⟩
    · rw [(isRead_iff cw dw).2 ⟨idx, hi ▸ hd⟩] at hread
      cases hread
    · exact ((issueChecksInOrder cw dw s).2 ((busy_iff s).1 hbusy).2).1 hillegal
  · cases t with
    | host cw dw => exact hostIssue_of_keepsDuty hf hduty h hf'
    | ctrl =>
      cases takeTurn_effect h with
      | ctrlFault f _ hb => exact code_ne_busyViolation (ctrlBody_error_cause hb)
      | pass | enableOsc | pollOsc | enablePll | pollPll | switch | pollSwitch | resetClear | prescWrite =>
        simp [hf] at hf'
    | env k => simp [(sideEffect_of_env h).faulted_eq, hf] at hf'
    | blockReset b => cases takeTurn_effect h <;> simp [hf] at hf'

/-! ### What a turn leaves in registers, trace and `rsp_data` -/

/-- Settles O48: `read` is the one effect of a turn but block reset that stores an answer. -/
theorem onlyReadsWriteRspData : Obligations.OnlyReadsWriteRspData := by
  intro t s s' ht h hnoread
  cases takeTurn_effect h with
  | read idx r hd => exact absurd hd (hnoread _ _ idx rfl)
  | reset b => exact absurd rfl (ht b)
  | pass | hostFault | hostWrite | clkInit | periphEnable | periphReset | prescaler | ctrlFault | enableOsc
  | pollOsc | enablePll | pollPll | switch | pollSwitch | resetClear | prescWrite | env => simp

/-- The turn is WR, SET or CLR, whose writes are HOST's own (40_register_access.md R107 to R109). -/
def HostWrites (t : Turn) : Prop :=
  ∃ cw dw idx v, t = .host cw dw ∧
    (decode cw dw = .ok (.wr idx v) ∨ decode cw dw = .ok (.set idx v) ∨ decode cw dw = .ok (.clr idx v))

/-- What a turn but block reset does to registers and trace: nothing, one bus write that the filter accepts,
or one ENV step. -/
inductive RegEffect (s : State) : Turn → State → Prop where
  | same (t : Turn) {s' : State} (hcfg : s'.cfg = s.cfg) (hreg : s'.reg = s.reg) (htrace : s'.trace = s.trace) :
      RegEffect s t s'
  | bus (t : Turn) {s' : State} (a : Agent) (r : Reg) (v : Word) (k : EventKind) (m : Word)
      (ht : ∀ kind, t ≠ .env kind) (ha : a ≠ .env) (hk : k ≠ .status) (hhost : a = .host ↔ HostWrites t)
      (hw : WriteAllowed s r v) (hcfg : s'.cfg = s.cfg) (hreg : s'.reg = (stored a r v k m s).reg)
      (htrace : s'.trace = (stored a r v k m s).trace) : RegEffect s t s'
  | env (kind : EnvKind) (he : envEnabled kind s = true) : RegEffect s (.env kind) (envEffect kind s)

/-- A write of CTRL, in its own turn or in the acceptance of a command but WR, SET and CLR. -/
theorem RegEffect.bus_ctrl {s s' : State} {t : Turn} (r : Reg) (v : Word) (k : EventKind) (m : Word)
    (ht : ∀ kind, t ≠ .env kind) (hhost : ¬ HostWrites t) (hw : writeRefused s r v = false) (hcfg : s'.cfg = s.cfg)
    (hreg : s'.reg = (stored .ctrl r v k m s).reg) (htrace : s'.trace = (stored .ctrl r v k m s).trace)
    (hk : k ≠ .status) : RegEffect s t s' :=
  .bus t .ctrl r v k m ht nofun hk (iff_of_false nofun hhost) ((writeRefused_eq_false_iff s r v).1 hw) hcfg hreg
    htrace

theorem not_hostWrites_ctrl : ¬ HostWrites .ctrl := nofun

theorem hostWrites_iff {cw dw : Word} {i : Instr} (hd : decode cw dw = .ok i) :
    HostWrites (.host cw dw) ↔ ∃ idx v, i = .wr idx v ∨ i = .set idx v ∨ i = .clr idx v := by
  constructor
  · rintro ⟨_, _, idx, v, ⟨⟩, h⟩
    simp only [hd, Except.ok.injEq] at h
    exact ⟨idx, v, h⟩
  · rintro ⟨idx, v, h⟩
    exact ⟨cw, dw, idx, v, rfl, by simpa only [hd, Except.ok.injEq] using h⟩

/-- Every effect but block reset's on registers and trace. -/
theorem TurnEffect.regEffect {s s' : State} {t : Turn} (h : TurnEffect s t s')
    (ht : ∀ b, t ≠ .blockReset b) : RegEffect s t s' := by
  cases h with
  | reset b => exact absurd rfl (ht b)
  | env k he => exact .env k he
  | pass | hostFault | read | prescaler | ctrlFault | pollOsc | pollPll | pollSwitch =>
    exact .same _ rfl rfl rfl
  | hostWrite idx r v k m hd _ _ _ hw =>
    have hk : k ≠ .status := by obtain ⟨-, rfl, -⟩ | ⟨-, rfl, -⟩ | ⟨-, rfl, -⟩ := hd <;> nofun
    refine .bus _ .host r v k m nofun nofun hk (iff_of_true rfl ?_) ((writeRefused_eq_false_iff s r v).1 hw)
      rfl rfl rfl
    exact ⟨_, _, idx, m, rfl, hd.imp And.left (Or.imp And.left And.left)⟩
  | clkInit _ _ _ hd _ _ _ _ hw | periphEnable _ _ hd _ _ _ hw | periphReset _ _ _ hd _ _ _ _ hw =>
    exact .bus_ctrl _ _ _ _ nofun (by simp [hostWrites_iff hd]) hw rfl rfl rfl nofun
  | enableOsc _ _ _ hw | enablePll _ _ _ hw | switch _ _ _ hw | resetClear _ _ hw | prescWrite _ _ hw =>
    exact .bus_ctrl _ _ _ _ nofun not_hostWrites_ctrl hw rfl rfl rfl nofun

/-- The one event of an ENV step, and the register that it says is stored (41_clock_tree_init.md R140). -/
theorem exists_envStore (k : EnvKind) (s : State) : ∃ r v, envEffect k s = envStore r v s := by
  cases k <;> exact ⟨_, _, rfl⟩

/-- Settles O49: the three cases of `RegEffect`. -/
theorem everyRegisterChangeIsInTheTrace : Obligations.EveryRegisterChangeIsInTheTrace := by
  intro t s s' ht h
  cases (takeTurn_effect h).regEffect ht with
  | same _ _ hreg htrace => exact .inl ⟨hreg, htrace⟩
  | bus _ a r v k m hturn ha hk hhost _ _ hreg htrace =>
    exact .inr ⟨⟨a, r, k, m, filtered s.cfg r (s.reg.get r) v⟩, hreg, htrace,
      iff_of_false ha fun ⟨kind, hkind⟩ => hturn kind hkind, iff_of_false hk ha, fun h => absurd h hk, hhost⟩
  | env kind =>
    obtain ⟨r, v, he⟩ := exists_envStore kind s
    rw [he]
    exact .inr ⟨⟨.env, r, .status, 0#32, v⟩, rfl, rfl, iff_of_true rfl ⟨kind, rfl⟩, iff_of_true rfl rfl,
      fun _ => rfl, iff_of_false nofun nofun⟩

/-- The value that a longer trace gives: the new event's, on its register. -/
theorem lastStored_append (r : Reg) (v0 : Word) (es : List Event) (e : Event) :
    lastStored r v0 (es ++ [e]) = if e.reg = r then e.value else lastStored r v0 es := by
  induction es generalizing v0 with
  | nil => rfl
  | cons e' es ih => exact ih _

/-- A turn keeps the agreement of registers and trace: block reset starts both anew, and every other change
of a register is in the trace. -/
theorem takeTurn_traceMirrors {s s' : State} {t : Turn} (hs : TraceMirrors s)
    (h : takeTurn t s = .next s') : TraceMirrors s' := by
  by_cases hreset : ∃ b, t = .blockReset b
  · obtain ⟨b, rfl⟩ := hreset
    rw [takeTurn_blockReset, Host.Outcome.next.injEq] at h
    exact ⟨b, fun r => by rw [← h]; rfl⟩
  obtain ⟨b, hb⟩ := hs
  refine ⟨b, fun r => ?_⟩
  rw [(takeTurn_effect h).cfg_eq]
  obtain ⟨hreg, htrace⟩ | ⟨e, hreg, htrace, -⟩ :=
    everyRegisterChangeIsInTheTrace t s s' (not_exists.1 hreset) h
  · rw [hreg, htrace, hb]
  · rw [hreg, htrace, lastStored_append, get_set, hb]
    simp only [eq_comm]

/-- Settles O50: `takeTurn_traceMirrors` after the choice of the turn. -/
theorem stepKeepsTraceMirror : Obligations.StepKeepsTraceMirror := by
  intro s s' hs h
  obtain ⟨-, ht⟩ := turn_of_step h
  obtain ⟨a, d, hchoice⟩ := exists_afterChoice s
  refine takeTurn_traceMirrors ?_ ht
  rw [hchoice]
  exact hs

end Sys2Proof.Machine
end

section
/-! PROOFS. The statements of 20_memory.md about register indices and the window (R61 to R63), of
40_register_access.md about RD, WR, SET and CLR (R106 to R109), and the default masks of 10_state.md (R27,
R28, R33). -/

namespace Sys2Proof

/-- The command word of RD (30_encoding.md R83, R84). -/
theorem encodeCw_rd (idx : Byte) : encodeCw (.rd idx) = 0x00000001#32 ||| idx.setWidth 32 <<< 8 :=
  wordRPS_eq_or 0x1#4 idx

/-- The command word of WR (R83, R84). -/
theorem encodeCw_wr (idx : Byte) (value : Word) :
    encodeCw (.wr idx value) = 0x00000002#32 ||| idx.setWidth 32 <<< 8 :=
  wordRPS_eq_or 0x2#4 idx

/-- The command word of SET (R83, R84). -/
theorem encodeCw_set (idx : Byte) (mask : Word) :
    encodeCw (.set idx mask) = 0x00000003#32 ||| idx.setWidth 32 <<< 8 :=
  wordRPS_eq_or 0x3#4 idx

namespace Machine

/-! ### Register indices -/

theorem regOfIndex_of_eq {c : Config} (hwf : c.wf = true) {n : Nat} {r : Reg} (h : n = c.index r) :
    regOfIndex c n = some r :=
  h ▸ regOfIndex_index hwf r

/-- Fault entry for an index that no register has (20_memory.md R62, log 8). -/
theorem faultEntry_indexFault (cw : Word) (idx : Byte) (s : State) :
    faultEntry cw (indexFault s.cfg idx) s =
      { s with faulted := true, faultCode := if idx.toNat < s.cfg.nRegIdx then 0x04#8 else 0x03#8,
               faultCw := cw, faultDw := idx.setWidth 32 } := by
  rw [faultEntry, indexFault, apply_ite Fault.code]
  rfl

/-- The register of each default index (10_state.md R21). -/
theorem regOfIndex_default (hw pl : Bool) (n : Nat) :
    regOfIndex (Config.default hw pl) n =
      if n = 0 then some .cr
      else if n = 1 then some .cfgr
      else if n = 3 then some .apb2rstr
      else if n = 4 then some .apb1rstr
      else if n = 5 then some .ahbenr
      else if n = 6 then some .apb2enr
      else if n = 7 then some .apb1enr
      else none := by
  simp only [regOfIndex, Reg.all, List.find?_cons, List.find?_nil, Config.index, Config.default,
    RegIndices.default, beq_eq_decide, eq_comm (b := n)]
  repeat' split
  all_goals simp_all

/-- Settles O16: the registers of the default indices, and the bound of the window for the others. -/
theorem checkRegOfEachIndex : Obligations.CheckRegOfEachIndex := by
  intro hw pl idx
  simp only [checkReg, regOfIndex_default, ← BitVec.toNat_inj, BitVec.toNat_ofNat, Nat.reducePow, Nat.reduceMod,
    show (Config.default hw pl).nRegIdx = 10 from rfl]
  split_ifs <;> grind

/-- Settles O17: the masks are computed from the default layout and registry. -/
theorem defaultMasksAreTheSpecs : Obligations.DefaultMasksAreTheSpecs := by
  unfold Obligations.DefaultMasksAreTheSpecs
  decide

/-! ### RD -/

theorem exec_rd_of_no_register {s : State} {idx : Byte} (hf : s.faulted = false)
    (h : regOfIndex s.cfg idx.toNat = none) :
    exec (.rd idx) s = .next (faultEntry (encodeCw (.rd idx)) (indexFault s.cfg idx) s) := by
  rw [exec_of_accepted hf (.inr ⟨idx, rfl⟩), acceptanceStep, readBody_of_no_register h, settle_error]

/-- Settles O18: a register's index reads it; another index faults, or has no effect while faulted. -/
theorem readAnswersTheStoredWord : Obligations.ReadAnswersTheStoredWord := by
  intro s idx hwf
  refine ⟨fun r hr => exec_rd_of_register (regOfIndex_of_eq hwf hr), fun hnone => ?_⟩
  have hno := regOfIndex_none hnone
  refine ⟨fun hf => exec_of_faulted hf fun _ hi => by cases hi; exact hno, fun hf hslot => ?_,
    fun hf hslot => ?_⟩
  · rw [exec_rd_of_no_register hf hno, faultEntry_indexFault, if_pos hslot, encodeCw_rd]
  · rw [exec_rd_of_no_register hf hno, faultEntry_indexFault, if_neg (Nat.not_lt.2 hslot), encodeCw_rd]

/-! ### WR, SET and CLR -/

/-- What the acceptance steps of WR, SET and CLR share: the index check, then HOST's write of the value that
the command proposes for the register (40_register_access.md R107 to R109). -/
def accessBody (idx : Byte) (proposed : Reg → Word) (k : EventKind) (m : Word) (s : State) : Result :=
  match checkReg s.cfg idx with
  | .error f => .error f
  | .ok r => busWrite .host r (proposed r) k m s

theorem acceptanceStep_wr (idx : Byte) (v : Word) (s : State) :
    acceptanceStep (.wr idx v) s = accessBody idx (fun _ => v) .write v s := rfl

theorem acceptanceStep_set (idx : Byte) (m : Word) (s : State) :
    acceptanceStep (.set idx m) s = accessBody idx (fun r => s.reg.get r ||| m) .set m s := rfl

theorem acceptanceStep_clr (idx : Byte) (m : Word) (s : State) :
    acceptanceStep (.clr idx m) s = accessBody idx (fun r => s.reg.get r &&& ~~~ m) .clear m s := rfl

section Access

variable {s : State} {i : Instr} {idx : Byte} {proposed : Reg → Word} {k : EventKind} {m : Word}
  (hf : s.faulted = false) (hop : s.op = .idle) (hbody : acceptanceStep i s = accessBody idx proposed k m s)

include hf hop hbody

/-- An allowed value is stored (R107 to R109). -/
theorem exec_access_of_allowed {r : Reg} (hr : regOfIndex s.cfg idx.toNat = some r)
    (hw : WriteAllowed s r (proposed r)) : exec i s = .next (stored .host r (proposed r) k m s) := by
  simp [exec_of_accepted hf (.inl hop), hbody, accessBody, checkReg_ok.2 hr, busWrite_of_allowed hw]

/-- A value that is not allowed faults (R101). -/
theorem exec_access_of_not_allowed {r : Reg} (hr : regOfIndex s.cfg idx.toNat = some r)
    (hw : ¬ WriteAllowed s r (proposed r)) :
    exec i s = .next (faultEntry (encodeCw i) ⟨.unmodelledWrite, proposed r⟩ s) := by
  simp [exec_of_accepted hf (.inl hop), hbody, accessBody, checkReg_ok.2 hr, busWrite_of_not_allowed hw]

/-- An index that no register has faults (20_memory.md R62). -/
theorem exec_access_of_no_register (hr : regOfIndex s.cfg idx.toNat = none) :
    exec i s = .next (faultEntry (encodeCw i) (indexFault s.cfg idx) s) := by
  simp [exec_of_accepted hf (.inl hop), hbody, accessBody, checkReg_none hr]

end Access

/-- Settles O19: the three answers of the access, with the command word of WR. -/
theorem writeStoresTheWritableBits : Obligations.WriteStoresTheWritableBits := by
  intro s idx v hwf hf hop
  have hbody := acceptanceStep_wr idx v s
  refine ⟨fun r hr => ⟨fun hw => ?_, fun hw => ?_⟩, fun hnone => ?_⟩
  · exact exec_access_of_allowed hf hop hbody (regOfIndex_of_eq hwf hr) hw
  · rw [exec_access_of_not_allowed hf hop hbody (regOfIndex_of_eq hwf hr) hw, encodeCw_wr]
    rfl
  · rw [exec_access_of_no_register hf hop hbody (regOfIndex_none hnone), faultEntry_indexFault, encodeCw_wr]

/-- Setting bits stores the OR with those of them that are writable. -/
theorem filtered_or_masked (c : Config) (r : Reg) (old m : Word) :
    filtered c r old (old ||| m) = old ||| (m &&& c.wm r) := by
  refine BitVec.eq_of_getLsbD_eq fun i _ => ?_
  rw [getLsbD_filtered, BitVec.getLsbD_or, BitVec.getLsbD_or, BitVec.getLsbD_and]
  split <;> simp_all

/-- Clearing bits clears those of them that are writable. -/
theorem filtered_and_not_masked (c : Config) (r : Reg) (old m : Word) :
    filtered c r old (old &&& ~~~ m) = old &&& ~~~ (m &&& c.wm r) := by
  refine BitVec.eq_of_getLsbD_eq fun i hi => ?_
  rw [getLsbD_filtered, BitVec.getLsbD_and, BitVec.getLsbD_and, BitVec.getLsbD_not, BitVec.getLsbD_not,
    BitVec.getLsbD_and]
  split <;> simp_all

/-- A bus set stores the OR with the writable bits of the mask (40_register_access.md R105). -/
theorem stored_or_masked (a : Agent) (r : Reg) (k : EventKind) (m : Word) (s : State) :
    stored a r (s.reg.get r ||| m) k m s =
      { s with
        reg := s.reg.set r (s.reg.get r ||| (m &&& s.cfg.wm r))
        trace := s.trace ++ [⟨a, r, k, m, s.reg.get r ||| (m &&& s.cfg.wm r)⟩] } := by
  rw [stored, filtered_or_masked]
  rfl

/-- A bus clear clears the writable bits of the mask (R105). -/
theorem stored_and_not_masked (a : Agent) (r : Reg) (k : EventKind) (m : Word) (s : State) :
    stored a r (s.reg.get r &&& ~~~ m) k m s =
      { s with
        reg := s.reg.set r (s.reg.get r &&& ~~~ (m &&& s.cfg.wm r))
        trace := s.trace ++ [⟨a, r, k, m, s.reg.get r &&& ~~~ (m &&& s.cfg.wm r)⟩] } := by
  rw [stored, filtered_and_not_masked]
  rfl

/-- Settles O20: the three answers of the access, and the stored value of a set. -/
theorem setRaisesTheWritableBitsOfTheMask : Obligations.SetRaisesTheWritableBitsOfTheMask := by
  intro s idx m hwf hf hop
  have hbody := acceptanceStep_set idx m s
  refine ⟨fun r hr => ⟨fun hw => ?_, fun hw => ?_⟩, fun hnone => ?_⟩
  · rw [exec_access_of_allowed hf hop hbody (regOfIndex_of_eq hwf hr) hw, stored_or_masked]
  · rw [exec_access_of_not_allowed hf hop hbody (regOfIndex_of_eq hwf hr) hw, encodeCw_set]
    rfl
  · rw [exec_access_of_no_register hf hop hbody (regOfIndex_none hnone), faultEntry_indexFault, encodeCw_set]

/-- Settles O21: the three answers of the access, and the stored value of a clear. -/
theorem clearLowersTheWritableBitsOfTheMask : Obligations.ClearLowersTheWritableBitsOfTheMask := by
  intro s idx m hwf hf hop
  have hbody := acceptanceStep_clr idx m s
  refine ⟨fun r hr => ⟨fun hw => ?_, fun hw => ?_⟩, fun hnone => ?_⟩
  · rw [exec_access_of_allowed hf hop hbody (regOfIndex_of_eq hwf hr) hw, stored_and_not_masked]
  · rw [exec_access_of_not_allowed hf hop hbody (regOfIndex_of_eq hwf hr) hw, encodeCw_clr]
    rfl
  · rw [exec_access_of_no_register hf hop hbody (regOfIndex_none hnone), faultEntry_indexFault, encodeCw_clr]

/-! ### The register window -/

/-- The register that takes the four bytes from its address on (20_memory.md R61). -/
theorem windowRegAt_address {c : Config} (hwf : c.wf = true) (w : WindowReg) {k : Nat} (hk : k < 4) :
    windowRegAt c (c.rccBase.toNat + c.off w + k) = some w := by
  rw [windowRegAt_some hwf, Config.address]
  omega

/-- Settles O57: the register at the address is the one whose bytes are asked for. -/
theorem windowHoldsTheRegisters : Obligations.WindowHoldsTheRegisters := by
  refine ⟨fun s r k hwf hk => ?_, fun s u k hwf hk => ?_, fun hw pl => ⟨rfl, fun r => ?_, rfl, rfl, rfl⟩⟩
  · rw [windowByte, windowRegAt_address hwf _ hk]
    simp [byteOf, Config.address]
  · rw [windowByte, windowRegAt_address hwf _ hk]
  · cases r <;> rfl

end Machine

end Sys2Proof
end

section
/-! PROOFS. The bits that a bus write and an ENV step keep, and the statements that rest on them: the laws of
the primitives (40_register_access.md R110), the ENV steps (41_clock_tree_init.md R130 to R133, R140) and the
invariants of the registers (10_state.md R29, R42, R43). -/

namespace Sys2Proof

/-! ### Bits -/

theorem and_not_eq_iff (v w m : Word) :
    v &&& ~~~ m = w &&& ~~~ m ↔ ∀ i, m.getLsbD i = false → v.getLsbD i = w.getLsbD i := by
  constructor
  · intro h i hm
    by_cases hi : i < 32
    · have hbit := congrArg (·.getLsbD i) h
      simpa only [BitVec.getLsbD_and, BitVec.getLsbD_not, hi, hm, decide_true, Bool.not_false,
        Bool.and_true] using hbit
    · rw [BitVec.getLsbD_of_ge v i (Nat.le_of_not_lt hi), BitVec.getLsbD_of_ge w i (Nat.le_of_not_lt hi)]
  · intro h
    refine BitVec.eq_of_getLsbD_eq fun i _ => ?_
    rw [BitVec.getLsbD_and, BitVec.getLsbD_and]
    cases hm : m.getLsbD i
    · rw [h i hm]
    · simp [hm]

theorem mask_and_not_self (m : Word) : m &&& ~~~ m = 0#32 := BitVec.and_not_self m

theorem not_mask_and_self (m : Word) : ~~~ m &&& m = 0#32 := by rw [BitVec.and_comm, mask_and_not_self]

/-- Setting and clearing bits leave the others. -/
theorem or_and_not_self (v m : Word) : (v ||| m) &&& ~~~ m = v &&& ~~~ m :=
  (and_not_eq_iff _ _ _).2 fun i hm => by simp [hm]

theorem and_not_and_not_self (v m : Word) : (v &&& ~~~ m) &&& ~~~ m = v &&& ~~~ m := by
  rw [BitVec.and_assoc, BitVec.and_self]

/-- Setting bits leaves a class of bits that they lie outside of. -/
theorem or_and_of_disjoint {m x : Word} (h : m &&& x = 0#32) (v : Word) : (v ||| m) &&& x = v &&& x := by
  rw [BitVec.and_or_distrib_right, h, BitVec.or_zero]

theorem putField_and_of_disjoint {lo width : Nat} {x : Word} (h : fieldMask lo width &&& x = 0#32)
    (y : BitVec width) (v : Word) : putField lo y v &&& x = v &&& x := by
  refine BitVec.eq_of_getLsbD_eq fun i hi => ?_
  have hbit := disjoint_bits h i
  rw [getLsbD_fieldMask] at hbit
  rw [BitVec.getLsbD_and, BitVec.getLsbD_and, getLsbD_putField]
  split
  · next hin =>
    obtain ⟨-, hlo, hhi⟩ := hin
    simp only [hi, hlo, hhi, decide_true, Bool.true_and] at hbit
    simp [hbit]
  · rfl

/-- A placed field lies in its mask. -/
theorem placeField_and_fieldMask (lo : Nat) {width : Nat} (x : BitVec width) :
    placeField lo x &&& fieldMask lo width = placeField lo x := by
  refine subset_of_bits fun i h => ?_
  simp only [getLsbD_placeField, Bool.and_eq_true, decide_eq_true_eq] at h
  obtain ⟨⟨hi, hlo⟩, hx⟩ := h
  have hwidth := BitVec.lt_of_getLsbD hx
  simp [getLsbD_fieldMask, hi, hlo, show i < lo + width by omega]

theorem flag_of_and_eq_zero {n : Nat} {v : Word} (h : v &&& bit n = 0#32) : flag n v = false := by
  have hzero : flag n v = flag n (0#32) := flag_congr (by rw [h, BitVec.zero_and])
  simpa [flag] using hzero

theorem getField_zero (lo width : Nat) : getField lo width 0#32 = 0#width :=
  BitVec.eq_of_getLsbD_eq fun i _ => by simp [getLsbD_getField]

namespace Config

variable {c : Config}

theorem ro_wm (h : c.wf = true) (r : Reg) : c.ro r &&& c.wm r = 0#32 := by
  rw [BitVec.and_comm, wm_ro h]

theorem un_wm (c : Config) (r : Reg) : c.un r &&& c.wm r = 0#32 := by rw [BitVec.and_comm, wm_un]

theorem un_ro (c : Config) (r : Reg) : c.un r &&& c.ro r = 0#32 := by rw [BitVec.and_comm, ro_un]

theorem hsical_disjoint (h : c.wf = true) :
    fieldMask c.layout.crHsical 8 &&& c.hseonMask = 0#32 ∧
      fieldMask c.layout.crHsical 8 &&& c.pllonMask = 0#32 ∧
      fieldMask c.layout.crHsical 8 &&& c.hserdyMask = 0#32 ∧
      fieldMask c.layout.crHsical 8 &&& c.pllrdyMask = 0#32 := by
  have hd := crDisjoint h
  simp only [crWritable, crReadOnly, List.cons_append, List.nil_append, List.pairwise_cons, List.mem_cons,
    List.not_mem_nil, forall_eq_or_imp] at hd
  obtain ⟨⟨-, -, hseon, -⟩, ⟨-, pllon, -⟩, -, ⟨hserdy, pllrdy, -⟩, -⟩ := hd
  rw [BitVec.and_comm] at hseon pllon
  exact ⟨hseon, pllon, hserdy, pllrdy⟩

end Config

namespace Machine

/-! ### What a bus write keeps -/

section Stored

variable {a : Agent} {r q : Reg} {v x : Word} {k : EventKind} {m : Word} {s : State}

/-- A bus write keeps the bits outside `WM` (40_register_access.md R101). -/
theorem stored_get_and_of_disjoint (hx : x &&& s.cfg.wm q = 0#32) :
    (stored a r v k m s).reg.get q &&& x = s.reg.get q &&& x := by
  rw [stored_reg, get_set]
  split
  · next hq => subst hq; exact filtered_and_of_disjoint _ _ _ _ hx
  · rfl

/-- A bus write stores the bits of `WM` (R101). -/
theorem stored_get_and_of_subset (hx : x &&& s.cfg.wm r = x) :
    (stored a r v k m s).reg.get r &&& x = v &&& x := by
  rw [stored_reg, get_set_self, filtered_and_of_subset _ _ _ _ hx]

theorem stored_get_other (h : q ≠ r) : (stored a r v k m s).reg.get q = s.reg.get q := by
  rw [stored_reg, get_set_other _ _ h]

/-- The bits of class RO are ENV's alone (10_state.md R25). -/
theorem stored_get_and_of_ro (hwf : s.cfg.wf = true) (hx : x &&& s.cfg.ro q = x) :
    (stored a r v k m s).reg.get q &&& x = s.reg.get q &&& x :=
  stored_get_and_of_disjoint (Config.disjoint_of_subset hx (Config.ro_wm hwf q))

theorem stored_hsirdy (hwf : s.cfg.wf = true) : (stored a r v k m s).hsirdy = s.hsirdy :=
  flag_congr (stored_get_and_of_ro (q := .cr) hwf (Config.hsirdy_ro _))

theorem stored_hserdy (hwf : s.cfg.wf = true) : (stored a r v k m s).hserdy = s.hserdy :=
  flag_congr (stored_get_and_of_ro (q := .cr) hwf (Config.hserdy_ro _))

theorem stored_pllrdy (hwf : s.cfg.wf = true) : (stored a r v k m s).pllrdy = s.pllrdy :=
  flag_congr (stored_get_and_of_ro (q := .cr) hwf (Config.pllrdy_ro _))

theorem stored_sws (hwf : s.cfg.wf = true) : (stored a r v k m s).sws = s.sws := by
  obtain ⟨-, -, -, -, -, -, -, hsws, -⟩ := Config.range hwf
  exact getField_congr hsws (stored_get_and_of_ro (q := .cfgr) hwf (Config.sws_ro _))

/-- An allowed write keeps the clock enables that are set (40_register_access.md R103). -/
theorem stored_hseon (hw : WriteAllowed s r v) (hon : s.hseon = true) :
    (stored a r v k m s).hseon = true := by
  by_cases hr : r = .cr
  · subst hr
    obtain ⟨-, hcr, -⟩ := hw
    exact (flag_congr (stored_get_and_of_subset (Config.hseon_wm _))).trans ((hcr rfl).1 hon)
  · exact (congrArg (flag _) (stored_get_other (q := .cr) (Ne.symm hr))).trans hon

theorem stored_pllon (hw : WriteAllowed s r v) (hon : s.pllon = true) :
    (stored a r v k m s).pllon = true := by
  by_cases hr : r = .cr
  · subst hr
    obtain ⟨-, hcr, -⟩ := hw
    exact (flag_congr (stored_get_and_of_subset (Config.pllon_wm _))).trans ((hcr rfl).2 hon)
  · exact (congrArg (flag _) (stored_get_other (q := .cr) (Ne.symm hr))).trans hon

/-- An allowed write never stores the code 11 in SW (R104). -/
theorem stored_sw_ne (hwf : s.cfg.wf = true) (hw : WriteAllowed s r v) (hsw : s.sw ≠ 3#2) :
    (stored a r v k m s).sw ≠ 3#2 := by
  by_cases hr : r = .cfgr
  · subst hr
    obtain ⟨-, -, hcfgr⟩ := hw
    obtain ⟨-, -, -, -, -, -, hrange, -⟩ := Config.range hwf
    have hfield : (stored a .cfgr v k m s).sw = getField s.cfg.layout.cfgrSw 2 v :=
      getField_congr hrange (stored_get_and_of_subset (Config.sw_wm _))
    exact hfield ▸ (hcfgr rfl).1
  · have hkept : (stored a r v k m s).sw = s.sw :=
      congrArg (getField _ 2) (stored_get_other (q := .cfgr) (Ne.symm hr))
    exact hkept ▸ hsw

end Stored

/-! ### What an ENV step keeps -/

section Env

variable {k : EnvKind} {q : Reg} {x : Word} {s : State}

/-- An ENV step keeps the bits outside `RO` (41_clock_tree_init.md R140). -/
theorem envEffect_get_and_of_disjoint (hx : x &&& s.cfg.ro q = 0#32) :
    (envEffect k s).reg.get q &&& x = s.reg.get q &&& x := by
  rw [BitVec.and_comm] at hx
  cases k with
  | hseStart =>
    cases q with
    | cr => exact or_and_of_disjoint (Config.disjoint_of_subset (Config.hserdy_ro _) hx) _
    | cfgr | apb2rstr | apb1rstr | ahbenr | apb2enr | apb1enr => rfl
  | pllLock =>
    cases q with
    | cr => exact or_and_of_disjoint (Config.disjoint_of_subset (Config.pllrdy_ro _) hx) _
    | cfgr | apb2rstr | apb1rstr | ahbenr | apb2enr | apb1enr => rfl
  | clockSwitch =>
    cases q with
    | cfgr => exact putField_and_of_disjoint (Config.disjoint_of_subset (Config.sws_ro _) hx) _ _
    | cr | apb2rstr | apb1rstr | ahbenr | apb2enr | apb1enr => rfl

/-- An ENV step keeps the bits of class WM (10_state.md R25). -/
theorem envEffect_get_and_of_wm (hwf : s.cfg.wf = true) (hx : x &&& s.cfg.wm q = x) :
    (envEffect k s).reg.get q &&& x = s.reg.get q &&& x :=
  envEffect_get_and_of_disjoint (Config.disjoint_of_subset hx (Config.wm_ro hwf q))

/-- An ENV step changes CR and CFGR alone. -/
theorem envEffect_get_other (hcr : q ≠ .cr) (hcfgr : q ≠ .cfgr) :
    (envEffect k s).reg.get q = s.reg.get q := by
  cases k with
  | hseStart | pllLock => exact get_set_other _ _ hcr
  | clockSwitch => exact get_set_other _ _ hcfgr

theorem envEffect_hseon (hwf : s.cfg.wf = true) : (envEffect k s).hseon = s.hseon := by
  rw [State.hseon, State.hseon, envEffect_cfg]
  exact flag_congr (envEffect_get_and_of_wm (q := .cr) hwf (Config.hseon_wm _))

theorem envEffect_pllon (hwf : s.cfg.wf = true) : (envEffect k s).pllon = s.pllon := by
  rw [State.pllon, State.pllon, envEffect_cfg]
  exact flag_congr (envEffect_get_and_of_wm (q := .cr) hwf (Config.pllon_wm _))

theorem envEffect_sw (hwf : s.cfg.wf = true) : (envEffect k s).sw = s.sw := by
  obtain ⟨-, -, -, -, -, -, hrange, -⟩ := Config.range hwf
  rw [State.sw, State.sw, envEffect_cfg]
  exact getField_congr hrange (envEffect_get_and_of_wm (q := .cfgr) hwf (Config.sw_wm _))

/-- The ready flags are set by their own ENV step and kept by the others (R130, R131). -/
theorem envEffect_hserdy (hwf : s.cfg.wf = true) :
    (envEffect k s).hserdy = (s.hserdy || decide (k = .hseStart)) := by
  obtain ⟨-, -, -, -, -, -, -, -, -, hne⟩ := Config.cr_positions hwf
  obtain ⟨-, -, -, hrange, -⟩ := Config.range hwf
  cases k <;> simp [State.hserdy, envEffect, envStore, RegFile.set, Config.hserdyMask, Config.pllrdyMask,
    flag_or, flag_bit, hrange, hne]

theorem envEffect_pllrdy (hwf : s.cfg.wf = true) :
    (envEffect k s).pllrdy = (s.pllrdy || decide (k = .pllLock)) := by
  obtain ⟨-, -, -, -, -, -, -, -, -, hne⟩ := Config.cr_positions hwf
  obtain ⟨-, -, -, -, -, hrange, -⟩ := Config.range hwf
  cases k <;> simp [State.pllrdy, envEffect, envStore, RegFile.set, Config.hserdyMask, Config.pllrdyMask,
    flag_or, flag_bit, hrange, hne.symm]

theorem envEffect_hsirdy (hwf : s.cfg.wf = true) : (envEffect k s).hsirdy = s.hsirdy := by
  obtain ⟨-, -, -, -, -, -, -, hhse, hpll, -⟩ := Config.cr_positions hwf
  obtain ⟨hrange, -⟩ := Config.range hwf
  cases k <;> simp [State.hsirdy, envEffect, envStore, RegFile.set, Config.hserdyMask, Config.pllrdyMask,
    flag_or, flag_bit, hrange, hhse, hpll]

/-- SWS follows SW in CLOCK_SWITCH alone (R132). -/
theorem envEffect_sws (hwf : s.cfg.wf = true) :
    (envEffect k s).sws = if k = .clockSwitch then s.sw else s.sws := by
  obtain ⟨-, -, -, -, -, -, -, hrange, -⟩ := Config.range hwf
  cases k with
  | hseStart | pllLock => rfl
  | clockSwitch => exact getField_putField _ _ _ hrange

end Env

/-! ### The ENV steps -/

theorem envEnabled_hseStart_iff (s : State) :
    envEnabled .hseStart s = true ↔ s.cfg.hseWorks = true ∧ s.hseon = true ∧ s.hserdy = false := by
  simp [envEnabled, hseStartEnabled, and_assoc]

theorem envEnabled_pllLock_iff (s : State) :
    envEnabled .pllLock s = true ↔
      s.cfg.pllLocks = true ∧ s.pllon = true ∧ s.pllrdy = false ∧ pllInputReady s = true := by
  simp [envEnabled, pllLockEnabled, and_assoc]

theorem envEnabled_clockSwitch_iff (s : State) :
    envEnabled .clockSwitch s = true ↔ s.sws ≠ s.sw ∧ sourceReady s s.sw = true := by
  simp [envEnabled, clockSwitchEnabled]

/-- Settles O35: the two turns of the step kind, enabled and not. -/
theorem hseStartStep : Obligations.HseStartStep := by
  refine ⟨fun hw pl => ⟨rfl, rfl⟩, fun s => ⟨fun hworks hon hrdy => ?_, fun hoff => ?_⟩⟩
  · rw [envTurn_of_enabled ((envEnabled_hseStart_iff s).2 ⟨hworks, hon, hrdy⟩)]
    rfl
  · refine envTurn_of_disabled (Bool.eq_false_of_not_eq_true fun he => ?_)
    obtain ⟨hworks, hon, hrdy⟩ := (envEnabled_hseStart_iff s).1 he
    simp [hworks, hon, hrdy] at hoff

theorem bitVec_one_cases : ∀ a b x : BitVec 1, a ≠ b → x = a ∨ x = b := by decide

/-- PLLSRC holds one of the two input codes (10_state.md R29). -/
theorem pllsrc_cases {s : State} (hwf : s.cfg.wf = true) :
    s.pllsrc = s.cfg.codes.pllsrcHsiDiv2 ∨ s.pllsrc = s.cfg.codes.pllsrcHse := by
  obtain ⟨-, -, -, -, -, -, hne⟩ := Config.codes_facts hwf
  exact bitVec_one_cases _ _ _ hne

theorem pllInputReady_iff {s : State} (hwf : s.cfg.wf = true) :
    pllInputReady s = true ↔ (s.pllsrc = s.cfg.codes.pllsrcHse → s.hserdy = true) ∧
      (s.pllsrc = s.cfg.codes.pllsrcHsiDiv2 → s.hsirdy = true) := by
  obtain ⟨-, -, -, -, -, -, hne⟩ := Config.codes_facts hwf
  obtain hsrc | hsrc := pllsrc_cases hwf <;> simp [pllInputReady, hsrc, hne, hne.symm]

/-- Settles O36: the two turns of the step kind; PLLSRC holds one of the two input codes. -/
theorem pllLockStep : Obligations.PllLockStep := by
  refine ⟨fun hw pl => ⟨rfl, rfl⟩, rfl, rfl, fun s hwf => ⟨fun hlocks hon hrdy hhse hhsi => ?_, fun hoff => ?_⟩⟩
  · have he := (envEnabled_pllLock_iff s).2 ⟨hlocks, hon, hrdy, (pllInputReady_iff hwf).2 ⟨hhse, hhsi⟩⟩
    rw [envTurn_of_enabled he]
    rfl
  · refine envTurn_of_disabled (Bool.eq_false_of_not_eq_true fun he => ?_)
    obtain ⟨hlocks, hon, hrdy, hinput⟩ := (envEnabled_pllLock_iff s).1 he
    obtain ⟨hhse, hhsi⟩ := (pllInputReady_iff hwf).1 hinput
    obtain h | h | h | ⟨hsrc, h⟩ | ⟨hsrc, h⟩ := hoff
    · simp [hlocks] at h
    · simp [hon] at h
    · simp [hrdy] at h
    · simp [hhse hsrc] at h
    · simp [hhsi hsrc] at h

/-- A source is ready when it is one of the three and its ready bit is set (R133). -/
theorem sourceReady_iff {s : State} (hwf : s.cfg.wf = true) (code : BitVec 2) :
    sourceReady s code = true ↔ (code = s.cfg.codes.srcHsi ∧ s.hsirdy = true) ∨
      (code = s.cfg.codes.srcHse ∧ s.hserdy = true) ∨ (code = s.cfg.codes.srcPll ∧ s.pllrdy = true) := by
  obtain ⟨hhsi, hhse, hpll, hne, -⟩ := Config.codes_facts hwf
  unfold sourceReady
  rw [← hhsi] at hhse hpll
  split
  · next h => subst h; simp [hhse.symm, hpll.symm]
  split
  · next h => subst h; simp [hhse, hne]
  split
  · next h => subst h; simp [hpll, hne.symm]
  · next h1 h2 h3 => simp [h1, h2, h3]

theorem swsMask_outside (l : Layout) (x : BitVec 2) (v : Word) :
    putField l.cfgrSws x v &&& ~~~ fieldMask l.cfgrSws 2 = v &&& ~~~ fieldMask l.cfgrSws 2 :=
  putField_and_of_disjoint (mask_and_not_self _) x v

/-- Settles O37: the two turns of the step kind; the field put is SW, and the rest is kept. -/
theorem clockSwitchStep : Obligations.ClockSwitchStep := by
  refine ⟨⟨rfl, rfl⟩, ⟨rfl, rfl, rfl⟩, fun s hwf => ⟨fun hready hne => ?_, fun hoff => ?_⟩⟩
  · obtain ⟨-, -, -, -, -, -, -, hrange, -⟩ := Config.range hwf
    have he := (envEnabled_clockSwitch_iff s).2 ⟨hne, (sourceReady_iff hwf _).2 hready⟩
    refine ⟨putField s.cfg.layout.cfgrSws s.sw s.reg.cfgr, ?_, getField_putField _ _ _ hrange,
      swsMask_outside _ _ _⟩
    rw [envTurn_of_enabled he]
    rfl
  · refine envTurn_of_disabled (Bool.eq_false_of_not_eq_true fun he => ?_)
    obtain ⟨hne, hready⟩ := (envEnabled_clockSwitch_iff s).1 he
    obtain ⟨hhsi, hhse, hpll, hcodes, -⟩ := Config.codes_facts hwf
    rw [← hhsi] at hhse hpll
    rw [sourceReady_iff hwf] at hready
    obtain h | ⟨hsw, h⟩ | ⟨hsw, h⟩ | ⟨hsw, h⟩ := hoff
    · exact hne h
    · simp [hsw, h, hhse.symm, hpll.symm] at hready
    · simp [hsw, h, hhse, hcodes] at hready
    · simp [hsw, h, hpll, hcodes.symm] at hready

end Machine

end Sys2Proof
end

section
/-! PROOFS. What every turn keeps of the registers (40_register_access.md R110, 41_clock_tree_init.md R140,
10_state.md R29, R42, R43): an effect on the registers is none, a bus write that the filter accepts, or an ENV
step, and block reset starts them anew. -/

namespace Sys2Proof

namespace Config

variable {c : Config}

/-- The enables and the ready bits of the clocks that start are clear in CR's reset value, and no calibration
byte sets them (10_state.md R27, R42). -/
theorem reset_cr_flag (h : c.wf = true) {n : Nat}
    (hmem : bit n ∈ [c.hseonMask, c.pllonMask, c.hserdyMask, c.pllrdyMask]) (b : Byte) :
    flag n (RegFile.reset c b).cr = false := by
  obtain ⟨-, -, -, -, -, -, hok, -⟩ := wf_parts h
  simp only [resetCrOk, Bool.and_eq_true, beq_iff_eq] at hok
  obtain ⟨-, hclear⟩ := hok
  obtain ⟨hhseon, hpllon, hhserdy, hpllrdy⟩ := hsical_disjoint h
  have hbit : flag n c.resetCr = false := by
    refine flag_of_and_eq_zero ?_
    rw [BitVec.and_comm]
    refine disjoint_of_subset (subset_orAll (List.mem_append_left [fieldMask c.layout.crHsical 8] hmem)) ?_
    rw [BitVec.and_comm]
    exact hclear
  have hcal : flag n (placeField c.layout.crHsical b) = false := by
    refine flag_of_and_eq_zero (disjoint_of_subset (placeField_and_fieldMask _ _) ?_)
    simp only [List.mem_cons, List.not_mem_nil, or_false] at hmem
    obtain hmask | hmask | hmask | hmask := hmem <;> rw [hmask] <;> assumption
  rw [RegFile.reset, flag_or, hbit, hcal, Bool.or_false]

/-- HSIRDY is set in CR's reset value (10_state.md R42). -/
theorem reset_hsirdy (h : c.wf = true) (b : Byte) :
    flag c.layout.crHsirdy (RegFile.reset c b).cr = true := by
  obtain ⟨-, -, -, -, -, -, hok, -⟩ := wf_parts h
  simp only [resetCrOk, Bool.and_eq_true] at hok
  rw [RegFile.reset, flag_or, hok.1, Bool.true_or]

/-- The calibration byte lies in bits of class RO, so the U bits of reset do not depend on it (10_state.md
R27). -/
theorem reset_get_and_un (c : Config) (b : Byte) (r : Reg) :
    (RegFile.reset c b).get r &&& c.un r = (RegFile.reset c 0#8).get r &&& c.un r := by
  have hcal : ∀ b : Byte, placeField c.layout.crHsical b &&& c.un .cr = 0#32 := fun b =>
    disjoint_of_subset (placeField_and_fieldMask _ b) (disjoint_of_subset (hsical_ro c) (ro_un c .cr))
  cases r with
  | cr => exact (or_and_of_disjoint (hcal b) _).trans (or_and_of_disjoint (hcal 0#8) _).symm
  | cfgr | apb2rstr | apb1rstr | ahbenr | apb2enr | apb1enr => rfl

end Config

namespace Machine

/-! ### The accessors look at registers and configuration alone -/

section Congr

variable {s u : State} (hcfg : u.cfg = s.cfg) (hreg : u.reg = s.reg)

include hcfg hreg

theorem hsirdy_congr : u.hsirdy = s.hsirdy := by rw [State.hsirdy, State.hsirdy, hcfg, hreg]
theorem hseon_congr : u.hseon = s.hseon := by rw [State.hseon, State.hseon, hcfg, hreg]
theorem hserdy_congr : u.hserdy = s.hserdy := by rw [State.hserdy, State.hserdy, hcfg, hreg]
theorem pllon_congr : u.pllon = s.pllon := by rw [State.pllon, State.pllon, hcfg, hreg]
theorem pllrdy_congr : u.pllrdy = s.pllrdy := by rw [State.pllrdy, State.pllrdy, hcfg, hreg]
theorem sw_congr : u.sw = s.sw := by rw [State.sw, State.sw, hcfg, hreg]
theorem sws_congr : u.sws = s.sws := by rw [State.sws, State.sws, hcfg, hreg]

end Congr

/-! ### Enables and ready bits stay set -/

/-- The clock enables and ready bits that are set in `s` are set in `u`. -/
structure ClocksKept (s u : State) : Prop where
  hseon : s.hseon = true → u.hseon = true
  hserdy : s.hserdy = true → u.hserdy = true
  pllon : s.pllon = true → u.pllon = true
  pllrdy : s.pllrdy = true → u.pllrdy = true

theorem ClocksKept.of_eq {s u : State} (hcfg : u.cfg = s.cfg) (hreg : u.reg = s.reg) : ClocksKept s u where
  hseon := (hseon_congr hcfg hreg).trans
  hserdy := (hserdy_congr hcfg hreg).trans
  pllon := (pllon_congr hcfg hreg).trans
  pllrdy := (pllrdy_congr hcfg hreg).trans

theorem ClocksKept.trans {s u w : State} (h : ClocksKept s u) (h' : ClocksKept u w) : ClocksKept s w where
  hseon := h'.hseon ∘ h.hseon
  hserdy := h'.hserdy ∘ h.hserdy
  pllon := h'.pllon ∘ h.pllon
  pllrdy := h'.pllrdy ∘ h.pllrdy

theorem ClocksKept.stored {s : State} (hwf : s.cfg.wf = true) {a : Agent} {r : Reg} {v : Word} {k : EventKind}
    {m : Word} (hw : WriteAllowed s r v) : ClocksKept s (stored a r v k m s) where
  hseon := stored_hseon hw
  hserdy := (stored_hserdy hwf).trans
  pllon := stored_pllon hw
  pllrdy := (stored_pllrdy hwf).trans

theorem ClocksKept.envEffect {s : State} (hwf : s.cfg.wf = true) (k : EnvKind) :
    ClocksKept s (envEffect k s) where
  hseon := (envEffect_hseon hwf).trans
  hserdy h := by rw [envEffect_hserdy hwf, h, Bool.true_or]
  pllon := (envEffect_pllon hwf).trans
  pllrdy h := by rw [envEffect_pllrdy hwf, h, Bool.true_or]

/-- Every effect but block reset's keeps the enables and ready bits that are set (41_clock_tree_init.md
R140). -/
theorem RegEffect.clocksKept {s s' : State} {t : Turn} (h : RegEffect s t s') (hwf : s.cfg.wf = true) :
    ClocksKept s s' := by
  cases h with
  | same _ hcfg hreg => exact .of_eq hcfg hreg
  | bus _ a r v k m _ _ _ _ hw hcfg hreg => exact (ClocksKept.stored hwf hw).trans (.of_eq hcfg hreg)
  | env k => exact .envEffect hwf k

theorem and_or_self_left (v m : Word) : v &&& (v ||| m) = v :=
  subset_of_bits fun i hv => by rw [BitVec.getLsbD_or, hv, Bool.true_or]

/-- Settles O38: the conditions look at registers and configuration, each effect is one `envStore` of RO
bits, and `RegEffect.clocksKept` for the ready bits. -/
theorem commonPropertiesOfEnv : Obligations.CommonPropertiesOfEnv := by
  refine ⟨envEnabled_control, fun k s hwf he => ?_, fun t s s' hwf ht h => ?_⟩
  · have hro : ∀ q, (envEffect k s).reg.get q &&& ~~~ s.cfg.ro q = s.reg.get q &&& ~~~ s.cfg.ro q := fun q =>
      envEffect_get_and_of_disjoint (not_mask_and_self _)
    rw [envTurn_of_enabled he]
    cases k with
    | hseStart =>
      exact ⟨.cr, _, rfl, hro .cr, fun _ => ⟨rfl, and_or_self_left _ _⟩, nofun⟩
    | pllLock =>
      exact ⟨.cr, _, rfl, hro .cr, fun _ => ⟨rfl, and_or_self_left _ _⟩, nofun⟩
    | clockSwitch =>
      exact ⟨.cfgr, _, rfl, hro .cfgr, fun hne => absurd rfl hne,
        fun _ => ⟨rfl, envEffect_sws (k := .clockSwitch) hwf⟩⟩
  · have hkept := ((takeTurn_effect h).regEffect ht).clocksKept hwf
    exact ⟨hkept.hserdy, hkept.pllrdy⟩

/-! ### The laws of the primitives -/

/-- A bus write keeps the bits of class U (40_register_access.md R101). -/
theorem stored_get_and_un {a : Agent} {r : Reg} {v : Word} {k : EventKind} {m : Word} {s : State} (q : Reg) :
    (stored a r v k m s).reg.get q &&& s.cfg.un q = s.reg.get q &&& s.cfg.un q :=
  stored_get_and_of_disjoint (Config.un_wm _ q)

/-- Every effect but block reset's keeps the bits of class U (R110). -/
theorem RegEffect.get_and_un {s s' : State} {t : Turn} (h : RegEffect s t s') (q : Reg) :
    s'.reg.get q &&& s.cfg.un q = s.reg.get q &&& s.cfg.un q := by
  cases h with
  | same _ _ hreg => rw [hreg]
  | bus _ a r v k m _ _ _ _ _ _ hreg => rw [hreg, stored_get_and_un]
  | env k => exact envEffect_get_and_of_disjoint (Config.un_ro _ q)

/-- The U bits hold their reset values (R110). -/
def UnmodelledAtReset (s : State) : Prop :=
  ∀ r, s.reg.get r &&& s.cfg.un r = (RegFile.reset s.cfg 0#8).get r &&& s.cfg.un r

theorem TurnEffect.unmodelledAtReset {s s' : State} {t : Turn} (h : TurnEffect s t s')
    (hs : UnmodelledAtReset s) : UnmodelledAtReset s' := by
  intro r
  rw [h.cfg_eq]
  by_cases hreset : ∃ b, t = .blockReset b
  · obtain ⟨b, rfl⟩ := hreset
    cases h with
    | pass _ ht => exact absurd rfl (ht b)
    | reset => exact Config.reset_get_and_un _ _ _
  · rw [(h.regEffect (not_exists.1 hreset)).get_and_un, hs r]

theorem busSet_ok {a : Agent} {r : Reg} {m : Word} {s t : State} (h : busSet a r m s = .ok t) :
    t.cfg = s.cfg ∧ t.reg = s.reg.set r (s.reg.get r ||| (m &&& s.cfg.wm r)) := by
  obtain ⟨-, rfl⟩ := busWrite_ok h
  rw [stored_or_masked]
  exact ⟨rfl, rfl⟩

theorem busClear_ok {a : Agent} {r : Reg} {m : Word} {s t : State} (h : busClear a r m s = .ok t) :
    t.reg = s.reg.set r (s.reg.get r &&& ~~~ (m &&& s.cfg.wm r)) := by
  obtain ⟨-, rfl⟩ := busWrite_ok h
  rw [stored_and_not_masked]

/-- Settles O23: what a set and a clear store, and the U bits through every turn. -/
theorem lawsOfThePrimitives : Obligations.LawsOfThePrimitives := by
  refine ⟨fun a r m s t h => ?_, fun a r m s t h => ?_, fun a r m s t u h h' => ?_,
    fun a r v k m s t h q => ?_, fun s s' hs h => ?_⟩
  · rw [(busSet_ok h).2, get_set_self, or_and_not_self]
  · rw [busClear_ok h, get_set_self, and_not_and_not_self]
  · obtain ⟨hcfg, hreg⟩ := busSet_ok h
    have hagain : t.reg.get r ||| (m &&& s.cfg.wm r) = t.reg.get r := by
      rw [hreg, get_set_self, BitVec.or_assoc, BitVec.or_self]
    rw [(busSet_ok h').2, hcfg, hagain, set_get_self]
  · obtain ⟨-, rfl⟩ := busWrite_ok h
    exact stored_get_and_un q
  · have hs' : UnmodelledAtReset s' := step_keeps (fun _ _ _ hs => hs) (fun _ _ _ _ hs h => h.unmodelledAtReset hs)
      hs h
    exact ⟨hs', (hs' .cfgr).trans BitVec.zero_and⟩

/-! ### The register invariant -/

theorem RegisterInv.of_eq {s u : State} (h : RegisterInv s) (hcfg : u.cfg = s.cfg) (hreg : u.reg = s.reg) :
    RegisterInv u where
  cfgWf := by rw [hcfg]; exact h.cfgWf
  unmodelled := by rw [hcfg, hreg]; exact h.unmodelled
  hsirdy := (hsirdy_congr hcfg hreg).trans h.hsirdy
  sw := sw_congr hcfg hreg ▸ h.sw
  sws := sws_congr hcfg hreg ▸ h.sws
  hserdy hrdy := (hseon_congr hcfg hreg).trans (h.hserdy ((hserdy_congr hcfg hreg).symm.trans hrdy))
  pllrdy hrdy := (pllon_congr hcfg hreg).trans (h.pllrdy ((pllrdy_congr hcfg hreg).symm.trans hrdy))

theorem RegisterInv.stored {s : State} (h : RegisterInv s) {a : Agent} {r : Reg} {v : Word} {k : EventKind}
    {m : Word} (hw : WriteAllowed s r v) : RegisterInv (stored a r v k m s) where
  cfgWf := h.cfgWf
  unmodelled q := (stored_get_and_un q).trans (h.unmodelled q)
  hsirdy := (stored_hsirdy h.cfgWf).trans h.hsirdy
  sw := stored_sw_ne h.cfgWf hw h.sw
  sws := by rw [stored_sws h.cfgWf]; exact h.sws
  hserdy hrdy := stored_hseon hw (h.hserdy ((stored_hserdy h.cfgWf).symm.trans hrdy))
  pllrdy hrdy := stored_pllon hw (h.pllrdy ((stored_pllrdy h.cfgWf).symm.trans hrdy))

/-- An ENV step sets a ready bit only while its clock is enabled (41_clock_tree_init.md R130, R131), and SWS
takes a value of SW (R132). -/
theorem RegisterInv.envEffect {s : State} (h : RegisterInv s) {k : EnvKind} (he : envEnabled k s = true) :
    RegisterInv (envEffect k s) where
  cfgWf := by rw [envEffect_cfg]; exact h.cfgWf
  unmodelled q := by
    rw [envEffect_cfg, envEffect_get_and_of_disjoint (Config.un_ro _ q)]
    exact h.unmodelled q
  hsirdy := (envEffect_hsirdy h.cfgWf).trans h.hsirdy
  sw := by rw [envEffect_sw h.cfgWf]; exact h.sw
  sws := by
    rw [envEffect_sws h.cfgWf]
    split
    · exact h.sw
    · exact h.sws
  hserdy hrdy := by
    rw [envEffect_hserdy h.cfgWf, Bool.or_eq_true, decide_eq_true_eq] at hrdy
    rw [envEffect_hseon h.cfgWf]
    obtain hrdy | rfl := hrdy
    · exact h.hserdy hrdy
    · exact ((envEnabled_hseStart_iff s).1 he).2.1
  pllrdy hrdy := by
    rw [envEffect_pllrdy h.cfgWf, Bool.or_eq_true, decide_eq_true_eq] at hrdy
    rw [envEffect_pllon h.cfgWf]
    obtain hrdy | rfl := hrdy
    · exact h.pllrdy hrdy
    · exact ((envEnabled_pllLock_iff s).1 he).2.1

/-- The registers of block reset under a well-formed configuration, whatever else the state holds
(10_state.md R45). -/
theorem RegisterInv.of_reset {s : State} (hwf : s.cfg.wf = true) {b : Byte}
    (hreg : s.reg = RegFile.reset s.cfg b) : RegisterInv s where
  cfgWf := hwf
  unmodelled r := by rw [hreg]; exact Config.reset_get_and_un _ _ _
  hsirdy := by rw [State.hsirdy, hreg]; exact Config.reset_hsirdy hwf b
  sw := by
    rw [State.sw, hreg]
    exact (getField_zero _ _).symm ▸ (by decide)
  sws := by
    rw [State.sws, hreg]
    exact (getField_zero _ _).symm ▸ (by decide)
  hserdy hrdy := by
    rw [State.hserdy, hreg, Config.reset_cr_flag hwf (by simp [Config.hserdyMask])] at hrdy
    cases hrdy
  pllrdy hrdy := by
    rw [State.pllrdy, hreg, Config.reset_cr_flag hwf (by simp [Config.pllrdyMask])] at hrdy
    cases hrdy

theorem RegEffect.registerInv {s s' : State} {t : Turn} (h : RegEffect s t s') (hs : RegisterInv s) :
    RegisterInv s' := by
  cases h with
  | same _ hcfg hreg => exact hs.of_eq hcfg hreg
  | bus _ a r v k m _ _ _ _ hw hcfg hreg => exact (hs.stored hw).of_eq hcfg hreg
  | env k he => exact hs.envEffect he

theorem TurnEffect.registerInv {s s' : State} {t : Turn} (h : TurnEffect s t s') (hs : RegisterInv s) :
    RegisterInv s' := by
  by_cases hreset : ∃ b, t = .blockReset b
  · obtain ⟨b, rfl⟩ := hreset
    cases h with
    | pass => exact hs
    | reset => exact .of_reset hs.cfgWf rfl
  · exact (h.regEffect (not_exists.1 hreset)).registerInv hs

/-- Settles O52: `TurnEffect.registerInv` after the choice of the turn. -/
theorem stepKeepsRegisterInvariant : Obligations.StepKeepsRegisterInvariant := by
  exact fun s s' hs h =>
    step_keeps (fun _ _ _ hs => hs.of_eq rfl rfl) (fun _ _ _ _ hs h => h.registerInv hs) hs h

/-! ### Dead clocks -/

theorem DeadClockInv.of_eq {s u : State} (h : DeadClockInv s) (hcfg : u.cfg = s.cfg)
    (hhse : u.hserdy = s.hserdy) (hpll : u.pllrdy = s.pllrdy) : DeadClockInv u where
  hse hdead := hhse.trans (h.hse (hcfg ▸ hdead))
  pll hdead := hpll.trans (h.pll (hcfg ▸ hdead))

/-- The ENV step that sets a ready bit is that of a clock that works (41_clock_tree_init.md R130, R131). -/
theorem DeadClockInv.envEffect {s : State} (h : DeadClockInv s) (hwf : s.cfg.wf = true) {k : EnvKind}
    (he : envEnabled k s = true) : DeadClockInv (envEffect k s) where
  hse hdead := by
    rw [envEffect_cfg] at hdead
    rw [envEffect_hserdy hwf, h.hse hdead, Bool.false_or, decide_eq_false_iff_not]
    rintro rfl
    simp [envEnabled_hseStart_iff, hdead] at he
  pll hdead := by
    rw [envEffect_cfg] at hdead
    rw [envEffect_pllrdy hwf, h.pll hdead, Bool.false_or, decide_eq_false_iff_not]
    rintro rfl
    simp [envEnabled_pllLock_iff, hdead] at he

theorem DeadClockInv.of_reset {s : State} (hwf : s.cfg.wf = true) {b : Byte}
    (hreg : s.reg = RegFile.reset s.cfg b) : DeadClockInv s where
  hse _ := by rw [State.hserdy, hreg, Config.reset_cr_flag hwf (by simp [Config.hserdyMask])]
  pll _ := by rw [State.pllrdy, hreg, Config.reset_cr_flag hwf (by simp [Config.pllrdyMask])]

theorem RegEffect.deadClockInv {s s' : State} {t : Turn} (h : RegEffect s t s') (hwf : s.cfg.wf = true)
    (hs : DeadClockInv s) : DeadClockInv s' := by
  cases h with
  | same _ hcfg hreg => exact hs.of_eq hcfg (hserdy_congr hcfg hreg) (pllrdy_congr hcfg hreg)
  | bus _ a r v k m _ _ _ _ _ hcfg hreg =>
    have hstored : DeadClockInv (stored a r v k m s) := hs.of_eq rfl (stored_hserdy hwf) (stored_pllrdy hwf)
    exact hstored.of_eq hcfg (hserdy_congr hcfg hreg) (pllrdy_congr hcfg hreg)
  | env k he => exact hs.envEffect hwf he

theorem TurnEffect.deadClockInv {s s' : State} {t : Turn} (h : TurnEffect s t s') (hwf : s.cfg.wf = true)
    (hs : DeadClockInv s) : DeadClockInv s' := by
  by_cases hreset : ∃ b, t = .blockReset b
  · obtain ⟨b, rfl⟩ := hreset
    cases h with
    | pass => exact hs
    | reset => exact .of_reset hwf rfl
  · exact (h.regEffect (not_exists.1 hreset)).deadClockInv hwf hs

/-- Settles O58: `TurnEffect.deadClockInv` after the choice of the turn. -/
theorem stepKeepsDeadClockInvariant : Obligations.StepKeepsDeadClockInvariant := by
  exact fun s s' hs h =>
    step_keeps (fun _ _ _ hs => hs.of_eq rfl rfl rfl) (fun _ _ _ hwf hs h => h.deadClockInv hwf hs) hs h

end Machine

end Sys2Proof
end

section
/-! PROOFS. The invariant of the control state (10_state.md R46), the writes that CTRL's steps make and that
the filter accepts (41_clock_tree_init.md R123, R125, R127, 42_peripheral_gating.md R162, 43_prescaler.md
R181), and the invariant of the sequencer, under which no CTRL step faults (60_exceptions.md R192). -/

namespace Sys2Proof

/-! ### Bits -/

theorem xor_and_eq_zero_iff (v w x : Word) : (v ^^^ w) &&& x = 0#32 ↔ v &&& x = w &&& x := by
  have hdistrib : (v ^^^ w) &&& x = (v &&& x) ^^^ (w &&& x) :=
    BitVec.eq_of_getLsbD_eq fun i _ => by simp [Bool.and_xor_distrib_right]
  rw [hdistrib, BitVec.xor_eq_zero_iff]

/-- A difference that lies in a mask leaves every field outside the mask. -/
theorem and_eq_of_xor_and_not {v w m x : Word} (h : (v ^^^ w) &&& ~~~ m = 0#32) (hx : x &&& m = 0#32) :
    v &&& x = w &&& x := by
  rw [xor_and_eq_zero_iff, and_not_eq_iff] at h
  refine BitVec.eq_of_getLsbD_eq fun i _ => ?_
  rw [BitVec.getLsbD_and, BitVec.getLsbD_and]
  cases hxi : x.getLsbD i
  · simp
  · have hmi := disjoint_bits hx i
    rw [hxi, Bool.true_and] at hmi
    rw [h i hmi]

theorem and_or_eq_zero {x m n : Word} (hm : x &&& m = 0#32) (hn : x &&& n = 0#32) : x &&& (m ||| n) = 0#32 := by
  rw [BitVec.and_comm, or_and_of_disjoint ((BitVec.and_comm _ _).trans hn), BitVec.and_comm, hm]

theorem fieldMask_one (lo : Nat) : fieldMask lo 1 = bit lo := rfl

/-- Replacing a field differs from the old word in the field alone. -/
theorem replace_xor_and_not {v d m n : Word} (hd : d &&& ~~~ m = 0#32) :
    (((v &&& ~~~ m) ||| d) ^^^ v) &&& ~~~ (m ||| n) = 0#32 := by
  rw [xor_and_eq_zero_iff, and_not_eq_iff]
  intro i hi
  rw [BitVec.getLsbD_or, Bool.or_eq_false_iff] at hi
  obtain ⟨hm, -⟩ := hi
  by_cases h32 : i < 32
  · have hbit := disjoint_bits hd i
    simp only [BitVec.getLsbD_not, hm, h32, decide_true, Bool.not_false, Bool.and_true] at hbit
    simp only [BitVec.getLsbD_or, BitVec.getLsbD_and, BitVec.getLsbD_not, hm, h32, hbit, decide_true,
      Bool.not_false, Bool.and_true, Bool.or_false]
  · rw [BitVec.getLsbD_of_ge _ i (Nat.le_of_not_lt h32), BitVec.getLsbD_of_ge _ i (Nat.le_of_not_lt h32)]

namespace Machine

/-! ### The control state -/

/-- An effect that keeps the fault record keeps the invariant where `op` and `fsm` agree after it. -/
theorem ControlInv.of_record {s u : State} (h : ControlInv s) (hf : u.faulted = s.faulted)
    (hcode : u.faultCode = s.faultCode) (hcw : u.faultCw = s.faultCw) (hdw : u.faultDw = s.faultDw)
    (hop : u.op = .init ↔ u.fsm ∈ Fsm.inProgress) : ControlInv u where
  opInit := hop
  noRecord hfu := by rw [hcode, hcw, hdw]; exact h.noRecord (hf.symm.trans hfu)
  record hfu := by rw [hcode]; exact h.record (hf.symm.trans hfu)

theorem ControlInv.faultEntry {s : State} (h : ControlInv s) (cw : Word) (f : Raised) :
    ControlInv (faultEntry cw f s) where
  opInit := h.opInit
  noRecord := nofun
  record _ := ⟨f.cause, rfl⟩

theorem ControlInv.of_reset {s : State} (hop : s.op = .idle) (hfsm : s.fsm = .internalClock)
    (hf : s.faulted = false) (hrecord : s.faultCode = 0#8 ∧ s.faultCw = 0#32 ∧ s.faultDw = 0#32) :
    ControlInv s where
  opInit := by rw [hop, hfsm]; decide
  noRecord _ := hrecord
  record h := absurd h (by simp [hf])

/-- Outside an initialization, commands that are none keep `fsm` outside it (10_state.md R46). -/
theorem ControlInv.opInit_of_ne {s : State} (h : ControlInv s) (hop : s.op ≠ .init) {o : Op} (ho : o ≠ .init) :
    o = .init ↔ s.fsm ∈ Fsm.inProgress :=
  iff_of_false ho (mt h.opInit.2 hop)

/-- Every turn keeps the invariant of the control state. -/
theorem TurnEffect.controlInv {s s' : State} {t : Turn} (h : TurnEffect s t s') (hs : ControlInv s) :
    ControlInv s' := by
  cases h with
  | hostFault w f => exact hs.faultEntry w f
  | ctrlFault f => exact hs.faultEntry _ f
  | reset b => exact .of_reset rfl rfl rfl ⟨rfl, rfl, rfl⟩
  | pass => exact hs
  | read | hostWrite | periphEnable => exact hs.of_record rfl rfl rfl rfl hs.opInit
  | env k =>
    exact hs.of_record (envEffect_faulted _ _) (envEffect_faultCode _ _) (envEffect_faultCw _ _)
      (envEffect_faultDw _ _) (by rw [envEffect_op, envEffect_fsm]; exact hs.opInit)
  | clkInit => exact hs.of_record rfl rfl rfl rfl (iff_of_true rfl (by simp [Fsm.inProgress]))
  | enableOsc _ hop | pollOsc _ hop | enablePll _ hop | pollPll _ hop | switch _ hop =>
    exact hs.of_record rfl rfl rfl rfl (iff_of_true hop (by simp [Fsm.inProgress]))
  | pollSwitch => exact hs.of_record rfl rfl rfl rfl (iff_of_false nofun (by simp [Fsm.inProgress]))
  | periphReset _ _ _ _ _ _ _ hop | prescaler _ _ _ _ _ _ hop | resetClear _ hop | prescWrite _ hop =>
    exact hs.of_record rfl rfl rfl rfl (hs.opInit_of_ne (by simp [hop]) nofun)

/-- Settles O51: `TurnEffect.controlInv` after the choice of the turn; a fault entry writes the fault record
alone (`faultEntryIsPrecise`). -/
theorem stepKeepsControlInvariant : Obligations.StepKeepsControlInvariant := by
  refine ⟨fun cfg b => .of_reset rfl rfl rfl ⟨rfl, rfl, rfl⟩, fun s s' hs h => ?_, fun s s' hf h hf' => ?_⟩
  · exact step_keeps (fun _ _ _ hs => hs.of_record rfl rfl rfl rfl hs.opInit)
      (fun _ _ _ _ hs h => h.controlInv hs) hs h
  · obtain ⟨-, ht⟩ := turn_of_step h
    obtain ⟨a, d, hchoice⟩ := exists_afterChoice s
    rw [hchoice] at ht
    obtain ⟨f, info, rfl⟩ := faultEntryIsPrecise _ { s with agenda := a, draws := d } _ hf ht hf'
    exact ⟨rfl, rfl⟩

/-! ### The writes of CTRL -/

/-- The filter allows every set of writable bits of CR (40_register_access.md R101, R103). -/
theorem writeAllowed_cr_or {s : State} {m : Word} (hm : m &&& s.cfg.wm .cr = m) :
    WriteAllowed s .cr (s.reg.cr ||| m) := by
  refine ⟨(changesUnmodelled_eq_false_iff _ _ _ _).1 (changesUnmodelled_or _ .cr _ hm),
    fun _ => ⟨fun hon => ?_, fun hon => ?_⟩, nofun⟩
  · rw [flag_or, show flag _ s.reg.cr = true from hon, Bool.true_or]
  · rw [flag_or, show flag _ s.reg.cr = true from hon, Bool.true_or]

/-- CTRL's set of writable bits of CR (R105). -/
theorem busSet_ctrl_cr {s : State} {m : Word} (hm : m &&& s.cfg.wm .cr = m) :
    busSet .ctrl .cr m s = .ok (ctrlSet .cr m s) := by
  rw [busSet, get_cr, busWrite_of_allowed (writeAllowed_cr_or hm), stored, get_cr, filtered_or _ _ _ hm]
  rfl

/-- The step at CFG_PRIMED (41_clock_tree_init.md R123). -/
theorem ctrlInit_of_cfgPrimed {s : State} (hfsm : s.fsm = .cfgPrimed) :
    ctrlInit s = .ok { ctrlSet .cr s.cfg.hseonMask s with fsm := .oscEnabling } := by
  simp [ctrlInit, hfsm, initEnableOsc, busSet_ctrl_cr (Config.hseon_wm s.cfg)]

/-- The step at OSC_READY (R125). -/
theorem ctrlInit_of_oscReady {s : State} (hfsm : s.fsm = .oscReady) :
    ctrlInit s = .ok { ctrlSet .cr s.cfg.pllonMask s with fsm := .pllEnabling } := by
  simp [ctrlInit, hfsm, initEnablePll, busSet_ctrl_cr (Config.pllon_wm s.cfg)]

/-- Settles O26: at each enabling state the CTRL turn is the initializer's step, whose set is allowed. -/
theorem initializerEnableSteps : Obligations.InitializerEnableSteps := by
  refine ⟨fun s _ hf hop => ⟨fun hfsm => ?_, fun hfsm => ?_⟩, fun hw pl => ⟨rfl, rfl⟩⟩
  · rw [takeTurn_ctrl_of_init hf hop (by simp [hfsm]) (by simp [hfsm]), ctrlInit_of_cfgPrimed hfsm]
    rfl
  · rw [takeTurn_ctrl_of_init hf hop (by simp [hfsm]) (by simp [hfsm]), ctrlInit_of_oscReady hfsm]
    rfl

/-- The composed value lies in the PLL fields (R122). -/
theorem compose_and_pllFields (l : Layout) (pllSrc : Byte) (mul : BitVec 4) :
    compose l pllSrc mul &&& (bit l.cfgrPllsrc ||| fieldMask l.cfgrPllmul 4) = compose l pllSrc mul := by
  refine subset_of_bits fun i hi => ?_
  rw [compose, BitVec.getLsbD_or, Bool.or_eq_true] at hi
  rw [BitVec.getLsbD_or, Bool.or_eq_true, ← fieldMask_one]
  exact hi.imp (subset_bits (placeField_and_fieldMask _ _)) (subset_bits (placeField_and_fieldMask _ _))

/-- The composed value lies in the writable bits of CFGR (R122, 10_state.md R28). -/
theorem compose_and_wm (c : Config) (pllSrc : Byte) (mul : BitVec 4) :
    compose c.layout pllSrc mul &&& c.wm .cfgr = compose c.layout pllSrc mul := by
  refine subset_of_bits fun i hi => ?_
  have hfields := subset_bits (compose_and_pllFields _ _ _) hi
  rw [BitVec.getLsbD_or, Bool.or_eq_true] at hfields
  exact hfields.elim (subset_bits (Config.pllsrc_wm c)) (subset_bits (Config.pllmul_wm c))

/-- The switch value is the latch with the PLL's code in SW (R127). -/
theorem switchValue_eq_putField (c : Config) (latch : Word) :
    switchValue c latch = putField c.layout.cfgrSw c.codes.srcPll latch := rfl

theorem switchValue_and_wm {c : Config} {latch : Word} (h : latch &&& c.wm .cfgr = latch) :
    switchValue c latch &&& c.wm .cfgr = switchValue c latch := by
  refine subset_of_bits fun i hi => ?_
  rw [switchValue, BitVec.getLsbD_or, BitVec.getLsbD_and, Bool.or_eq_true, Bool.and_eq_true] at hi
  obtain ⟨hlatch, -⟩ | hsw := hi
  · exact subset_bits h hlatch
  · exact subset_bits (Config.sw_wm c) (subset_bits (placeField_and_fieldMask _ _) hsw)

/-- The U bits of CFGR are 0, as reset leaves them (40_register_access.md R110). -/
theorem RegisterInv.cfgr_and_un {s : State} (h : RegisterInv s) : s.reg.cfgr &&& s.cfg.un .cfgr = 0#32 :=
  (h.unmodelled .cfgr).trans BitVec.zero_and

/-- A bit of a word without U bits is writable in CFGR or one of SWS, and not both (10_state.md R25, R28). -/
theorem cfgr_bit_class {c : Config} (hwf : c.wf = true) {v : Word} (hv : v &&& c.un .cfgr = 0#32) {i : Nat}
    (hi : v.getLsbD i = true) : (c.wm .cfgr).getLsbD i = !c.swsMask.getLsbD i := by
  have hro : c.ro .cfgr = c.swsMask := BitVec.or_zero
  have hdisjoint := disjoint_bits (Config.wm_ro hwf .cfgr) i
  have hun := disjoint_bits hv i
  simp only [hi, Bool.true_and, Config.un, BitVec.getLsbD_not, BitVec.getLsbD_or, hro,
    BitVec.lt_of_getLsbD hi, decide_true] at hun hdisjoint
  cases hw : (c.wm .cfgr).getLsbD i <;> simp_all

/-- Outside the writable bits a word without U bits has SWS alone, and outside SWS the writable bits. -/
theorem and_cfgr_classes {c : Config} (hwf : c.wf = true) {v : Word} (hv : v &&& c.un .cfgr = 0#32) :
    v &&& ~~~ c.wm .cfgr = v &&& c.swsMask ∧ v &&& c.wm .cfgr = v &&& ~~~ c.swsMask := by
  constructor <;> refine BitVec.eq_of_getLsbD_eq fun i hi => ?_
  all_goals
    simp only [BitVec.getLsbD_and, BitVec.getLsbD_not, hi, decide_true, Bool.true_and]
    cases hvi : v.getLsbD i
    · rfl
    · simp [cfgr_bit_class hwf hv hvi]

/-- Outside its writable bits CFGR holds SWS alone. -/
theorem RegisterInv.cfgr_and_not_wm {s : State} (h : RegisterInv s) :
    s.reg.cfgr &&& ~~~ s.cfg.wm .cfgr = s.reg.cfgr &&& s.cfg.swsMask :=
  (and_cfgr_classes h.cfgWf h.cfgr_and_un).1

/-- A bus write of CFGR stores the writable bits of the value and keeps SWS. -/
theorem RegisterInv.filtered_cfgr {s : State} (h : RegisterInv s) (v : Word) :
    filtered s.cfg .cfgr s.reg.cfgr v = (s.reg.cfgr &&& s.cfg.swsMask) ||| (v &&& s.cfg.wm .cfgr) := by
  rw [filtered, h.cfgr_and_not_wm]

/-- The latch of a CLK_INIT in progress lies in the writable bits of CFGR. -/
theorem ProgressInv.latch_and_wm {s : State} (h : ProgressInv s) (hop : s.op = .init) :
    s.cfgLatch &&& s.cfg.wm .cfgr = s.cfgLatch := by
  obtain ⟨mul, hlatch⟩ := h.latch hop
  rw [hlatch, compose_and_wm]

/-- The write of step 4 is allowed: SW takes the PLL's code, and the PLL fields are those of step 1 (R127). -/
theorem SequencerInv.writeAllowed_switch {s : State} (h : SequencerInv s) (hop : s.op = .init)
    (hfsm : s.fsm = .pllReady) : WriteAllowed s .cfgr (switchValue s.cfg s.cfgLatch) := by
  have hwf := h.registers.cfgWf
  obtain ⟨-, -, -, -, -, -, hsw, -, hpllsrc, hpllmul⟩ := Config.range hwf
  obtain ⟨-, hswsrc, hswmul, -⟩ := Config.sw_disjoint hwf
  obtain ⟨-, -, -, -, -, hne, -⟩ := Config.codes_facts hwf
  have hprimed := h.progress.primed hop (by simp [hfsm])
  have hkept : ∀ {m : Word}, m &&& s.cfg.wm .cfgr = m → s.cfg.swMask &&& m = 0#32 →
      switchValue s.cfg s.cfgLatch &&& m = s.reg.cfgr &&& m := by
    intro m hm hdisjoint
    rw [switchValue_eq_putField, putField_and_of_disjoint hdisjoint, ← hprimed, BitVec.and_assoc,
      BitVec.and_comm (s.cfg.wm .cfgr), hm]
  refine ⟨?_, nofun, fun _ => ⟨?_, fun _ => ⟨?_, ?_⟩⟩⟩
  · rw [xor_and_eq_zero_iff, get_cfgr, h.registers.cfgr_and_un]
    exact Config.disjoint_of_subset (switchValue_and_wm (h.progress.latch_and_wm hop)) (Config.wm_un _ _)
  · rwa [switchValue_eq_putField, getField_putField _ _ _ hsw]
  · exact getField_congr hpllsrc (hkept (Config.pllsrc_wm _) hswsrc)
  · exact getField_congr hpllmul (hkept (Config.pllmul_wm _) hswmul)

/-- The step at PLL_READY (R127). -/
theorem SequencerInv.ctrlInit_of_pllReady {s : State} (h : SequencerInv s) (hop : s.op = .init)
    (hfsm : s.fsm = .pllReady) : ctrlInit s =
      .ok { stored .ctrl .cfgr (switchValue s.cfg s.cfgLatch) .write (switchValue s.cfg s.cfgLatch) s with
        fsm := .switching } := by
  simp [ctrlInit, hfsm, initSwitch, busWrite_of_allowed (h.writeAllowed_switch hop hfsm)]

/-- Settles O28: the write of step 4 is allowed and keeps SWS; the switch value lies in the writable bits. -/
theorem initializerSwitchStep : Obligations.InitializerSwitchStep := by
  refine ⟨fun s h hf hop hfsm => ?_, fun hw pl latch => rfl⟩
  have hvalue := switchValue_and_wm (h.progress.latch_and_wm hop)
  rw [takeTurn_ctrl_of_init hf hop (by simp [hfsm]) (by simp [hfsm]), h.ctrlInit_of_pllReady hop hfsm, stored,
    get_cfgr, h.registers.filtered_cfgr, hvalue]
  rfl

/-- CTRL's clear of the pending line is allowed (42_peripheral_gating.md R162). -/
theorem PendingInv.writeAllowed_resetClear {s : State} (h : PendingInv s) (hop : s.op = .resetClr) :
    s.rstMask &&& s.cfg.wm s.rstReg = s.rstMask ∧
      WriteAllowed s s.rstReg (s.reg.get s.rstReg &&& ~~~ s.rstMask) := by
  obtain ⟨p, hp, hreg, hmask⟩ := h.reset hop
  obtain ⟨hcr, hcfgr⟩ := Domain.resetReg_ne_clock hreg
  have hwm : s.rstMask &&& s.cfg.wm s.rstReg = s.rstMask := hmask ▸ Config.line_reset_wm hp hreg
  exact ⟨hwm, (changesUnmodelled_eq_false_iff _ _ _ _).1 (changesUnmodelled_and_not _ _ _ hwm),
    fun h => absurd h hcr, fun h => absurd h hcfgr⟩

/-- The clear half of the pulse (R162). -/
theorem PendingInv.ctrlResetClear_eq {s : State} (h : PendingInv s) (hop : s.op = .resetClr) :
    ctrlResetClear s = .ok { s with
        reg := s.reg.set s.rstReg (s.reg.get s.rstReg &&& ~~~ s.rstMask)
        trace := s.trace ++ [⟨.ctrl, s.rstReg, .clear, s.rstMask, s.reg.get s.rstReg &&& ~~~ s.rstMask⟩]
        op := .idle } := by
  obtain ⟨hwm, hw⟩ := h.writeAllowed_resetClear hop
  rw [ctrlResetClear, busClear, busWrite_of_allowed hw, stored, filtered_and_not _ _ _ hwm]
  rfl

/-- A turn of CTRL with a reset pulse or a prescaler write pending is that step. -/
theorem takeTurn_ctrl_of_pending {s : State} (hf : s.faulted = false) (hop : s.op = .resetClr ∨ s.op = .prescWr) :
    takeTurn .ctrl s = .next (settle 0#32 (ctrlBody s) s) := by
  obtain hop | hop := hop <;> simp [takeTurn, ctrlTurn, ctrlEnabled, hf, hop]

theorem PendingInv.takeTurn_resetClear {s : State} (h : PendingInv s) (hf : s.faulted = false)
    (hop : s.op = .resetClr) : takeTurn .ctrl s =
      .next { s with
        reg := s.reg.set s.rstReg (s.reg.get s.rstReg &&& ~~~ s.rstMask)
        trace := s.trace ++ [⟨.ctrl, s.rstReg, .clear, s.rstMask, s.reg.get s.rstReg &&& ~~~ s.rstMask⟩]
        op := .idle } := by
  rw [takeTurn_ctrl_of_pending hf (.inl hop), ctrlBody, hop, h.ctrlResetClear_eq hop, settle_ok]

/-- Settles O41: the pending line is writable in the pending register. -/
theorem resetPulseEndsWithTheClear : Obligations.ResetPulseEndsWithTheClear :=
  fun _ h => h.pending.takeTurn_resetClear

/-- The CFGR value to be written differs from CFGR in one prescaler field and in SWS (43_prescaler.md R181). -/
def PrescPending (s : State) : Prop :=
  ∃ sel, (s.prescVal ^^^ s.reg.cfgr) &&& ~~~ (s.cfg.prescMask sel ||| s.cfg.swsMask) = 0#32

/-- Outside the prescaler fields and SWS the value to be written agrees with CFGR. -/
theorem PrescPending.and_eq {s : State} (h : PrescPending s) {x : Word}
    (hx : ∀ sel, x &&& s.cfg.prescMask sel = 0#32) (hsws : x &&& s.cfg.swsMask = 0#32) :
    s.prescVal &&& x = s.reg.cfgr &&& x := by
  obtain ⟨sel, hsel⟩ := h
  exact and_eq_of_xor_and_not hsel (and_or_eq_zero (hx sel) hsws)

section Presc

variable {s : State} (hpresc : PrescPending s) (h : RegisterInv s)

include hpresc h

/-- In particular in the U bits, which are 0 in CFGR. -/
theorem PrescPending.and_un : s.prescVal &&& s.cfg.un .cfgr = 0#32 := by
  refine (hpresc.and_eq (fun sel => ?_) ?_).trans h.cfgr_and_un
  · rw [BitVec.and_comm]
    exact Config.disjoint_of_subset (Config.presc_wm _ sel) (Config.wm_un _ _)
  · rw [BitVec.and_comm]
    exact Config.disjoint_of_subset (Config.sws_ro _) (Config.ro_un _ _)

/-- The write half is allowed: SW, PLLSRC and PLLMUL lie outside the prescaler fields (R181). -/
theorem PrescPending.writeAllowed : WriteAllowed s .cfgr s.prescVal := by
  have hwf := h.cfgWf
  obtain ⟨-, -, -, -, -, -, hsw, -, hpllsrc, hpllmul⟩ := Config.range hwf
  obtain ⟨hswsws, -, -, hswpresc⟩ := Config.sw_disjoint hwf
  obtain ⟨-, hsrcsws, hmulsws, hprescsrc, hprescmul⟩ := Config.pll_disjoint hwf
  refine ⟨?_, nofun, fun _ => ⟨?_, fun _ => ⟨?_, ?_⟩⟩⟩
  · rw [xor_and_eq_zero_iff, get_cfgr, h.cfgr_and_un, hpresc.and_un h]
  · have hfield : getField s.cfg.layout.cfgrSw 2 s.prescVal = s.sw :=
      getField_congr hsw (hpresc.and_eq hswpresc hswsws)
    exact hfield ▸ h.sw
  · exact getField_congr hpllsrc (hpresc.and_eq
      (fun sel => (BitVec.and_comm _ _).trans (hprescsrc sel)) hsrcsws)
  · exact getField_congr hpllmul (hpresc.and_eq
      (fun sel => (BitVec.and_comm _ _).trans (hprescmul sel)) hmulsws)

/-- What the write half stores of the value: all but SWS (R181). -/
theorem PrescPending.and_wm : s.prescVal &&& s.cfg.wm .cfgr = s.prescVal &&& ~~~ s.cfg.swsMask :=
  (and_cfgr_classes h.cfgWf (hpresc.and_un h)).2

/-- The write half (R181). -/
theorem PrescPending.ctrlPrescalerWrite_eq :
    ctrlPrescalerWrite s = .ok { s with
        reg := s.reg.set .cfgr ((s.reg.cfgr &&& s.cfg.swsMask) ||| (s.prescVal &&& ~~~ s.cfg.swsMask))
        trace := s.trace ++ [⟨.ctrl, .cfgr, .write, s.prescVal,
          (s.reg.cfgr &&& s.cfg.swsMask) ||| (s.prescVal &&& ~~~ s.cfg.swsMask)⟩]
        op := .idle } := by
  rw [ctrlPrescalerWrite, busWrite_of_allowed (hpresc.writeAllowed h), stored, get_cfgr,
    h.filtered_cfgr, hpresc.and_wm h]
  rfl

theorem PrescPending.takeTurn_prescWrite (hf : s.faulted = false) (hop : s.op = .prescWr) :
    takeTurn .ctrl s = .next { s with
        reg := s.reg.set .cfgr ((s.reg.cfgr &&& s.cfg.swsMask) ||| (s.prescVal &&& ~~~ s.cfg.swsMask))
        trace := s.trace ++ [⟨.ctrl, .cfgr, .write, s.prescVal,
          (s.reg.cfgr &&& s.cfg.swsMask) ||| (s.prescVal &&& ~~~ s.cfg.swsMask)⟩]
        op := .idle } := by
  rw [takeTurn_ctrl_of_pending hf (.inr hop), ctrlBody, hop, hpresc.ctrlPrescalerWrite_eq h,
    settle_ok]

end Presc

/-- Settles O44: the value to be written differs from CFGR in one prescaler field and SWS. -/
theorem prescalerWriteHalf : Obligations.PrescalerWriteHalf :=
  fun _ h hf hop => PrescPending.takeTurn_prescWrite (h.pending.presc hop) h.registers hf hop

/-- Under the invariant every step of CTRL succeeds (60_exceptions.md R192). -/
theorem SequencerInv.ctrlBody_ne_error {s : State} (h : SequencerInv s) (f : Raised) :
    ctrlBody s ≠ .error f := by
  unfold ctrlBody
  cases hop : s.op with
  | idle => nofun
  | init =>
    cases hfsm : s.fsm with
    | internalClock | pllActive => simp [ctrlInit, hfsm]
    | cfgPrimed => simp [ctrlInit_of_cfgPrimed hfsm]
    | oscEnabling => simp [ctrlInit_of_oscEnabling hfsm]
    | oscReady => simp [ctrlInit_of_oscReady hfsm]
    | pllEnabling => simp [ctrlInit_of_pllEnabling hfsm]
    | pllReady => simp [h.ctrlInit_of_pllReady hop hfsm]
    | switching => simp [ctrlInit_of_switching hfsm]
  | resetClr => simp [h.pending.ctrlResetClear_eq hop]
  | prescWr => simp [PrescPending.ctrlPrescalerWrite_eq (h.pending.presc hop) h.registers]

/-- Settles O54: the one effect of a CTRL turn that changes `faulted` is the fault of a step. -/
theorem ctrlNeverFaults : Obligations.CtrlNeverFaults := by
  intro s s' h ht
  cases takeTurn_effect ht with
  | ctrlFault f _ hb => exact absurd hb (h.ctrlBody_ne_error f)
  | pass | enableOsc | pollOsc | enablePll | pollPll | switch | pollSwitch | resetClear | prescWrite => rfl

end Machine

end Sys2Proof
end

section
/-! PROOFS. Every step keeps the invariant of the sequencer (41_clock_tree_init.md R120 to R128, 10_state.md
R38): what the initializer has done by each of its states, and what the latches of a pending step hold. The
reset state meets it (10_state.md R45). -/

namespace Sys2Proof.Machine

/-! ### What the initializer has done -/

/-- An effect that keeps `fsm`, and the latch and CFGR's writable bits while CLK_INIT is in progress. -/
theorem ProgressInv.keep {s u : State} (h : ProgressInv s) (hcfg : u.cfg = s.cfg) (hfsm : u.fsm = s.fsm)
    (hclocks : ClocksKept s u)
    (hinit : u.op = .init → s.op = .init ∧ u.cfgLatch = s.cfgLatch ∧
      u.reg.cfgr &&& s.cfg.wm .cfgr = s.reg.cfgr &&& s.cfg.wm .cfgr) : ProgressInv u where
  latch hop := by
    obtain ⟨hop, hlatch, -⟩ := hinit hop
    rw [hcfg, hlatch]
    exact h.latch hop
  primed hop hne := by
    obtain ⟨hop, hlatch, hcfgr⟩ := hinit hop
    rw [hcfg, hlatch, hcfgr]
    exact h.primed hop (hfsm ▸ hne)
  switched hop heq := by
    obtain ⟨hop, hlatch, hcfgr⟩ := hinit hop
    rw [hcfg, hlatch, hcfgr]
    exact h.switched hop (hfsm ▸ heq)
  hseon hrank := hclocks.hseon (h.hseon (hfsm ▸ hrank))
  hserdy hrank := hclocks.hserdy (h.hserdy (hfsm ▸ hrank))
  pllon hrank := hclocks.pllon (h.pllon (hfsm ▸ hrank))
  pllrdy hrank := hclocks.pllrdy (h.pllrdy (hfsm ▸ hrank))

/-- An effect that ends or starts no initialization. -/
theorem ProgressInv.keep_of_ne_init {s u : State} (h : ProgressInv s) (hcfg : u.cfg = s.cfg)
    (hfsm : u.fsm = s.fsm) (hclocks : ClocksKept s u) (hop : u.op ≠ .init) : ProgressInv u :=
  h.keep hcfg hfsm hclocks fun h => absurd h hop

/-- The first state of the initializer: the step-1 value is in CFGR's writable bits (R121). -/
theorem ProgressInv.of_clkInit {s u : State} {src pllSrc : Byte} {mul : BitVec 4}
    (hq : clockRequestOk s.cfg src pllSrc = true) (hcfg : u.cfg = s.cfg)
    (hlatch : u.cfgLatch = compose s.cfg.layout pllSrc mul) (hfsm : u.fsm = .cfgPrimed)
    (hcfgr : u.reg.cfgr &&& s.cfg.wm .cfgr = compose s.cfg.layout pllSrc mul &&& s.cfg.wm .cfgr) :
    ProgressInv u where
  latch _ := by
    obtain ⟨-, rfl⟩ := (clockRequestOk_iff _ _ _).1 hq
    exact ⟨mul, by rw [hcfg, hlatch]⟩
  primed _ _ := by rw [hcfg, hlatch, hcfgr, compose_and_wm]
  switched _ h := absurd (hfsm.symm.trans h) (by decide)
  hseon h := absurd h (by rw [hfsm]; decide)
  hserdy h := absurd h (by rw [hfsm]; decide)
  pllon h := absurd h (by rw [hfsm]; decide)
  pllrdy h := absurd h (by rw [hfsm]; decide)

/-- A CTRL step of the initializer before the switch, to the state of rank `n`: it keeps CFGR and the latch,
and the enables and ready bits up to rank `n` are set (R123 to R126). -/
theorem ProgressInv.advance {s u : State} (h : ProgressInv s) (hop : s.op = .init) (hne : s.fsm ≠ .switching)
    (hcfg : u.cfg = s.cfg) (hlatch : u.cfgLatch = s.cfgLatch) (hcfgr : u.reg.cfgr = s.reg.cfgr) {n : Nat}
    (hrank : u.fsm.rank = n) (hn : n ≤ 5) (hseon : 2 ≤ n → u.hseon = true) (hserdy : 3 ≤ n → u.hserdy = true)
    (pllon : 4 ≤ n → u.pllon = true) (pllrdy : 5 ≤ n → u.pllrdy = true) : ProgressInv u where
  latch _ := by rw [hcfg, hlatch]; exact h.latch hop
  primed _ _ := by rw [hcfg, hlatch, hcfgr]; exact h.primed hop hne
  switched _ hsw := by
    rw [hsw] at hrank
    exact absurd (hrank.trans_le hn) (by decide)
  hseon hr := hseon (hrank ▸ hr)
  hserdy hr := hserdy (hrank ▸ hr)
  pllon hr := pllon (hrank ▸ hr)
  pllrdy hr := pllrdy (hrank ▸ hr)

/-- The state after the switch: all four clock bits are set, and CFGR's writable bits are the switch value
where the command is still in progress (R127, R128). -/
theorem ProgressInv.of_clocks {s u : State} (h : ProgressInv s) (hrank : 5 ≤ s.fsm.rank) (hclocks : ClocksKept s u)
    (hinit : u.op = .init → u.fsm = .switching ∧
      (∃ mul, u.cfgLatch = compose u.cfg.layout (u.cfg.codes.pllsrcHse.setWidth 8) mul) ∧
      u.reg.cfgr &&& u.cfg.wm .cfgr = switchValue u.cfg u.cfgLatch) : ProgressInv u where
  latch hop := (hinit hop).2.1
  primed hop hne := absurd (hinit hop).1 hne
  switched hop _ := (hinit hop).2.2
  hseon _ := hclocks.hseon (h.hseon (by omega))
  hserdy _ := hclocks.hserdy (h.hserdy (by omega))
  pllon _ := hclocks.pllon (h.pllon (by omega))
  pllrdy _ := hclocks.pllrdy (h.pllrdy hrank)

theorem ProgressInv.of_reset {s : State} (hop : s.op = .idle) (hfsm : s.fsm = .internalClock) :
    ProgressInv s where
  latch h := absurd (hop.symm.trans h) nofun
  primed h := absurd (hop.symm.trans h) nofun
  switched h := absurd (hop.symm.trans h) nofun
  hseon h := absurd h (by rw [hfsm]; decide)
  hserdy h := absurd h (by rw [hfsm]; decide)
  pllon h := absurd h (by rw [hfsm]; decide)
  pllrdy h := absurd h (by rw [hfsm]; decide)

/-- Setting HSEON sets it (R123). -/
theorem flag_filtered_hseon {c : Config} (hwf : c.wf = true) (cr : Word) :
    flag c.layout.crHseon (filtered c .cr cr (cr ||| c.hseonMask)) = true := by
  obtain ⟨-, -, hrange, -⟩ := Config.range hwf
  rw [filtered_or _ _ _ (Config.hseon_wm _), flag_or, Config.hseonMask, flag_bit _ _ hrange,
    decide_eq_true rfl, Bool.or_true]

/-- Setting PLLON sets it (R125). -/
theorem flag_filtered_pllon {c : Config} (hwf : c.wf = true) (cr : Word) :
    flag c.layout.crPllon (filtered c .cr cr (cr ||| c.pllonMask)) = true := by
  obtain ⟨-, -, -, -, hrange, -⟩ := Config.range hwf
  rw [filtered_or _ _ _ (Config.pllon_wm _), flag_or, Config.pllonMask, flag_bit _ _ hrange,
    decide_eq_true rfl, Bool.or_true]

/-- Every turn keeps what the initializer has done by its state. -/
theorem TurnEffect.progressInv {s s' : State} {t : Turn} (h : TurnEffect s t s') (hs : SequencerInv s) :
    ProgressInv s' := by
  have hwf := hs.registers.cfgWf
  have hp := hs.progress
  have hclocks : (∀ b, t ≠ .blockReset b) → ClocksKept s s' := fun ht => (h.regEffect ht).clocksKept hwf
  cases h with
  | reset b => exact .of_reset rfl rfl
  | pass => exact hp
  | hostFault | read | ctrlFault => exact hp.keep rfl rfl (hclocks nofun) fun hop => ⟨hop, rfl, rfl⟩
  | env k =>
    refine hp.keep (envEffect_cfg _ _) (envEffect_fsm _ _) (hclocks nofun) fun hop => ⟨?_, envEffect_cfgLatch _ _, ?_⟩
    · rwa [envEffect_op] at hop
    · exact envEffect_get_and_of_wm (q := .cfgr) hwf (BitVec.and_self)
  | hostWrite _ _ _ _ _ _ _ _ hop | periphEnable _ _ _ _ _ hop =>
    exact hp.keep_of_ne_init rfl rfl (hclocks nofun) (by simp [hop])
  | periphReset | prescaler | resetClear | prescWrite =>
    exact hp.keep_of_ne_init rfl rfl (hclocks nofun) nofun
  | clkInit src pllSrc mul _ _ _ hq =>
    exact .of_clkInit hq rfl rfl rfl
      (filtered_and_of_subset s.cfg .cfgr s.reg.cfgr _ BitVec.and_self)
  | enableOsc _ hop hfsm =>
    exact hp.advance (n := 2) hop (by simp [hfsm]) rfl rfl rfl rfl (by decide)
      (fun _ => flag_filtered_hseon hwf _) (absurd · (by decide)) (absurd · (by decide)) (absurd · (by decide))
  | pollOsc _ hop hfsm hb =>
    exact hp.advance (n := 3) hop (by simp [hfsm]) rfl rfl rfl rfl (by decide)
      (fun _ => hp.hseon (by rw [hfsm]; decide)) (fun _ => hb) (absurd · (by decide)) (absurd · (by decide))
  | enablePll _ hop hfsm =>
    exact hp.advance (n := 4) hop (by simp [hfsm]) rfl rfl rfl rfl (by decide)
      (fun _ => (hclocks nofun).hseon (hp.hseon (by rw [hfsm]; decide)))
      (fun _ => (hclocks nofun).hserdy (hp.hserdy (by rw [hfsm]; decide)))
      (fun _ => flag_filtered_pllon hwf _) (absurd · (by decide))
  | pollPll _ hop hfsm hb =>
    exact hp.advance (n := 5) hop (by simp [hfsm]) rfl rfl rfl rfl (by decide)
      (fun _ => hp.hseon (by rw [hfsm]; decide)) (fun _ => hp.hserdy (by rw [hfsm]; decide))
      (fun _ => hp.pllon (by rw [hfsm]; decide)) (fun _ => hb)
  | switch _ hop hfsm =>
    refine hp.of_clocks (by rw [hfsm]; decide) (hclocks nofun) fun _ => ⟨rfl, hp.latch hop, ?_⟩
    exact (filtered_and_of_subset s.cfg .cfgr s.reg.cfgr _ BitVec.and_self).trans
      (switchValue_and_wm (hp.latch_and_wm hop))
  | pollSwitch _ _ hfsm => exact hp.of_clocks (by rw [hfsm]; decide) (hclocks nofun) nofun

/-! ### What a pending step's latches hold -/

/-- An effect that starts no reset pulse and no prescaler write keeps what the latches of one hold, where it
keeps the latches and CFGR but for SWS. -/
theorem PendingInv.keep {s u : State} (h : PendingInv s) (hcfg : u.cfg = s.cfg)
    (hreset : u.op = .resetClr → s.op = .resetClr ∧ u.rstReg = s.rstReg ∧ u.rstMask = s.rstMask)
    (hpresc : u.op = .prescWr → s.op = .prescWr ∧ u.prescVal = s.prescVal ∧
      u.reg.cfgr &&& ~~~ s.cfg.swsMask = s.reg.cfgr &&& ~~~ s.cfg.swsMask) : PendingInv u where
  reset hop := by
    obtain ⟨hop, hreg, hmask⟩ := hreset hop
    rw [hcfg, hreg, hmask]
    exact h.reset hop
  presc hop := by
    obtain ⟨hop, hval, hcfgr⟩ := hpresc hop
    obtain ⟨sel, hsel⟩ := h.presc hop
    refine ⟨sel, ?_⟩
    rw [xor_and_eq_zero_iff, and_not_eq_iff] at hsel ⊢
    intro i hi
    rw [hcfg] at hi
    have hsws : s.cfg.swsMask.getLsbD i = false := by
      rw [BitVec.getLsbD_or, Bool.or_eq_false_iff] at hi
      exact hi.2
    rw [hval, hsel i hi, (and_not_eq_iff _ _ _).1 hcfgr i hsws]

/-- An effect after which no reset pulse and no prescaler write is pending. -/
theorem PendingInv.of_not_pending {s : State} (hreset : s.op ≠ .resetClr) (hpresc : s.op ≠ .prescWr) :
    PendingInv s where
  reset h := absurd h hreset
  presc h := absurd h hpresc

/-- An ENV step keeps CFGR but for SWS (R140). -/
theorem envEffect_cfgr_and_not_sws (k : EnvKind) (s : State) :
    (envEffect k s).reg.cfgr &&& ~~~ s.cfg.swsMask = s.reg.cfgr &&& ~~~ s.cfg.swsMask := by
  have hro : s.cfg.ro .cfgr = s.cfg.swsMask := BitVec.or_zero
  exact envEffect_get_and_of_disjoint (q := .cfgr) (hro ▸ not_mask_and_self _)

/-- Every turn keeps what the latches of a pending step hold. -/
theorem TurnEffect.pendingInv {s s' : State} {t : Turn} (h : TurnEffect s t s') (hs : PendingInv s) :
    PendingInv s' := by
  cases h with
  | reset => exact .of_not_pending nofun nofun
  | pass => exact hs
  | hostFault | read | ctrlFault =>
    exact hs.keep rfl (fun hop => ⟨hop, rfl, rfl⟩) fun hop => ⟨hop, rfl, rfl⟩
  | env k =>
    refine hs.keep (envEffect_cfg _ _) (fun hop => ?_) fun hop => ?_
    · exact ⟨(envEffect_op k s).symm.trans hop, envEffect_rstReg _ _, envEffect_rstMask _ _⟩
    · exact ⟨(envEffect_op k s).symm.trans hop, envEffect_prescVal _ _, envEffect_cfgr_and_not_sws k s⟩
  | hostWrite _ _ _ _ _ _ _ _ hop | periphEnable _ _ _ _ _ hop | enableOsc _ hop | pollOsc _ hop
  | enablePll _ hop | pollPll _ hop | switch _ hop =>
    exact .of_not_pending (by simp [hop]) (by simp [hop])
  | clkInit | pollSwitch | resetClear | prescWrite => exact .of_not_pending nofun nofun
  | periphReset id p r _ hp hr =>
    exact ⟨fun _ => ⟨p, List.mem_of_getElem? hp, hr, rfl⟩, nofun⟩
  | prescaler _ sel d _ _ _ _ hdiv => exact ⟨nofun, fun _ => ⟨sel, replace_xor_and_not hdiv⟩⟩

/-! ### The whole invariant -/

/-- Every turn keeps the invariant of the sequencer. -/
theorem TurnEffect.sequencerInv {s s' : State} {t : Turn} (h : TurnEffect s t s') (hs : SequencerInv s) :
    SequencerInv s' where
  control := h.controlInv hs.control
  registers := h.registerInv hs.registers
  progress := h.progressInv hs
  pending := h.pendingInv hs.pending

/-- The invariant says nothing of the agenda. -/
theorem SequencerInv.of_choice {s : State} (h : SequencerInv s) (a : List Turn) (d : Nat) :
    SequencerInv { s with agenda := a, draws := d } where
  control := h.control.of_record rfl rfl rfl rfl h.control.opInit
  registers := h.registers.of_eq rfl rfl
  progress := h.progress.keep rfl rfl (.of_eq rfl rfl) fun hop => ⟨hop, rfl, rfl⟩
  pending := h.pending.keep rfl (fun hop => ⟨hop, rfl, rfl⟩) fun hop => ⟨hop, rfl, rfl⟩

/-- Settles O53: `TurnEffect.sequencerInv` after the choice of the turn. -/
theorem stepKeepsSequencerInvariant : Obligations.StepKeepsSequencerInvariant := by
  exact fun s s' hs h =>
    step_keeps (fun _ a d hs => hs.of_choice a d) (fun _ _ _ _ hs h => h.sequencerInv hs) hs h

/-- The invariant of the sequencer right after block reset (10_state.md R45). -/
theorem SequencerInv.ofReset {cfg : Config} (hwf : cfg.wf = true) (b : Byte) :
    SequencerInv (State.ofReset cfg b) where
  control := .of_reset rfl rfl rfl ⟨rfl, rfl, rfl⟩
  registers := .of_reset hwf rfl
  progress := .of_reset rfl rfl
  pending := .of_not_pending nofun nofun

/-- Settles O55: the reset state of each invariant, and the default configuration is well-formed. -/
theorem resetMeetsEveryInvariant : Obligations.ResetMeetsEveryInvariant := by
  refine ⟨fun cfg b hwf => ⟨.ofReset hwf b, .of_reset hwf rfl, b, fun r => rfl⟩, ?_, ?_⟩
  · exact .ofReset (default_wf true true) _
  · exact .of_reset (default_wf true true) rfl

/-! ### The composed value -/

/-- The fields of a value that is two disjoint fields. -/
theorem getField_placeField {lo width : Nat} (x : BitVec width) (h : lo + width ≤ 32) :
    getField lo width (placeField lo x) = x := by
  refine BitVec.eq_of_getLsbD_eq fun i hi => ?_
  rw [getLsbD_getField, getLsbD_placeField]
  simp [hi, show lo + i < 32 by omega]

/-- The state after the acceptance of a CLK_INIT (41_clock_tree_init.md R121). -/
def clkInitAccepted (pllSrc : Byte) (mul : BitVec 4) (s : State) : State :=
  { stored .ctrl .cfgr (compose s.cfg.layout pllSrc mul) .write (compose s.cfg.layout pllSrc mul) s with
    cfgLatch := compose s.cfg.layout pllSrc mul, op := .init, fsm := .cfgPrimed }

/-- A CLK_INIT that starts the initializer has been accepted. -/
theorem eq_of_clkInit {s s' : State} {src pllSrc : Byte} {mul : BitVec 4}
    (h : exec (.clkInit src pllSrc mul) s = .next s') (hop : s.op = .idle) (hop' : s'.op = .init) :
    s' = clkInitAccepted pllSrc mul s := by
  have heffect := exec_effect (decodeOfEncodeIsTheInstruction (.clkInit src pllSrc mul)) h
  cases heffect with
  | clkInit src' pllSrc' mul' hd =>
    rw [decodeOfEncodeIsTheInstruction, Except.ok.injEq, Instr.clkInit.injEq] at hd
    obtain ⟨-, rfl, rfl⟩ := hd
    rfl
  | pass | hostFault | read | hostWrite | periphEnable => simp [hop] at hop'
  | periphReset | prescaler => cases hop'

/-- The step-1 write (R121). -/
theorem clkInitAccepted_cfgr (pllSrc : Byte) (mul : BitVec 4) (s : State) :
    (clkInitAccepted pllSrc mul s).reg.cfgr =
      filtered s.cfg .cfgr s.reg.cfgr (compose s.cfg.layout pllSrc mul) := rfl

/-- Settles O25: the two fields of the composed value are disjoint, and the step-1 write stores all of its
writable bits, so 0 in every prescaler field. -/
theorem composeSetsOnlyThePllFields : Obligations.ComposeSetsOnlyThePllFields := by
  refine ⟨fun c pllSrc mul hwf => ⟨?_, ?_, ?_⟩, fun pllSrc mul => compose_eq _ _ _,
    fun mul => compose_eq _ _ _, fun s s' src pllSrc mul sel hwf h hop hop' => ?_⟩
  · obtain ⟨-, -, -, -, -, -, -, -, hrange, -⟩ := Config.range hwf
    obtain ⟨hdisjoint, -⟩ := Config.pll_disjoint hwf
    refine Eq.trans (getField_congr hrange ?_) (getField_placeField _ hrange)
    rw [BitVec.and_comm] at hdisjoint
    exact or_and_of_disjoint (Config.disjoint_of_subset (placeField_and_fieldMask _ _) hdisjoint) _
  · obtain ⟨-, -, -, -, -, -, -, -, -, hrange⟩ := Config.range hwf
    obtain ⟨hdisjoint, -⟩ := Config.pll_disjoint hwf
    refine Eq.trans (getField_congr hrange ?_) (getField_placeField _ hrange)
    rw [← fieldMask_one] at hdisjoint
    rw [compose, BitVec.or_comm]
    exact or_and_of_disjoint (Config.disjoint_of_subset (placeField_and_fieldMask _ _) hdisjoint) _
  · exact Config.disjoint_of_subset (compose_and_pllFields _ _ _) (mask_and_not_self _)
  · obtain ⟨-, -, -, hsrc, hmul⟩ := Config.pll_disjoint hwf
    rw [eq_of_clkInit h hop hop', clkInitAccepted_cfgr, filtered_and_of_subset _ _ _ _ (Config.presc_wm _ _)]
    refine Config.disjoint_of_subset (compose_and_pllFields _ _ _) ?_
    rw [BitVec.and_comm]
    exact and_or_eq_zero (hsrc sel) (hmul sel)

end Sys2Proof.Machine
end

section
/-! PROOFS. The statements about runs: the moves of the initializer (41_clock_tree_init.md R120, R139), the
polls of a dead clock and the fair runs of working ones (R134, R135), and the end of a run (60_exceptions.md
R207). -/

namespace Sys2Proof.Machine

/-! ### The moves of the initializer -/

/-- Settles O29: the effects that set `fsm` are the rows of the table; the others keep it. -/
theorem fsmMovesOnlyAlongTheTable : Obligations.FsmMovesOnlyAlongTheTable := by
  intro t s s' ht h
  cases takeTurn_effect h with
  | reset b => exact absurd rfl (ht b)
  | clkInit src pllSrc mul hd _ _ _ hfsm =>
    exact .inr (.inl ⟨hfsm, rfl, _, _, src, pllSrc, mul, rfl, hd⟩)
  | enableOsc _ hop hfsm => exact .inr (.inr ⟨rfl, hop, .inl ⟨hfsm, rfl⟩⟩)
  | pollOsc _ hop hfsm hb => exact .inr (.inr ⟨rfl, hop, .inr (.inl ⟨hfsm, rfl, hb⟩)⟩)
  | enablePll _ hop hfsm => exact .inr (.inr ⟨rfl, hop, .inr (.inr (.inl ⟨hfsm, rfl⟩))⟩)
  | pollPll _ hop hfsm hb => exact .inr (.inr ⟨rfl, hop, .inr (.inr (.inr (.inl ⟨hfsm, rfl, hb⟩)))⟩)
  | switch _ hop hfsm => exact .inr (.inr ⟨rfl, hop, .inr (.inr (.inr (.inr (.inl ⟨hfsm, rfl⟩))))⟩)
  | pollSwitch _ hop hfsm hb =>
    exact .inr (.inr ⟨rfl, hop, .inr (.inr (.inr (.inr (.inr ⟨hfsm, rfl, rfl, hb⟩))))⟩)
  | pass | hostFault | read | hostWrite | periphEnable | periphReset | prescaler | ctrlFault | resetClear
  | prescWrite => exact .inl rfl
  | env k => exact .inl (envEffect_fsm k s)

/-- PLL_READY is entered by CTRL's poll that saw PLLRDY, and by nothing else (R120, R126). -/
theorem pllReady_of_turn {t : Turn} {s s' : State} (h : takeTurn t s = .next s') (hfsm' : s'.fsm = .pllReady) :
    s.fsm = .pllReady ∨ (t = .ctrl ∧ s.fsm = .pllEnabling ∧ s.pllrdy = true) := by
  by_cases hreset : ∃ b, t = .blockReset b
  · obtain ⟨b, rfl⟩ := hreset
    rw [takeTurn_blockReset, Host.Outcome.next.injEq] at h
    rw [← h] at hfsm'
    cases hfsm'
  · have hmove := fsmMovesOnlyAlongTheTable t s s' (not_exists.1 hreset) h
    simp only [hfsm', reduceCtorEq, and_false, false_and, or_false, false_or, true_and] at hmove
    exact hmove.imp Eq.symm fun ⟨hctrl, _, hrow⟩ => ⟨hctrl, hrow⟩

/-- Settles O31, by induction on the run: PLL_READY is entered by a poll that saw PLLRDY, or held since. -/
theorem switchOnlyAfterPllLock : Obligations.SwitchOnlyAfterPllLock := by
  intro turns states n hrun hstart hready hswitch
  clear hswitch
  induction n with
  | zero => exact absurd (hstart.symm.trans hready) (by decide)
  | succ n ih =>
    obtain hbefore | ⟨hctrl, hfsm, hrdy⟩ := pllReady_of_turn (hrun n) hready
    · obtain ⟨m, hm, hctrl, hfsm, hrdy, hheld⟩ := ih hbefore
      refine ⟨m, by omega, hctrl, hfsm, hrdy, fun k hmk hkn => ?_⟩
      obtain hk | rfl := Nat.lt_or_eq_of_le hkn
      · exact hheld k hmk (Nat.le_of_lt_succ hk)
      · exact hready
    · refine ⟨n, Nat.lt_succ_self n, hctrl, hfsm, hrdy, fun k hmk hkn => ?_⟩
      obtain rfl : k = n + 1 := by omega
      exact hready

/-! ### The end of a run -/

theorem quiescent_iff (s : State) :
    quiescent s = true ↔ s.faulted = false ∧ s.op = .idle ∧ ∀ k, envEnabled k s = false := by
  have hall : envSettled s = true ↔ ∀ k, envEnabled k s = false := by
    simp only [envSettled, Bool.and_eq_true, Bool.not_eq_true']
    exact ⟨fun ⟨⟨h1, h2⟩, h3⟩ k => by cases k <;> assumption, fun h => ⟨⟨h _, h _⟩, h _⟩⟩
  simp [quiescent, hall, and_assoc]

/-- Settles O56: CTRL has no step in an idle block, and no ENV step is enabled. -/
theorem finalStateIsStable : Obligations.FinalStateIsStable := by
  intro s h
  obtain ⟨-, hop, henv⟩ := (quiescent_iff s).1 h
  exact ⟨takeTurn_ctrl_of_disabled (by simp [ctrlEnabled, hop]), fun k => envTurn_of_disabled (henv k)⟩

/-- A turn of another agent than HOST passes in a quiescent state (60_exceptions.md R207, log 3). -/
theorem takeTurn_of_quiescent {s : State} (h : quiescent s = true) {t : Turn} (ht : byHost t = false) :
    takeTurn t s = .next s := by
  obtain ⟨hctrl, henv⟩ := finalStateIsStable s h
  cases t with
  | ctrl => exact hctrl
  | env k => exact henv k
  | host | blockReset => cases ht

/-- The conditions of R207 on the block say nothing of the agenda. -/
theorem quiescent_choice (s : State) (a : List Turn) (d : Nat) :
    quiescent { s with agenda := a, draws := d } = quiescent s := rfl

theorem hostDone_afterChoice {s : State} (h : hostDone s = true) : hostDone (afterChoice s) = true := by
  unfold afterChoice
  unfold hostDone at h ⊢
  split
  · next hagenda =>
    rw [hagenda, List.all_cons, Bool.and_eq_true] at h
    exact h.2
  · exact h

/-- A field inside a class of bits is that of the word's bits in the class. -/
theorem and_eq_of_subset {v w x m : Word} (h : v &&& x = w) (hm : m &&& x = m) : v &&& m = w &&& m := by
  rw [← h, BitVec.and_assoc, BitVec.and_comm x, hm]

/-- From the switch on SW holds the PLL's code (41_clock_tree_init.md R127). -/
theorem SequencerInv.sw_of_switching {s : State} (h : SequencerInv s) (hop : s.op = .init)
    (hfsm : s.fsm = .switching) : s.sw = s.cfg.codes.srcPll := by
  obtain ⟨-, -, -, -, -, -, hrange, -⟩ := Config.range h.registers.cfgWf
  have hcfgr := and_eq_of_subset (h.progress.switched hop hfsm) (Config.sw_wm s.cfg)
  exact (getField_congr hrange hcfgr).trans (getField_putField _ _ _ hrange)

/-- The last poll of the initializer finds every clock ready and the switch made, so that no ENV step is left
(41_clock_tree_init.md R128, 60_exceptions.md R207). -/
theorem SequencerInv.envEnabled_of_switched {s : State} (h : SequencerInv s) (hop : s.op = .init)
    (hfsm : s.fsm = .switching) (hsws : s.sws = s.cfg.codes.srcPll) (k : EnvKind) : envEnabled k s = false := by
  refine Bool.eq_false_of_not_eq_true fun he => ?_
  cases k with
  | hseStart =>
    obtain ⟨-, -, hrdy⟩ := (envEnabled_hseStart_iff s).1 he
    rw [h.progress.hserdy (by rw [hfsm]; decide)] at hrdy
    cases hrdy
  | pllLock =>
    obtain ⟨-, -, hrdy, -⟩ := (envEnabled_pllLock_iff s).1 he
    rw [h.progress.pllrdy (by rw [hfsm]; decide)] at hrdy
    cases hrdy
  | clockSwitch =>
    obtain ⟨hne, -⟩ := (envEnabled_clockSwitch_iff s).1 he
    exact hne (hsws.trans (h.sw_of_switching hop hfsm).symm)

/-- Settles O60: quiescent states pass the turns of CTRL and ENV, and the last poll leaves one. -/
theorem endOfARunIsFinal : Obligations.EndOfARunIsFinal := by
  refine ⟨fun turns states n m hend hnm => ?_, fun s s' hfinal hturn h => ?_, fun s s' h hfsm ht hfsm' => ?_⟩
  · obtain ⟨hrun, hquiet, hsilent⟩ := hend
    induction m, hnm using Nat.le_induction with
    | base => rfl
    | succ m hnm ih =>
      have hpass := takeTurn_of_quiescent (ih ▸ hquiet) (hsilent m hnm)
      rw [hrun m, Host.Outcome.next.injEq] at hpass
      exact hpass.trans ih
  · rw [finalState, Bool.and_eq_true] at hfinal
    obtain ⟨hquiet, hdone⟩ := hfinal
    obtain ⟨-, ht⟩ := turn_of_step h
    obtain ⟨a, d, hchoice⟩ := exists_afterChoice s
    have hquiet' : quiescent (afterChoice s) = true := by rw [hchoice, quiescent_choice, hquiet]
    rw [takeTurn_of_quiescent hquiet' hturn, Host.Outcome.next.injEq] at ht
    rw [← ht, finalState, hquiet', hostDone_afterChoice hdone]
    exact ⟨rfl, by rw [hchoice]; rfl⟩
  · cases takeTurn_effect ht with
    | pollSwitch hf hop _ hsws =>
      exact (quiescent_iff _).2 ⟨hf, rfl, h.envEnabled_of_switched hop hfsm hsws⟩
    | pass | ctrlFault | resetClear | prescWrite => exact absurd (hfsm.symm.trans hfsm') (by decide)
    | enableOsc | pollOsc | enablePll | pollPll | switch => cases hfsm'

/-! ### Dead clocks -/

/-- A turn that leaves a command in progress alone is quiet. -/
theorem quietTurn_of_busy {t : Turn} {s : State} (hbusy : s.busy = true) (h : quietWhileBusy t s = true) :
    quietTurn s.cfg t = true := by
  simpa [quietWhileBusy, hbusy] using h

/-- The initializer polls a ready bit that never comes (41_clock_tree_init.md R135). -/
structure DeadPoll (s : State) : Prop where
  wf : s.cfg.wf = true
  dead : DeadClockInv s
  running : s.faulted = false
  op : s.op = .init
  poll : (s.fsm = .oscEnabling ∧ s.cfg.hseWorks = false) ∨ (s.fsm = .pllEnabling ∧ s.cfg.pllLocks = false)

theorem DeadPoll.busy {s : State} (h : DeadPoll s) : s.busy = true :=
  (busy_iff s).2 ⟨by rw [h.op]; nofun, h.running⟩

/-- The poll fails, so CTRL's turn changes nothing. -/
theorem DeadPoll.takeTurn_ctrl {s : State} (h : DeadPoll s) : takeTurn .ctrl s = .next s := by
  obtain ⟨hfsm, hdead⟩ | ⟨hfsm, hdead⟩ := h.poll
  · rw [takeTurn_ctrl_of_init h.running h.op (by simp [hfsm]) (by simp [hfsm]), ctrlInit_of_oscEnabling hfsm,
      h.dead.hse hdead]
    rfl
  · rw [takeTurn_ctrl_of_init h.running h.op (by simp [hfsm]) (by simp [hfsm]), ctrlInit_of_pllEnabling hfsm,
      h.dead.pll hdead]
    rfl

/-- A quiet turn leaves the initializer at its poll. -/
theorem DeadPoll.turn {s s' : State} {t : Turn} (h : DeadPoll s) (ht : quietWhileBusy t s = true)
    (hturn : takeTurn t s = .next s') : DeadPoll s' ∧ s'.fsm = s.fsm := by
  obtain rfl | hside := ctrl_or_sideEffect_of_quiet (quietTurn_of_busy h.busy ht) hturn
  · rw [h.takeTurn_ctrl, Host.Outcome.next.injEq] at hturn
    exact hturn ▸ ⟨h, rfl⟩
  · refine ⟨⟨?_, (takeTurn_effect hturn).deadClockInv h.wf h.dead, hside.faulted_eq.trans h.running,
      hside.op_eq.trans h.op, ?_⟩, hside.fsm_eq⟩
    · rw [hside.cfg_eq]
      exact h.wf
    · rw [hside.cfg_eq, hside.fsm_eq]
      exact h.poll

/-- So does every quiet run. -/
theorem DeadPoll.run {turns : Nat → Turn} {states : Nat → State} (h : DeadPoll (states 0))
    (hrun : IsRun turns states) (hquiet : ∀ n, quietWhileBusy (turns n) (states n) = true) (n : Nat) :
    DeadPoll (states n) ∧ (states n).fsm = (states 0).fsm := by
  induction n with
  | zero => exact ⟨h, rfl⟩
  | succ n ih =>
    obtain ⟨hn, hfsm⟩ := ih
    obtain ⟨hn', hfsm'⟩ := hn.turn (hquiet n) (hrun n)
    exact ⟨hn', hfsm'.trans hfsm⟩

/-- A run does not end while the block is busy (60_exceptions.md R207). -/
theorem not_runEndsAt_of_busy {turns : Nat → Turn} {states : Nat → State} {n : Nat}
    (hbusy : (states n).busy = true) : ¬ RunEndsAt turns states n := by
  rintro ⟨-, hquiet, -⟩
  exact ((busy_iff _).1 hbusy).1 ((quiescent_iff _).1 hquiet).2.1

/-- Settles O33: `DeadPoll.run` for the two polls, and the pre-check of a busy block. -/
theorem deadClockPollsForever : Obligations.DeadClockPollsForever := by
  refine ⟨fun turns states hwf hdead hrun hf hop hquiet => ?_, fun s cw dw i hbusy hd hi =>
    hostIssue_of_busy hbusy hd hi⟩
  have hstuck : DeadPoll (states 0) → ∀ n, (states n).fsm = (states 0).fsm ∧ (states n).busy = true ∧
      ¬ RunEndsAt turns states n := by
    intro hpoll n
    obtain ⟨hn, hfsm⟩ := hpoll.run hrun hquiet n
    exact ⟨hfsm, hn.busy, not_runEndsAt_of_busy hn.busy⟩
  refine ⟨fun hfsm hworks => ?_, fun hfsm hlocks => ?_⟩
  · simpa only [hfsm] using hstuck ⟨hwf, hdead, hf, hop, .inl ⟨hfsm, hworks⟩⟩
  · simpa only [hfsm] using hstuck ⟨hwf, hdead, hf, hop, .inr ⟨hfsm, hlocks⟩⟩

end Sys2Proof.Machine
end

section
/-! PROOFS. Every fair run from an accepted CLK_INIT reaches PLL_ACTIVE (41_clock_tree_init.md R134, R135).
While the initializer runs its rank never falls; the ENV step that its poll waits for stays enabled until it
is taken, after which CTRL's next step raises the rank. -/

namespace Sys2Proof.Machine

/-- The initializer is running, with working clocks and no fault. -/
structure InitRunning (s : State) : Prop where
  inv : SequencerInv s
  hseWorks : s.cfg.hseWorks = true
  pllLocks : s.cfg.pllLocks = true
  running : s.faulted = false
  op : s.op = .init

namespace InitRunning

variable {s s' : State} {t : Turn}

theorem inProgress (h : InitRunning s) : s.fsm ∈ Fsm.inProgress := h.inv.control.opInit.1 h.op

theorem fsm_ne (h : InitRunning s) : s.fsm ≠ .internalClock ∧ s.fsm ≠ .pllActive := by
  constructor <;> intro hfsm <;> exact absurd (hfsm ▸ h.inProgress) (by decide)

theorem busy (h : InitRunning s) : s.busy = true := (busy_iff s).2 ⟨by rw [h.op]; nofun, h.running⟩

/-- CTRL has a step as long as the initializer runs. -/
theorem ctrlEnabled (h : InitRunning s) : ctrlEnabled s = true := by
  obtain ⟨hstart, hend⟩ := h.fsm_ne
  simp [Machine.ctrlEnabled, h.running, h.op, hstart, hend]

/-- A quiet turn raises no fault. -/
theorem not_faulted (h : InitRunning s) (ht : quietTurn s.cfg t = true) (hturn : takeTurn t s = .next s') :
    s'.faulted = false := by
  obtain rfl | hside := ctrl_or_sideEffect_of_quiet ht hturn
  · exact (ctrlNeverFaults s s' h.inv hturn).trans h.running
  · exact hside.faulted_eq.trans h.running

/-- Under a quiet turn the initializer goes on running, or has reached PLL_ACTIVE. -/
theorem turn (h : InitRunning s) (ht : quietTurn s.cfg t = true) (hturn : takeTurn t s = .next s') :
    InitRunning s' ∨ (s'.fsm = .pllActive ∧ s'.op = .idle) := by
  have heffect := takeTurn_effect hturn
  have hrunning : s'.op = .init → InitRunning s' := fun hop =>
    ⟨heffect.sequencerInv h.inv, heffect.cfg_eq ▸ h.hseWorks, heffect.cfg_eq ▸ h.pllLocks,
      h.not_faulted ht hturn, hop⟩
  obtain rfl | hside := ctrl_or_sideEffect_of_quiet ht hturn
  · have hinit := h.op
    cases heffect with
    | pollSwitch => exact .inr ⟨rfl, rfl⟩
    | pass | ctrlFault | enableOsc | pollOsc | enablePll | pollPll | switch => exact .inl (hrunning hinit)
    | resetClear _ hop | prescWrite _ hop => exact absurd (hinit.symm.trans hop) nofun
  · exact .inl (hrunning (hside.op_eq.trans h.op))

end InitRunning

/-! ### What each poll waits for -/

/-- The ENV step kind that the poll of an initializer state waits for. -/
def Fsm.awaited : Fsm → EnvKind
  | .pllEnabling => .pllLock
  | .switching => .clockSwitch
  | _ => .hseStart

/-- CTRL's next step moves the initializer on: a poll that it makes succeeds. -/
def PollReady (s : State) : Prop :=
  (s.fsm = .oscEnabling → s.hserdy = true) ∧ (s.fsm = .pllEnabling → s.pllrdy = true) ∧
    (s.fsm = .switching → s.sws = s.cfg.codes.srcPll)

namespace InitRunning

variable {s s' : State} {t : Turn}

/-- The PLL is fed by HSE, which is ready by the time that the PLL is enabled (41_clock_tree_init.md R125). -/
theorem pllInputReady (h : InitRunning s) (hfsm : s.fsm = .pllEnabling) : pllInputReady s = true := by
  have hwf := h.inv.registers.cfgWf
  obtain ⟨-, -, -, -, -, -, -, -, hrange, -⟩ := Config.range hwf
  obtain ⟨mul, hlatch⟩ := h.inv.progress.latch h.op
  obtain ⟨hcompose, -⟩ := composeSetsOnlyThePllFields.1 s.cfg (s.cfg.codes.pllsrcHse.setWidth 8) mul hwf
  have hcfgr := and_eq_of_subset (h.inv.progress.primed h.op (by simp [hfsm])) (Config.pllsrc_wm s.cfg)
  rw [← fieldMask_one] at hcfgr
  have hsrc : s.pllsrc = s.cfg.codes.pllsrcHse := by
    refine (getField_congr hrange hcfgr).trans ?_
    rw [hlatch, hcompose]
    exact BitVec.eq_of_getLsbD_eq fun i hi => by simp [hi, show i < 8 by omega]
  rw [Machine.pllInputReady, if_pos hsrc]
  exact h.inv.progress.hserdy (by rw [hfsm]; decide)

/-- A poll that fails waits for an ENV step that is enabled (R130 to R133). -/
theorem envEnabled_of_not_ready (h : InitRunning s) (hready : ¬ PollReady s) :
    envEnabled s.fsm.awaited s = true := by
  have hwf := h.inv.registers.cfgWf
  have hp := h.inv.progress
  cases hfsm : s.fsm with
  | oscEnabling =>
    have hrdy : s.hserdy = false := by simpa [PollReady, hfsm] using hready
    exact (envEnabled_hseStart_iff s).2 ⟨h.hseWorks, hp.hseon (by rw [hfsm]; decide), hrdy⟩
  | pllEnabling =>
    have hrdy : s.pllrdy = false := by simpa [PollReady, hfsm] using hready
    exact (envEnabled_pllLock_iff s).2
      ⟨h.pllLocks, hp.pllon (by rw [hfsm]; decide), hrdy, h.pllInputReady hfsm⟩
  | switching =>
    have hsws : s.sws ≠ s.cfg.codes.srcPll := by simpa [PollReady, hfsm] using hready
    have hsw := h.inv.sw_of_switching h.op hfsm
    refine (envEnabled_clockSwitch_iff s).2 ⟨hsw ▸ hsws, (sourceReady_iff hwf _).2 (.inr (.inr ⟨hsw, ?_⟩))⟩
    exact hp.pllrdy (by rw [hfsm]; decide)
  | internalClock | cfgPrimed | oscReady | pllReady | pllActive => simp [PollReady, hfsm] at hready

/-- The awaited ENV step makes the poll succeed. -/
theorem ready_of_envEffect (h : InitRunning s) : PollReady (envEffect s.fsm.awaited s) := by
  have hwf := h.inv.registers.cfgWf
  refine ⟨fun hfsm => ?_, fun hfsm => ?_, fun hfsm => ?_⟩ <;> rw [envEffect_fsm] at hfsm
  · rw [envEffect_hserdy hwf, hfsm]
    exact Bool.or_true _
  · rw [envEffect_pllrdy hwf, hfsm]
    exact Bool.or_true _
  · rw [envEffect_sws hwf, envEffect_cfg, hfsm]
    exact h.inv.sw_of_switching h.op hfsm

/-- A poll that would succeed still does after a quiet turn that keeps `fsm`. -/
theorem ready_of_turn (h : InitRunning s) (ht : quietTurn s.cfg t = true) (hturn : takeTurn t s = .next s')
    (hfsm : s'.fsm = s.fsm) (hready : PollReady s) : PollReady s' := by
  obtain ⟨hosc, hpll, hsws⟩ := hready
  have hwf := h.inv.registers.cfgWf
  have heffect := takeTurn_effect hturn
  have hquiet : ∀ b, t ≠ .blockReset b := by
    rintro b rfl
    cases ht
  have hclocks := (heffect.regEffect hquiet).clocksKept hwf
  rw [PollReady, hfsm]
  refine ⟨fun hf => hclocks.hserdy (hosc hf), fun hf => hclocks.pllrdy (hpll hf), fun hf => ?_⟩
  rw [heffect.cfg_eq]
  cases heffect.regEffect hquiet with
  | same _ hcfg hreg => exact (sws_congr hcfg hreg).trans (hsws hf)
  | bus _ a r v k m _ _ _ _ _ hcfg hreg =>
    exact (sws_congr (s := stored a r v k m s) hcfg hreg).trans ((stored_sws hwf).trans (hsws hf))
  | env k =>
    rw [envEffect_sws hwf]
    split
    · exact h.inv.sw_of_switching h.op hf
    · exact hsws hf

/-- CTRL's turn moves a ready initializer on. -/
theorem rank_of_ctrl (h : InitRunning s) (hready : PollReady s) (hturn : takeTurn .ctrl s = .next s') :
    s.fsm.rank < s'.fsm.rank := by
  obtain ⟨hosc, hpll, hsws⟩ := hready
  obtain ⟨hstart, hend⟩ := h.fsm_ne
  rw [takeTurn_ctrl_of_init h.running h.op hstart hend, Host.Outcome.next.injEq] at hturn
  subst hturn
  cases hfsm : s.fsm with
  | internalClock => exact absurd hfsm hstart
  | pllActive => exact absurd hfsm hend
  | cfgPrimed => simp [ctrlInit_of_cfgPrimed hfsm, Fsm.rank]
  | oscEnabling => simp [ctrlInit_of_oscEnabling hfsm, hosc hfsm, Fsm.rank]
  | oscReady => simp [ctrlInit_of_oscReady hfsm, Fsm.rank]
  | pllEnabling => simp [ctrlInit_of_pllEnabling hfsm, hpll hfsm, Fsm.rank]
  | pllReady => simp [h.inv.ctrlInit_of_pllReady h.op hfsm, Fsm.rank]
  | switching => simp [ctrlInit_of_switching hfsm, hsws hfsm, Fsm.rank]

/-- The rank never falls. -/
theorem rank_le (h : InitRunning s) (ht : quietTurn s.cfg t = true) (hturn : takeTurn t s = .next s') :
    s.fsm.rank ≤ s'.fsm.rank := by
  have hquiet : ∀ b, t ≠ .blockReset b := by
    rintro b rfl
    cases ht
  obtain hsame | ⟨hfsm, -⟩ | ⟨-, -, hrow⟩ := fsmMovesOnlyAlongTheTable t s s' hquiet hturn
  · rw [hsame]
  · exact absurd hfsm h.fsm_ne.1
  · obtain ⟨h1, h2⟩ | ⟨h1, h2, -⟩ | ⟨h1, h2⟩ | ⟨h1, h2, -⟩ | ⟨h1, h2⟩ | ⟨h1, h2, -⟩ := hrow <;>
      rw [h1, h2] <;> decide

end InitRunning

theorem Fsm.rank_injective : Function.Injective Fsm.rank := by
  intro f g
  cases f <;> cases g <;> decide

theorem Fsm.rank_le_seven (f : Fsm) : f.rank ≤ 7 := by cases f <;> decide

/-! ### Fair runs -/

section FairRun

variable {turns : Nat → Turn} {states : Nat → State} (hrun : IsRun turns states)
  (hquiet : ∀ n, quietWhileBusy (turns n) (states n) = true)

include hrun hquiet

/-- As long as PLL_ACTIVE has not been reached the initializer runs. -/
theorem initRunning_before_pllActive (h0 : InitRunning (states 0)) {n : Nat}
    (hbefore : ∀ m ≤ n, (states m).fsm ≠ .pllActive) : InitRunning (states n) := by
  induction n with
  | zero => exact h0
  | succ n ih =>
    have hn := ih fun m hm => hbefore m (Nat.le_succ_of_le hm)
    obtain hnext | ⟨hactive, -⟩ := hn.turn (quietTurn_of_busy hn.busy (hquiet n)) (hrun n)
    · exact hnext
    · exact absurd hactive (hbefore (n + 1) (Nat.le_refl _))

variable (hall : ∀ n, InitRunning (states n))

include hall

theorem rank_mono {n m : Nat} (hnm : n ≤ m) : (states n).fsm.rank ≤ (states m).fsm.rank := by
  induction m, hnm using Nat.le_induction with
  | base => exact Nat.le_refl _
  | succ m _ ih => exact ih.trans ((hall m).rank_le (quietTurn_of_busy (hall m).busy (hquiet m)) (hrun m))

/-- A fair run cannot stay at one state of the initializer. -/
theorem exists_rank_lt (hfair : WeaklyFair turns states) (n : Nat) :
    ∃ m, (states n).fsm.rank < (states m).fsm.rank := by
  by_contra hnone
  have hstay : ∀ m, n ≤ m → (states m).fsm = (states n).fsm := fun m hm =>
    Fsm.rank_injective (Nat.le_antisymm (Nat.not_lt.1 fun hlt => hnone ⟨m, hlt⟩)
      (rank_mono hrun hquiet hall hm))
  obtain ⟨m, hnm, hready⟩ : ∃ m, n ≤ m ∧ PollReady (states m) := by
    by_contra hnever
    have hwaiting : ∀ m, n ≤ m → envEnabled (states n).fsm.awaited (states m) = true := fun m hm =>
      hstay m hm ▸ (hall m).envEnabled_of_not_ready fun hready => hnever ⟨m, hm, hready⟩
    obtain ⟨m, hm, hturn⟩ := hfair (.env (states n).fsm.awaited) n hwaiting
    have hnext := hrun m
    rw [hturn, envTurn_of_enabled (hwaiting m hm), Host.Outcome.next.injEq] at hnext
    exact hnever ⟨m + 1, Nat.le_succ_of_le hm, hnext ▸ hstay m hm ▸ (hall m).ready_of_envEffect⟩
  have hstable : ∀ k, m ≤ k → PollReady (states k) := by
    intro k hk
    induction k, hk using Nat.le_induction with
    | base => exact hready
    | succ k hk ih =>
      have hfsm : (states (k + 1)).fsm = (states k).fsm :=
        (hstay (k + 1) (by omega)).trans (hstay k (by omega)).symm
      exact (hall k).ready_of_turn (quietTurn_of_busy (hall k).busy (hquiet k)) (hrun k) hfsm ih
  obtain ⟨k, hk, hturn⟩ := hfair .ctrl m fun k _ => (hall k).ctrlEnabled
  have hlt := (hall k).rank_of_ctrl (hstable k hk) (hturn ▸ hrun k)
  rw [hstay k (by omega), hstay (k + 1) (by omega)] at hlt
  exact Nat.lt_irrefl _ hlt

/-- So its rank would grow for ever. -/
theorem exists_le_rank (hfair : WeaklyFair turns states) (r : Nat) : ∃ n, r ≤ (states n).fsm.rank := by
  induction r with
  | zero => exact ⟨0, Nat.zero_le _⟩
  | succ r ih =>
    obtain ⟨n, hn⟩ := ih
    obtain ⟨m, hm⟩ := exists_rank_lt hrun hquiet hall hfair n
    exact ⟨m, hn.trans_lt hm⟩

end FairRun

/-- Settles O32: a fair run in which the initializer ran for ever would have states of every rank; at the
first state at PLL_ACTIVE the initializer has run without a fault. -/
theorem fairRunsReachPllActive : Obligations.FairRunsReachPllActive := by
  intro s src pllSrc mul turns states hinv hhse hpll hf hop hexec hop0 hrun hfair hquiet
  have hstart := eq_of_clkInit hexec hop hop0
  have hinv0 := (exec_effect (decodeOfEncodeIsTheInstruction _) hexec).sequencerInv hinv
  have h0 : InitRunning (states 0) := ⟨hinv0, by rw [hstart]; exact hhse, by rw [hstart]; exact hpll,
    by rw [hstart]; exact hf, hop0⟩
  have hreach : ∃ n, (states n).fsm = .pllActive := by
    by_contra hnever
    have hall : ∀ n, InitRunning (states n) := fun n =>
      initRunning_before_pllActive hrun hquiet h0 fun m _ hm => hnever ⟨m, hm⟩
    obtain ⟨n, hn⟩ := exists_le_rank hrun hquiet hall hfair 8
    exact absurd (hn.trans (Fsm.rank_le_seven _)) (by decide)
  classical
  have hfirst := Nat.find_spec hreach
  have hbefore : ∀ m < Nat.find hreach, InitRunning (states m) := fun m hm =>
    initRunning_before_pllActive hrun hquiet h0 fun k hk => Nat.find_min hreach (Nat.lt_of_le_of_lt hk hm)
  generalize Nat.find hreach = n at hfirst hbefore
  cases n with
  | zero => exact absurd hfirst h0.fsm_ne.2
  | succ n =>
    have hn := hbefore n (Nat.lt_succ_self n)
    have ht := quietTurn_of_busy hn.busy (hquiet n)
    refine ⟨n + 1, hfirst, ?_, fun m hm => ?_⟩
    · obtain hnext | ⟨-, hidle⟩ := hn.turn ht (hrun n)
      · exact absurd hfirst hnext.fsm_ne.2
      · exact hidle
    · obtain hm | rfl := Nat.lt_or_eq_of_le hm
      · exact (hbefore m hm).running
      · exact hn.not_faulted ht (hrun n)

end Sys2Proof.Machine
end

section
/-! PROOFS. The statements about a whole command: a reset pulse and a prescaler change with other turns between
their two halves (42_peripheral_gating.md R163, 43_prescaler.md R183). -/

namespace Sys2Proof

/-! ### One line of a register -/

theorem flag_and_not (n : Nat) (v m : Word) (h : n < 32) : flag n (v &&& ~~~ m) = (flag n v && !flag n m) := by
  simp [flag, h]

theorem flag_or_bit_self {n : Nat} (h : n < 32) (v : Word) : flag n (v ||| bit n) = true := by
  rw [flag_or, flag_bit n n h, decide_eq_true rfl, Bool.or_true]

theorem flag_and_not_bit_self {n : Nat} (h : n < 32) (v : Word) : flag n (v &&& ~~~ bit n) = false := by
  rw [flag_and_not n v _ h, flag_bit n n h, decide_eq_true rfl, Bool.not_true, Bool.and_false]

/-- Setting one line keeps the others. -/
theorem flag_or_bit_other {n m : Nat} (h : n ≠ m) (v : Word) : flag n (v ||| bit m) = flag n v := by
  by_cases hn : n < 32
  · rw [flag_or, flag_bit n m hn, decide_eq_false h, Bool.or_false]
  · simp [flag, BitVec.getLsbD_of_ge _ n (Nat.le_of_not_lt hn)]

/-- Different lines share no bit (10_state.md R34). -/
theorem bit_and_bit_of_ne {n m : Nat} (h : n ≠ m) : bit n &&& bit m = 0#32 := by
  rw [and_eq_zero_iff]
  intro i
  rw [getLsbD_bit, getLsbD_bit]
  by_cases hn : i = n
  · simp [hn, h]
  · simp [hn]

/-- The enable registers and the reset registers are different (10_state.md R36). -/
theorem Domain.enableReg_ne_resetReg {d d' : Domain} {r : Reg} (h : d'.resetReg = some r) :
    d.enableReg ≠ r := by
  cases d' <;> cases h <;> cases d <;> decide

namespace Machine

/-! ### Gating -/

/-- PERIPH_ENABLE of a registered peripheral in an idle block (42_peripheral_gating.md R160). -/
theorem exec_periphEnable_of_registered {s : State} (hf : s.faulted = false) (hop : s.op = .idle) {id : Byte}
    {p : PeriphDesc} (hp : s.cfg.registry[id.toNat]? = some p) :
    exec (.periphEnable id) s = .next (ctrlSet p.domain.enableReg (bit p.line) s) := by
  rw [exec_periphEnable_of_idle hf hop, periphEnableBody_of_registered hp, settle_ok]

theorem ctrlSet_get (r q : Reg) (m : Word) (s : State) :
    (ctrlSet r m s).reg.get q = if q = r then s.reg.get r ||| m else s.reg.get q :=
  get_set _ _ _ _

/-- A second set of the same bits stores the same value. -/
theorem ctrlSet_again (r : Reg) (m : Word) (s : State) :
    ctrlSet r m (ctrlSet r m s) = { ctrlSet r m s with
      trace := (ctrlSet r m s).trace ++ [⟨.ctrl, r, .set, m, (ctrlSet r m s).reg.get r⟩] } := by
  have hagain : (ctrlSet r m s).reg.get r ||| m = (ctrlSet r m s).reg.get r := by
    rw [ctrlSet_get, if_pos rfl, BitVec.or_assoc, BitVec.or_self]
  rw [ctrlSet, hagain, set_get_self]

/-! ### The reset pulse -/

/-- Between the halves of a reset pulse that began in `s` on line `m` of `r`: the clear is pending, the
registers but CR and CFGR are those after the set, and the trace has grown by ENV events. -/
structure PulsePending (s : State) (r : Reg) (m : Word) (u : State) : Prop where
  running : u.faulted = false
  op : u.op = .resetClr
  cfg : u.cfg = s.cfg
  rstReg : u.rstReg = r
  rstMask : u.rstMask = m
  regs : ∀ q, q ≠ .cr → q ≠ .cfgr → u.reg.get q = (ctrlSet r m s).reg.get q
  trace : ∃ evs, u.trace = (ctrlSet r m s).trace ++ evs ∧ ∀ e ∈ evs, e.agent = .env

/-- An ENV step appends one event of its own. -/
theorem envEffect_trace (k : EnvKind) (s : State) :
    ∃ e : Event, (envEffect k s).trace = s.trace ++ [e] ∧ e.agent = .env := by
  obtain ⟨r, v, he⟩ := exists_envStore k s
  exact ⟨_, congrArg State.trace he, rfl⟩

theorem PulsePending.sideEffect {s u u' : State} {r : Reg} {m : Word} (h : PulsePending s r m u)
    (hside : SideEffect u u') : PulsePending s r m u' where
  running := hside.faulted_eq.trans h.running
  op := hside.op_eq.trans h.op
  cfg := hside.cfg_eq.trans h.cfg
  rstReg := hside.rstReg_eq.trans h.rstReg
  rstMask := hside.rstMask_eq.trans h.rstMask
  regs q hcr hcfgr := by
    cases hside with
    | answer => exact h.regs q hcr hcfgr
    | env k => exact (envEffect_get_other hcr hcfgr).trans (h.regs q hcr hcfgr)
  trace := by
    obtain ⟨evs, htrace, henv⟩ := h.trace
    cases hside with
    | answer => exact ⟨evs, htrace, henv⟩
    | env k =>
      obtain ⟨e, he, hagent⟩ := envEffect_trace k u
      refine ⟨evs ++ [e], by rw [he, htrace, List.append_assoc], fun e' he' => ?_⟩
      obtain he' | he' := List.mem_append.1 he'
      · exact henv e' he'
      · rw [List.mem_singleton.1 he', hagent]

/-- The pulse after its set half (42_peripheral_gating.md R161). -/
theorem pulsePending_of_exec {s s' : State} {id : Byte} {p : PeriphDesc} {r : Reg} (hf : s.faulted = false)
    (hop : s.op = .idle) (hp : s.cfg.registry[id.toNat]? = some p) (hr : p.domain.resetReg = some r)
    (h : exec (.periphReset id) s = .next s') : PulsePending s r (bit p.line) s' := by
  rw [exec_periphReset_of_idle hf hop, periphResetBody_of_resettable hp hr, settle_ok,
    Host.Outcome.next.injEq] at h
  subst h
  exact ⟨hf, rfl, rfl, rfl, rfl, fun _ _ _ => rfl, [], (List.append_nil _).symm, nofun⟩

/-- The clear half of the pulse (R162). -/
theorem PulsePending.takeTurn_ctrl {s u : State} {r : Reg} {m : Word} (h : PulsePending s r m u)
    {p : PeriphDesc} (hp : p ∈ s.cfg.registry) (hr : p.domain.resetReg = some r) (hm : m = bit p.line) :
    takeTurn .ctrl u = .next { u with
      reg := u.reg.set r (u.reg.get r &&& ~~~ m)
      trace := u.trace ++ [⟨.ctrl, r, .clear, m, u.reg.get r &&& ~~~ m⟩]
      op := .idle } := by
  have hpending : PendingInv u :=
    ⟨fun _ => ⟨p, h.cfg ▸ hp, h.rstReg ▸ hr, h.rstMask ▸ hm⟩, fun hop => absurd (h.op.symm.trans hop) nofun⟩
  rw [hpending.takeTurn_resetClear h.running h.op, h.rstReg, h.rstMask]

/-- Settles O42: an enable is one `ctrlSet`, which a second one repeats; a reset pulse is a `ctrlSet`, side
effects and a clear; and identifiers of one domain have different lines. -/
theorem lawsOfGatingAndReset : Obligations.LawsOfGatingAndReset := by
  refine ⟨fun s s' id p hwf hf hop hp h => ?_,
    fun s s1 s2 s3 id p r mid hwf hf hop hp hr h1 hmid h2 h3 => ?_, fun c i j p q hwf hi hj hij hd => ?_⟩
  · have hline := Config.line_lt hwf (List.mem_of_getElem? hp)
    rw [exec_periphEnable_of_registered hf hop hp, Host.Outcome.next.injEq] at h
    subst h
    have hagain := exec_periphEnable_of_registered (s := ctrlSet p.domain.enableReg (bit p.line) s) hf hop hp
    refine ⟨hf, ?_, fun r n hother => ?_, _, rfl, _, hagain, ?_, ?_⟩
    · rw [ctrlSet_get, if_pos rfl, flag_or_bit_self hline]
    · rw [ctrlSet_get]
      split
      · next hreg =>
        subst hreg
        exact flag_or_bit_other (fun hn => hother ⟨rfl, hn⟩) _
      · rfl
    · rw [ctrlSet_again]
    · rw [ctrlSet_again]
      exact List.append_assoc _ _ _
  · have hmem := List.mem_of_getElem? hp
    have hline := Config.line_lt hwf hmem
    have hs1 := pulsePending_of_exec hf hop hp hr h1
    have hs2 : PulsePending s r (bit p.line) s2 := runTurns_keeps (admitted := betweenTurn)
      (fun _ _ _ hu ht hturn => hu.sideEffect (sideEffect_of_between ht hturn)) hs1 (hs1.cfg ▸ hmid) h2
    obtain ⟨evs, htrace, henv⟩ := hs2.trace
    rw [hs2.takeTurn_ctrl hmem hr rfl, Host.Outcome.next.injEq] at h3
    subst h3
    refine ⟨hs2.running, rfl, ?_, fun d => ?_, s.reg.get r ||| bit p.line, s2.reg.get r &&& ~~~ bit p.line, evs,
      ?_, henv, flag_or_bit_self hline _, flag_and_not_bit_self hline _⟩
    · rw [get_set_self, flag_and_not_bit_self hline]
    · have hne : d.enableReg ≠ r := Domain.enableReg_ne_resetReg hr
      obtain ⟨hcr, hcfgr⟩ := d.enableReg_ne_clock
      rw [get_set_other _ _ hne, hs2.regs _ hcr hcfgr, ctrlSet_get, if_neg hne]
    · exact congrArg (· ++ _) htrace
  · exact bit_and_bit_of_ne fun hline => hij (Config.line_unique hwf hi hj hd hline)

/-! ### The prescaler -/

/-- Between the halves of a PRESCALER_SET that began in `s` (43_prescaler.md R182): the write is pending, and
CFGR has changed in SWS alone. -/
structure DividerPending (s : State) (q : PrescSel) (d : Word) (u : State) : Prop where
  registers : RegisterInv u
  running : u.faulted = false
  op : u.op = .prescWr
  cfg : u.cfg = s.cfg
  value : u.prescVal = (s.reg.cfgr &&& ~~~ s.cfg.prescMask q) ||| d
  cfgr : u.reg.cfgr &&& ~~~ s.cfg.swsMask = s.reg.cfgr &&& ~~~ s.cfg.swsMask

theorem DividerPending.sideEffect {s u u' : State} {q : PrescSel} {d : Word} (h : DividerPending s q d u)
    (hside : SideEffect u u') : DividerPending s q d u' where
  registers := by
    cases hside with
    | answer => exact h.registers.of_eq rfl rfl
    | env k he => exact h.registers.envEffect he
  running := hside.faulted_eq.trans h.running
  op := hside.op_eq.trans h.op
  cfg := hside.cfg_eq.trans h.cfg
  value := hside.prescVal_eq.trans h.value
  cfgr := by
    cases hside with
    | answer => exact h.cfgr
    | env k => exact (h.cfg ▸ envEffect_cfgr_and_not_sws k u).trans h.cfgr

/-- The read half (R180). -/
theorem dividerPending_of_exec {s s' : State} {sel : Byte} {q : PrescSel} {d : Word} (h : RegisterInv s)
    (hf : s.faulted = false) (hop : s.op = .idle) (hq : sel.toNat = q.code)
    (hd : d &&& ~~~ s.cfg.prescMask q = 0#32) (hexec : exec (.prescalerSet sel d) s = .next s') :
    DividerPending s q d s' := by
  rw [exec_prescalerSet_of_idle hf hop, prescalerBody_of_divider_inside hq hd, settle_ok,
    Host.Outcome.next.injEq] at hexec
  subst hexec
  exact ⟨h.of_eq rfl rfl, hf, rfl, rfl, rfl, rfl⟩

/-- The value to be written differs from CFGR in the prescaler's field and in SWS. -/
theorem DividerPending.prescPending {s u : State} {q : PrescSel} {d : Word} (h : DividerPending s q d u)
    (hd : d &&& ~~~ s.cfg.prescMask q = 0#32) : PrescPending u := by
  refine ⟨q, ?_⟩
  have hread := replace_xor_and_not (v := s.reg.cfgr) (n := s.cfg.swsMask) hd
  rw [xor_and_eq_zero_iff, and_not_eq_iff] at hread ⊢
  intro i hi
  rw [h.cfg] at hi
  rw [h.value, hread i hi, (and_not_eq_iff _ _ _).1 h.cfgr i]
  rw [BitVec.getLsbD_or, Bool.or_eq_false_iff] at hi
  exact hi.2

/-- A word put together from the field `m` of one word and the rest of another: outside the field. -/
theorem merge_and_of_disjoint {m x : Word} (hx : x &&& m = 0#32) (v w : Word) :
    ((v &&& m) ||| (w &&& ~~~ m)) &&& x = w &&& x := by
  refine BitVec.eq_of_getLsbD_eq fun i hi => ?_
  have hbit := disjoint_bits hx i
  simp only [BitVec.getLsbD_and, BitVec.getLsbD_or, BitVec.getLsbD_not, hi, decide_true, Bool.true_and]
  cases hxi : x.getLsbD i
  · simp
  · rw [hxi, Bool.true_and] at hbit
    simp [hbit]

/-- The same inside the field. -/
theorem merge_and_self (v w m : Word) : ((v &&& m) ||| (w &&& ~~~ m)) &&& m = v &&& m := by
  rw [BitVec.and_or_distrib_right, BitVec.and_assoc, BitVec.and_self, BitVec.and_assoc, not_mask_and_self,
    BitVec.and_zero, BitVec.or_zero]

/-- Settles O45: the write half stores the value read half an interval ago but for SWS, and no turn between
the halves has changed CFGR elsewhere. -/
theorem prescalerChangesOnlyItsField : Obligations.PrescalerChangesOnlyItsField := by
  intro s s1 s2 s3 sel q d mid hinv hf hop hq hd h1 hmid h2 h3
  have hwf := hinv.cfgWf
  have hs1 := dividerPending_of_exec hinv hf hop hq hd h1
  have hs2 : DividerPending s q d s2 := runTurns_keeps (admitted := betweenTurn)
    (fun _ _ _ hu ht hturn => hu.sideEffect (sideEffect_of_between ht hturn)) hs1 (hs1.cfg ▸ hmid) h2
  rw [(hs2.prescPending hd).takeTurn_prescWrite hs2.registers hs2.running hs2.op, Host.Outcome.next.injEq] at h3
  subst h3
  have hdisjoint : s.cfg.prescMask q &&& s.cfg.swsMask = 0#32 := by
    rw [BitVec.and_comm]
    refine Config.disjoint_of_subset (Config.sws_ro _) ?_
    rw [BitVec.and_comm]
    exact Config.disjoint_of_subset (Config.presc_wm _ q) (Config.wm_ro hwf _)
  have hrest := replace_xor_and_not (v := s.reg.cfgr) (n := s.cfg.swsMask) hd
  rw [xor_and_eq_zero_iff] at hrest
  have houtside : ~~~ (s.cfg.prescMask q ||| s.cfg.swsMask) &&& s.cfg.swsMask = 0#32 := by
    rw [BitVec.not_or, BitVec.and_assoc, not_mask_and_self, BitVec.and_zero]
  refine ⟨hs2.running, rfl, ?_, ?_, ?_⟩
  all_goals
    show (s2.reg.set .cfgr _).get .cfgr &&& _ = _
    rw [get_set_self, hs2.value, hs2.cfg]
  · rw [merge_and_of_disjoint houtside, hrest]
  · exact merge_and_self _ _ _
  · rw [merge_and_of_disjoint hdisjoint, BitVec.and_or_distrib_right, BitVec.and_assoc, not_mask_and_self, BitVec.and_zero,
      BitVec.zero_or]
    exact subset_of_bits fun i hi => by
      have hbit := disjoint_bits hd i
      simpa [hi, BitVec.lt_of_getLsbD hi] using hbit

end Machine

end Sys2Proof
end

section
/-! PROOFS. The trace of one CLK_INIT from block reset (41_clock_tree_init.md R137). Each of its seven events
begins a phase, in which `fsm`, CR, CFGR and the trace are known; a quiet turn stays in the phase or begins
the next one. -/

namespace Sys2Proof.Machine

/-! ### The phases -/

/-- The phases of an initialization, each begun by one event of the trace. -/
inductive InitPhase where
  | primed
  | oscOn
  | oscReady
  | pllOn
  | pllReady
  | switched
  | settled

namespace InitPhase

/-- How many events the trace holds. -/
def events : InitPhase → Nat
  | .primed => 1
  | .oscOn => 2
  | .oscReady => 3
  | .pllOn => 4
  | .pllReady => 5
  | .switched => 6
  | .settled => 7

/-- The initializer states of a phase. -/
def fsms : InitPhase → List Fsm
  | .primed => [.cfgPrimed]
  | .oscOn => [.oscEnabling]
  | .oscReady => [.oscEnabling, .oscReady]
  | .pllOn => [.pllEnabling]
  | .pllReady => [.pllEnabling, .pllReady]
  | .switched => [.switching]
  | .settled => [.switching, .pllActive]

/-- What CR holds, from its reset value `cr0`. -/
def cr (c : Config) (cr0 : Word) : InitPhase → Word
  | .primed => cr0
  | .oscOn => cr0 ||| c.hseonMask
  | .oscReady => cr0 ||| c.hseonMask ||| c.hserdyMask
  | .pllOn => cr0 ||| c.hseonMask ||| c.hserdyMask ||| c.pllonMask
  | .pllReady | .switched | .settled =>
    cr0 ||| c.hseonMask ||| c.hserdyMask ||| c.pllonMask ||| c.pllrdyMask

/-- What CFGR holds, from the step-1 value `v`. -/
def cfgr (c : Config) (v : Word) : InitPhase → Word
  | .primed | .oscOn | .oscReady | .pllOn | .pllReady => v
  | .switched => switchValue c v
  | .settled => switchValue c v ||| placeField c.layout.cfgrSws c.codes.srcPll

theorem eq_primed : ∀ ph : InitPhase, .cfgPrimed ∈ ph.fsms → ph = .primed := by
  intro ph; cases ph <;> simp [fsms]

theorem eq_oscReady_of_poll : ∀ ph : InitPhase,
    .oscEnabling ∈ ph.fsms → 3 ≤ ph.events → ph = .oscReady := by
  intro ph; cases ph <;> simp [fsms, events]

theorem eq_oscReady : ∀ ph : InitPhase, .oscReady ∈ ph.fsms → ph = .oscReady := by
  intro ph; cases ph <;> simp [fsms]

theorem eq_pllReady_of_poll : ∀ ph : InitPhase,
    .pllEnabling ∈ ph.fsms → 5 ≤ ph.events → ph = .pllReady := by
  intro ph; cases ph <;> simp [fsms, events]

theorem eq_pllReady : ∀ ph : InitPhase, .pllReady ∈ ph.fsms → ph = .pllReady := by
  intro ph; cases ph <;> simp [fsms]

theorem eq_settled_of_poll : ∀ ph : InitPhase, .switching ∈ ph.fsms → 7 ≤ ph.events → ph = .settled := by
  intro ph; cases ph <;> simp [fsms, events]

theorem eq_settled : ∀ ph : InitPhase, .pllActive ∈ ph.fsms → ph = .settled := by
  intro ph; cases ph <;> simp [fsms]

theorem eq_oscOn_of_events : ∀ ph : InitPhase, 2 ≤ ph.events → ¬ 3 ≤ ph.events → ph = .oscOn := by
  intro ph; cases ph <;> simp [events]

theorem eq_pllOn_of_events : ∀ ph : InitPhase, 4 ≤ ph.events → ¬ 5 ≤ ph.events → ph = .pllOn := by
  intro ph; cases ph <;> simp [events]

end InitPhase

/-- The seven events of an initialization (41_clock_tree_init.md R137). -/
def initEvents (c : Config) (v cr0 : Word) : List Event :=
  [ ⟨.ctrl, .cfgr, .write, v, v⟩,
    ⟨.ctrl, .cr, .set, c.hseonMask, InitPhase.cr c cr0 .oscOn⟩,
    ⟨.env, .cr, .status, 0#32, InitPhase.cr c cr0 .oscReady⟩,
    ⟨.ctrl, .cr, .set, c.pllonMask, InitPhase.cr c cr0 .pllOn⟩,
    ⟨.env, .cr, .status, 0#32, InitPhase.cr c cr0 .pllReady⟩,
    ⟨.ctrl, .cfgr, .write, switchValue c v, InitPhase.cfgr c v .switched⟩,
    ⟨.env, .cfgr, .status, 0#32, InitPhase.cfgr c v .settled⟩ ]

/-! ### The clock bits of a phase -/

section Bits

variable {c : Config} (hwf : c.wf = true) (b : Byte) (ph : InitPhase)

include hwf

theorem flag_hseon_phase :
    flag c.layout.crHseon (ph.cr c (RegFile.reset c b).cr) = decide (2 ≤ ph.events) := by
  obtain ⟨-, -, hrange, -⟩ := Config.range hwf
  have h0 := Config.reset_cr_flag hwf (n := c.layout.crHseon) (by simp [Config.hseonMask]) b
  cases ph <;> simp [InitPhase.cr, InitPhase.events, flag_or, h0, Config.hseonMask, Config.hserdyMask,
    Config.pllonMask, Config.pllrdyMask, flag_bit, hrange]

theorem flag_hserdy_phase :
    flag c.layout.crHserdy (ph.cr c (RegFile.reset c b).cr) = decide (3 ≤ ph.events) := by
  obtain ⟨-, -, -, hrange, -⟩ := Config.range hwf
  obtain ⟨-, -, h1, -, -, -, -, -, -, -⟩ := Config.cr_positions hwf
  have h0 := Config.reset_cr_flag hwf (n := c.layout.crHserdy) (by simp [Config.hserdyMask]) b
  cases ph <;> simp [InitPhase.cr, InitPhase.events, flag_or, h0, Config.hseonMask, Config.hserdyMask,
    Config.pllonMask, Config.pllrdyMask, flag_bit, hrange, h1.symm]

theorem flag_pllon_phase :
    flag c.layout.crPllon (ph.cr c (RegFile.reset c b).cr) = decide (4 ≤ ph.events) := by
  obtain ⟨-, -, -, -, hrange, -⟩ := Config.range hwf
  obtain ⟨h1, -, -, -, -, h2, -⟩ := Config.cr_positions hwf
  have h0 := Config.reset_cr_flag hwf (n := c.layout.crPllon) (by simp [Config.pllonMask]) b
  cases ph <;> simp [InitPhase.cr, InitPhase.events, flag_or, h0, Config.hseonMask, Config.hserdyMask,
    Config.pllonMask, Config.pllrdyMask, flag_bit, hrange, h1.symm, h2]

theorem flag_pllrdy_phase :
    flag c.layout.crPllrdy (ph.cr c (RegFile.reset c b).cr) = decide (5 ≤ ph.events) := by
  obtain ⟨-, -, -, -, -, hrange, -⟩ := Config.range hwf
  obtain ⟨-, -, -, h1, -, -, h2, -, -, h3⟩ := Config.cr_positions hwf
  have h0 := Config.reset_cr_flag hwf (n := c.layout.crPllrdy) (by simp [Config.pllrdyMask]) b
  cases ph <;> simp [InitPhase.cr, InitPhase.events, flag_or, h0, Config.hseonMask, Config.hserdyMask,
    Config.pllonMask, Config.pllrdyMask, flag_bit, hrange, h1.symm, h2.symm, h3.symm]

end Bits

/-! ### The clock source of a phase -/

theorem getField_of_and_eq_zero {lo width : Nat} {v : Word} (hrange : lo + width ≤ 32)
    (h : v &&& fieldMask lo width = 0#32) : getField lo width v = 0#width :=
  (getField_congr hrange (h.trans BitVec.zero_and.symm)).trans (getField_zero _ _)

theorem and_not_of_disjoint {v m : Word} (h : v &&& m = 0#32) : v &&& ~~~ m = v := by
  refine subset_of_bits fun i hi => ?_
  have hbit := disjoint_bits h i
  rw [hi, Bool.true_and] at hbit
  rw [BitVec.getLsbD_not, hbit, decide_eq_true (BitVec.lt_of_getLsbD hi)]
  rfl

/-- The step-1 value leaves SW 0 (41_clock_tree_init.md R122). -/
theorem compose_and_sw {c : Config} (hwf : c.wf = true) (pllSrc : Byte) (mul : BitVec 4) :
    compose c.layout pllSrc mul &&& c.swMask = 0#32 := by
  obtain ⟨-, hsrc, hmul, -⟩ := Config.sw_disjoint hwf
  refine Config.disjoint_of_subset (compose_and_pllFields _ _ _) ?_
  rw [BitVec.and_comm]
  exact and_or_eq_zero hsrc hmul

/-- Writable bits of CFGR lie outside SWS. -/
theorem and_sws_of_wm {c : Config} (hwf : c.wf = true) {v : Word} (hv : v &&& c.wm .cfgr = v) :
    v &&& c.swsMask = 0#32 := by
  refine Config.disjoint_of_subset hv ?_
  rw [BitVec.and_comm]
  exact Config.disjoint_of_subset (Config.sws_ro c) (Config.ro_wm hwf _)

section Source

variable {c : Config} (hwf : c.wf = true) (pllSrc : Byte) (mul : BitVec 4)

include hwf

theorem switchValue_compose_and_sws : switchValue c (compose c.layout pllSrc mul) &&& c.swsMask = 0#32 :=
  and_sws_of_wm hwf (switchValue_and_wm (compose_and_wm c pllSrc mul))

/-- Before the switch SW and SWS are 0; the switch sets SW, and only CLOCK_SWITCH sets SWS. -/
theorem getField_sws_phase (ph : InitPhase) :
    getField c.layout.cfgrSws 2 (ph.cfgr c (compose c.layout pllSrc mul)) =
      if 7 ≤ ph.events then c.codes.srcPll else 0#2 := by
  obtain ⟨-, -, -, -, -, -, -, hrange, -⟩ := Config.range hwf
  cases ph with
  | primed | oscOn | oscReady | pllOn | pllReady =>
    exact getField_of_and_eq_zero hrange (and_sws_of_wm hwf (compose_and_wm c pllSrc mul))
  | switched => exact getField_of_and_eq_zero hrange (switchValue_compose_and_sws hwf pllSrc mul)
  | settled =>
    refine Eq.trans (getField_congr hrange ?_) (getField_placeField _ hrange)
    rw [InitPhase.cfgr, BitVec.or_comm]
    exact or_and_of_disjoint (switchValue_compose_and_sws hwf pllSrc mul) _

theorem getField_sw_phase (ph : InitPhase) :
    getField c.layout.cfgrSw 2 (ph.cfgr c (compose c.layout pllSrc mul)) =
      if 6 ≤ ph.events then c.codes.srcPll else 0#2 := by
  obtain ⟨-, -, -, -, -, -, hrange, -⟩ := Config.range hwf
  obtain ⟨hdisjoint, -⟩ := Config.sw_disjoint hwf
  cases ph with
  | primed | oscOn | oscReady | pllOn | pllReady =>
    exact getField_of_and_eq_zero hrange (compose_and_sw hwf pllSrc mul)
  | switched => exact getField_putField _ _ _ hrange
  | settled =>
    refine Eq.trans (getField_congr hrange ?_) (getField_putField _ c.codes.srcPll
      (compose c.layout pllSrc mul) hrange)
    rw [BitVec.and_comm] at hdisjoint
    exact or_and_of_disjoint (Config.disjoint_of_subset (placeField_and_fieldMask _ _) hdisjoint) _

end Source

/-! ### The initialization in a phase -/

/-- The initialization that began at the reset state with step-1 value `compose … mul` is in phase `ph`. -/
structure AtPhase (c : Config) (b : Byte) (mul : BitVec 4) (ph : InitPhase) (s : State) : Prop where
  inv : SequencerInv s
  cfg : s.cfg = c
  running : s.faulted = false
  op : s.op = .init ∨ s.op = .idle
  fsm : s.fsm ∈ ph.fsms
  latch : s.cfgLatch = compose c.layout (c.codes.pllsrcHse.setWidth 8) mul
  cr : s.reg.cr = ph.cr c (RegFile.reset c b).cr
  cfgr : s.reg.cfgr = ph.cfgr c (compose c.layout (c.codes.pllsrcHse.setWidth 8) mul)
  trace : s.trace =
    (initEvents c (compose c.layout (c.codes.pllsrcHse.setWidth 8) mul) (RegFile.reset c b).cr).take ph.events

namespace AtPhase

variable {c : Config} {b : Byte} {mul : BitVec 4} {ph ph' : InitPhase} {s s' : State}

theorem wf (h : AtPhase c b mul ph s) : c.wf = true := h.cfg ▸ h.inv.registers.cfgWf

theorem hseon_eq (h : AtPhase c b mul ph s) : s.hseon = decide (2 ≤ ph.events) := by
  rw [State.hseon, h.cfg, h.cr, flag_hseon_phase h.wf]

theorem hserdy_eq (h : AtPhase c b mul ph s) : s.hserdy = decide (3 ≤ ph.events) := by
  rw [State.hserdy, h.cfg, h.cr, flag_hserdy_phase h.wf]

theorem pllon_eq (h : AtPhase c b mul ph s) : s.pllon = decide (4 ≤ ph.events) := by
  rw [State.pllon, h.cfg, h.cr, flag_pllon_phase h.wf]

theorem pllrdy_eq (h : AtPhase c b mul ph s) : s.pllrdy = decide (5 ≤ ph.events) := by
  rw [State.pllrdy, h.cfg, h.cr, flag_pllrdy_phase h.wf]

theorem sws_eq (h : AtPhase c b mul ph s) : s.sws = if 7 ≤ ph.events then c.codes.srcPll else 0#2 := by
  rw [State.sws, h.cfg, h.cfgr, getField_sws_phase h.wf]

theorem sw_eq (h : AtPhase c b mul ph s) : s.sw = if 6 ≤ ph.events then c.codes.srcPll else 0#2 := by
  rw [State.sw, h.cfg, h.cfgr, getField_sw_phase h.wf]

/-- A turn that stores no register stays in the phase. -/
theorem stay (h : AtPhase c b mul ph s) (inv : SequencerInv s') (hcfg : s'.cfg = s.cfg)
    (running : s'.faulted = false) (op : s'.op = .init ∨ s'.op = .idle) (fsm : s'.fsm ∈ ph.fsms)
    (hlatch : s'.cfgLatch = s.cfgLatch) (hreg : s'.reg = s.reg) (htrace : s'.trace = s.trace) :
    AtPhase c b mul ph s' :=
  ⟨inv, hcfg.trans h.cfg, running, op, fsm, hlatch.trans h.latch, hreg ▸ h.cr, hreg ▸ h.cfgr,
    htrace.trans h.trace⟩

/-- A turn that appends the next event begins the next phase. -/
theorem next (h : AtPhase c b mul ph s) (inv : SequencerInv s') (hcfg : s'.cfg = s.cfg)
    (running : s'.faulted = false) (op : s'.op = .init ∨ s'.op = .idle) (fsm : s'.fsm ∈ ph'.fsms)
    (hlatch : s'.cfgLatch = s.cfgLatch) (cr : s'.reg.cr = ph'.cr c (RegFile.reset c b).cr)
    (cfgr : s'.reg.cfgr = ph'.cfgr c (compose c.layout (c.codes.pllsrcHse.setWidth 8) mul)) {e : Event}
    (htrace : s'.trace = s.trace ++ [e]) (hevents : ph'.events = ph.events + 1)
    (he : (initEvents c (compose c.layout (c.codes.pllsrcHse.setWidth 8) mul)
      (RegFile.reset c b).cr)[ph.events]? = some e) : AtPhase c b mul ph' s' :=
  ⟨inv, hcfg.trans h.cfg, running, op, fsm, hlatch.trans h.latch, cr, cfgr, by
    rw [htrace, h.trace, hevents, List.take_add_one, he]
    rfl⟩

/-- An enabled ENV step begins one of the three phases that ENV's events begin. -/
theorem env (h : AtPhase c b mul ph s) {k : EnvKind} (he : envEnabled k s = true)
    (inv : SequencerInv (envEffect k s)) : ∃ ph', AtPhase c b mul ph' (envEffect k s) := by
  have hfsm := h.fsm
  have hcfg := envEffect_cfg k s
  have hrunning := (envEffect_faulted k s).trans h.running
  have hop : (envEffect k s).op = .init ∨ (envEffect k s).op = .idle := by rw [envEffect_op]; exact h.op
  have hlatch := envEffect_cfgLatch k s
  cases k with
  | hseStart =>
    obtain ⟨-, hon, hrdy⟩ := (envEnabled_hseStart_iff s).1 he
    rw [h.hseon_eq, decide_eq_true_eq] at hon
    rw [h.hserdy_eq, decide_eq_false_iff_not] at hrdy
    obtain rfl := ph.eq_oscOn_of_events hon hrdy
    have hcr : s.reg.cr ||| s.cfg.hserdyMask = InitPhase.cr c (RegFile.reset c b).cr .oscReady := by
      rw [h.cr, h.cfg]
      rfl
    refine ⟨.oscReady, h.next inv hcfg hrunning hop ?_ hlatch hcr h.cfgr rfl rfl ?_⟩
    · exact List.mem_cons.2 (.inl (List.mem_singleton.1 hfsm))
    · rw [hcr]
      rfl
  | pllLock =>
    obtain ⟨-, hon, hrdy, -⟩ := (envEnabled_pllLock_iff s).1 he
    rw [h.pllon_eq, decide_eq_true_eq] at hon
    rw [h.pllrdy_eq, decide_eq_false_iff_not] at hrdy
    obtain rfl := ph.eq_pllOn_of_events hon hrdy
    have hcr : s.reg.cr ||| s.cfg.pllrdyMask = InitPhase.cr c (RegFile.reset c b).cr .pllReady := by
      rw [h.cr, h.cfg]
      rfl
    refine ⟨.pllReady, h.next inv hcfg hrunning hop ?_ hlatch hcr h.cfgr rfl rfl ?_⟩
    · exact List.mem_cons.2 (.inl (List.mem_singleton.1 hfsm))
    · rw [hcr]
      rfl
  | clockSwitch =>
    obtain ⟨hne, -⟩ := (envEnabled_clockSwitch_iff s).1 he
    have hph : ph = .switched := by
      rw [h.sws_eq, h.sw_eq] at hne
      cases ph <;> simp_all [InitPhase.events]
    subst hph
    have hsw : s.sw = c.codes.srcPll := h.sw_eq
    have hcfgr : putField s.cfg.layout.cfgrSws s.sw s.reg.cfgr =
        InitPhase.cfgr c (compose c.layout (c.codes.pllsrcHse.setWidth 8) mul) .settled := by
      rw [hsw, h.cfgr, h.cfg, InitPhase.cfgr, putField]
      exact congrArg (· ||| _) (and_not_of_disjoint (switchValue_compose_and_sws h.wf _ _))
    refine ⟨.settled, h.next inv hcfg hrunning hop ?_ hlatch h.cr hcfgr rfl rfl ?_⟩
    · exact List.mem_cons.2 (.inl (List.mem_singleton.1 hfsm))
    · rw [hcfgr]
      rfl

/-- CTRL's turn stays in the phase at its polls and begins one of the other phases at its writes. -/
theorem ctrl (h : AtPhase c b mul ph s) (heffect : TurnEffect s .ctrl s') (inv : SequencerInv s') :
    ∃ ph', AtPhase c b mul ph' s' := by
  have hfsm := h.fsm
  cases heffect with
  | pass => exact ⟨ph, h⟩
  | ctrlFault f _ hb => exact absurd hb (h.inv.ctrlBody_ne_error f)
  | resetClear _ hop | prescWrite _ hop => exact absurd (hop ▸ h.op) (by simp)
  | enableOsc _ hop hat =>
    rw [hat] at hfsm
    obtain rfl := ph.eq_primed hfsm
    have hcr : filtered s.cfg .cr s.reg.cr (s.reg.cr ||| s.cfg.hseonMask) =
        InitPhase.cr c (RegFile.reset c b).cr .oscOn := by
      rw [filtered_or _ _ _ (Config.hseon_wm _), h.cr, h.cfg]
      rfl
    refine ⟨.oscOn, h.next inv rfl h.running (.inl hop) (List.mem_singleton.2 rfl) rfl hcr h.cfgr rfl rfl ?_⟩
    rw [get_cr, hcr, h.cfg]
    rfl
  | pollOsc _ hop hat hrdy =>
    rw [hat] at hfsm
    rw [h.hserdy_eq, decide_eq_true_eq] at hrdy
    obtain rfl := ph.eq_oscReady_of_poll hfsm hrdy
    exact ⟨.oscReady, h.stay inv rfl h.running (.inl hop) (by simp [InitPhase.fsms]) rfl rfl rfl⟩
  | enablePll _ hop hat =>
    rw [hat] at hfsm
    obtain rfl := ph.eq_oscReady hfsm
    have hcr : filtered s.cfg .cr s.reg.cr (s.reg.cr ||| s.cfg.pllonMask) =
        InitPhase.cr c (RegFile.reset c b).cr .pllOn := by
      rw [filtered_or _ _ _ (Config.pllon_wm _), h.cr, h.cfg]
      rfl
    refine ⟨.pllOn, h.next inv rfl h.running (.inl hop) (List.mem_singleton.2 rfl) rfl hcr h.cfgr rfl rfl ?_⟩
    rw [get_cr, hcr, h.cfg]
    rfl
  | pollPll _ hop hat hrdy =>
    rw [hat] at hfsm
    rw [h.pllrdy_eq, decide_eq_true_eq] at hrdy
    obtain rfl := ph.eq_pllReady_of_poll hfsm hrdy
    exact ⟨.pllReady, h.stay inv rfl h.running (.inl hop) (by simp [InitPhase.fsms]) rfl rfl rfl⟩
  | switch _ hop hat =>
    rw [hat] at hfsm
    obtain rfl := ph.eq_pllReady hfsm
    have hcfgr : filtered s.cfg .cfgr s.reg.cfgr (switchValue s.cfg s.cfgLatch) =
        InitPhase.cfgr c (compose c.layout (c.codes.pllsrcHse.setWidth 8) mul) .switched := by
      rw [h.inv.registers.filtered_cfgr, h.latch, h.cfgr, h.cfg]
      exact (congrArg (· ||| _) (and_sws_of_wm h.wf (compose_and_wm c _ mul))).trans
        (BitVec.zero_or.trans (switchValue_and_wm (compose_and_wm c _ mul)))
    refine ⟨.switched, h.next inv rfl h.running (.inl hop) (List.mem_singleton.2 rfl) rfl h.cr hcfgr rfl rfl ?_⟩
    rw [get_cfgr, hcfgr, h.latch, h.cfg]
    rfl
  | pollSwitch _ _ hat hsws =>
    rw [hat] at hfsm
    have hlast : 7 ≤ ph.events := by
      by_contra hbefore
      obtain ⟨-, -, hpll, -⟩ := Config.codes_facts h.wf
      rw [h.sws_eq, h.cfg, if_neg hbefore] at hsws
      exact hpll hsws.symm
    obtain rfl := ph.eq_settled_of_poll hfsm hlast
    exact ⟨.settled, h.stay inv rfl h.running (.inr rfl) (by simp [InitPhase.fsms]) rfl rfl rfl⟩

/-- A quiet turn stays in the phase or begins another. -/
theorem turn (h : AtPhase c b mul ph s) {t : Turn} (ht : quietTurn s.cfg t = true)
    (hturn : takeTurn t s = .next s') : ∃ ph', AtPhase c b mul ph' s' := by
  have heffect := takeTurn_effect hturn
  have hinv := heffect.sequencerInv h.inv
  obtain rfl | hside := ctrl_or_sideEffect_of_quiet ht hturn
  · exact h.ctrl heffect hinv
  · cases hside with
    | answer => exact ⟨ph, h.stay hinv rfl h.running h.op h.fsm rfl rfl rfl⟩
    | env k he => exact h.env he hinv

end AtPhase

/-! ### From block reset -/

/-- The step-1 write is allowed right after block reset: SW is 0 in it, and PLLON is clear (R121). -/
theorem writeAllowed_compose_ofReset {c : Config} (hwf : c.wf = true) (b pllSrc : Byte) (mul : BitVec 4) :
    WriteAllowed (State.ofReset c b) .cfgr (compose c.layout pllSrc mul) := by
  obtain ⟨-, -, -, -, -, -, hrange, -⟩ := Config.range hwf
  refine ⟨?_, nofun, fun _ => ⟨?_, fun hon => ?_⟩⟩
  · rw [xor_and_eq_zero_iff]
    refine (Config.disjoint_of_subset (compose_and_wm c pllSrc mul) (Config.wm_un c .cfgr)).trans ?_
    exact BitVec.zero_and.symm
  · have hsw : getField c.layout.cfgrSw 2 (compose c.layout pllSrc mul) = 0#2 :=
      getField_of_and_eq_zero hrange (compose_and_sw hwf pllSrc mul)
    exact hsw ▸ (by decide)
  · have hoff : (State.ofReset c b).pllon = false :=
      Config.reset_cr_flag hwf (n := c.layout.crPllon) (by simp [Config.pllonMask]) b
    rw [hoff] at hon
    cases hon

/-- An accepted CLK_INIT right after block reset begins the first phase. -/
theorem atPhase_primed {c : Config} (hwf : c.wf = true) {b : Byte} {mul : BitVec 4} {s : State}
    (h : exec (.clkInit (c.codes.srcPll.setWidth 8) (c.codes.pllsrcHse.setWidth 8) mul) (State.ofReset c b) =
      .next s) : AtPhase c b mul .primed s := by
  have hreset := SequencerInv.ofReset hwf b
  have hinv := (exec_effect (decodeOfEncodeIsTheInstruction _) h).sequencerInv hreset
  have hq := (clockRequestOk_iff c _ _).2 ⟨rfl, rfl⟩
  rw [exec_clkInit_of_idle rfl rfl, clkInitBody_of_allowed hq rfl (writeAllowed_compose_ofReset hwf b _ mul),
    settle_ok, Host.Outcome.next.injEq] at h
  have hcfgr : filtered c .cfgr 0#32 (compose c.layout (c.codes.pllsrcHse.setWidth 8) mul) =
      compose c.layout (c.codes.pllsrcHse.setWidth 8) mul := by
    refine (hreset.registers.filtered_cfgr _).trans ?_
    exact (congrArg (· ||| _) BitVec.zero_and).trans (BitVec.zero_or.trans (compose_and_wm c _ mul))
  subst h
  refine ⟨hinv, rfl, rfl, .inl rfl, List.mem_singleton.2 rfl, rfl, rfl, hcfgr, ?_⟩
  exact congrArg (fun value => [(⟨.ctrl, .cfgr, .write, _, value⟩ : Event)]) hcfgr

/-- Settles O34: the run goes through the phases, and PLL_ACTIVE is reached in the last one. -/
theorem traceOfOneClkInit : Obligations.TraceOfOneClkInit := by
  refine ⟨fun c b mul mid s1 s2 v cr0 hwf h1 hmid h2 hactive hv hcr0 => ?_, fun hw pl mul => ?_⟩
  · have hs1 := atPhase_primed hwf h1
    obtain ⟨ph, hs2⟩ : ∃ ph, AtPhase c b mul ph s2 :=
      runTurns_keeps (P := fun s => ∃ ph, AtPhase c b mul ph s) (admitted := quietTurn)
        (fun _ _ _ ⟨_, hs⟩ ht hturn => hs.turn ht hturn) ⟨_, hs1⟩ (hs1.cfg ▸ hmid) h2
    obtain rfl := ph.eq_settled (hactive ▸ hs2.fsm)
    subst hv hcr0
    exact hs2.trace
  · rw [switchValue]
    exact congrArg (· ||| _) (and_not_of_disjoint (compose_and_sw (default_wf hw pl) 1#8 mul))

end Sys2Proof.Machine
end
